-- ==== Sys2Proof/Word.lean ====
section
/-! DEFINITION. Word.lean: the byte, the 32-bit pattern and the pixel, and the types of the operands
a command carries by value. -/

namespace Sys2Proof

/-- A byte: 8 bits, bit 7 the most significant (00_scope.md R6). -/
abbrev Byte := BitVec 8

/-- A 32-bit pattern: what `toUint32BE` and `fromUint32BE` carry, and the header's width and height
(00_scope.md R11). -/
abbrev Word := BitVec 32

/-- A pixel: four bytes named red, green, blue, alpha (00_scope.md R7). -/
structure Pixel where
  r : Byte
  g : Byte
  b : Byte
  a : Byte
  deriving DecidableEq, Repr

/-- `ZERO = (0, 0, 0, 0)` (00_scope.md R7). -/
def Pixel.zero : Pixel := ⟨0, 0, 0, 0⟩

/-- A byte-sequence operand with its `present` bit: `none` is the absent operand, the source's null
(40_byte_utilities.md R118). -/
abbrev Seq := Option (List Byte)

/-- The operands of UTIL.CONCAT, in its two variants: every element one byte, or every element a byte
sequence with a `present` bit (40_byte_utilities.md R114). -/
inductive ConcatArgs where
  | bytes (bs : List Byte)
  | seqs (ss : List Seq)
  deriving DecidableEq, Repr

end Sys2Proof
end

