-- ==== Sys2Proof/Config.lean ====
section
/-! DEFINITION. Config.lean: the parameters of the block. The ones the source fixes are constants
(00_scope.md R4). The ones it does not fix are the fields of `Config` (00_scope.md R5); `Machine.State`
carries one `Config` that no step writes, so a statement about every state is a statement about every
value of these parameters (log entry 1). -/

namespace Sys2Proof

/-- `RUN_MAX`, the longest run one Run chunk carries (00_scope.md R4). -/
abbrev runMax : Nat := 62

/-- `HEADER_LEN` (00_scope.md R4). -/
abbrev headerLen : Nat := 14

/-- `END_LEN` (00_scope.md R4). -/
abbrev endLen : Nat := 8

/-- The parameters the source does not fix (00_scope.md R5). -/
structure Config where
  /-- `PREV_INIT`: the previous pixel at the start of every encode and decode. -/
  prevInit : Pixel
  /-- `MAGIC`: header bytes 0 to 3. -/
  magic : Vector Byte 4
  /-- `END_MARKER`: the last 8 bytes of every file. -/
  endMarker : Vector Byte 8
  /-- `MAX_LEN`: the longest byte sequence a port carries; the spec leaves it OPEN. -/
  maxLen : Nat
  deriving DecidableEq, Repr

/-- The values the machine has after reset: the spec's defaults of R5, and for `MAX_LEN`, which the
spec leaves OPEN, 2^31 - 1 (PRESUMED, from R67's remark on Java arrays; log entry 2). -/
def Config.default : Config where
  prevInit := ⟨0, 0, 0, 255⟩
  magic := #v[0x71, 0x6F, 0x69, 0x66]
  endMarker := #v[0, 0, 0, 0, 0, 0, 0, 1]
  maxLen := 2 ^ 31 - 1

end Sys2Proof
end

