-- ==== Sys2Proof/Syntax.lean ====
section
/-! DEFINITION. Syntax.lean: the instructions, one constructor for each of the 48 rows of
spec/opcode_table.json, with operands in the form the rules give them. -/

namespace Sys2Proof

/-- The rows of the opcode table, in the table's order. -/
inductive Instr where
  -- the six chunks: the byte code DEC executes (30_encoding.md R93 gives the operands)
  /-- INDEX, `Index(slot)` (R81, R203). -/
  | index (slot : BitVec 6)
  /-- DIFF, `Diff(dr,dg,db)` (R82, R204). -/
  | diff (dr dg db : Int)
  /-- LUMA, `Luma(dg,dr_dg,db_dg)`: the green delta and the two second-order deltas (R83, R205). -/
  | luma (dg drDg dbDg : Int)
  /-- RUN, `Run(length)` (R84, R208). -/
  | run (length : Nat)
  /-- RGB, `RGB(r,g,b)` (R85, R206). -/
  | rgb (r g b : Byte)
  /-- RGBA, `RGBA(r,g,b,a)` (R86, R207). -/
  | rgba (r g b a : Byte)
  -- the two file records
  /-- HEADER, the 14-byte record at file offset 0 (R87). -/
  | header (magic : Vector Byte 4) (width height : Word) (channels colorspace : Byte)
  /-- END_MARKER, the last 8 bytes of a file (R88). -/
  | endMarker (bytes : Vector Byte 8)
  -- the encoder's actions: chosen by ENC.PIXEL and ENC.END, never issued by the host (R96)
  /-- RUN_EXTEND (R173). -/
  | runExtend
  /-- RUN_FLUSH_FULL (R174). -/
  | runFlushFull
  /-- RUN_FLUSH_PENDING (R175). -/
  | runFlushPending
  /-- EMIT_INDEX(h) (R176). -/
  | emitIndex (slot : BitVec 6)
  /-- CACHE_UPDATE, the cache write on a miss (R177). -/
  | cacheUpdate (px : Pixel)
  /-- EMIT_DIFF(dr,dg,db), first-order deltas (R178). -/
  | emitDiff (dr dg db : Int)
  /-- EMIT_LUMA(dr,dg,db), first-order deltas (R179). -/
  | emitLuma (dr dg db : Int)
  /-- EMIT_RGB(px); its chunk does not carry px's alpha (R180). -/
  | emitRgb (r g b : Byte)
  /-- EMIT_RGBA(px) (R181). -/
  | emitRgba (px : Pixel)
  /-- PREV_ADVANCE (R182). -/
  | prevAdvance (px : Pixel)
  /-- FINAL_FLUSH, the flush of ENC.END (R183). -/
  | finalFlush
  -- the commands, in the order of their codes (30_encoding.md R95)
  /-- UTIL.EQ, `bytesEqual(a,b)` (R110). -/
  | utilEq (a b : Seq)
  /-- UTIL.BE32_UNPACK, `toUint32BE(bytes[4])` (R111). -/
  | utilBe32Unpack (s : Seq)
  /-- UTIL.BE32_PACK, `fromUint32BE(u32)` (R112). -/
  | utilBe32Pack (x : Word)
  /-- UTIL.CONCAT, `concat(...)`, both variants (R114). -/
  | utilConcat (args : ConcatArgs)
  /-- UTIL.EXTRACT, `extract(input,start,length)` (R115). -/
  | utilExtract (input : Seq) (start length : Int)
  /-- UTIL.PARTITION, `partition(input,sizes...)` (R116). -/
  | utilPartition (input : Seq) (sizes : List Int)
  /-- HASH (R130). -/
  | hash (px : Pixel)
  /-- CODEC.ENC_RGB, `encodeRGB(pixel)` (R140). -/
  | encRgb (px : Option Pixel)
  /-- CODEC.ENC_RGBA, `encodeRGBA(pixel)` (R141). -/
  | encRgba (px : Option Pixel)
  /-- CODEC.ENC_INDEX, `encodeIndex(slot)`, an 8-bit unsigned port (R142). -/
  | encIndex (slot : Byte)
  /-- CODEC.ENC_DIFF, `encodeDiff(dr,dg,db)`, 8-bit ports read as signed (R143). -/
  | encDiff (dr dg db : Byte)
  /-- CODEC.ENC_LUMA, `encodeLuma(dr,dg,db)`, 8-bit ports read as signed, first-order deltas (R144). -/
  | encLuma (dr dg db : Byte)
  /-- CODEC.ENC_RUN, `encodeRun(count)`, an 8-bit unsigned port (R145). -/
  | encRun (count : Byte)
  /-- CODEC.DEC_RGB, `decodeRGB`: the previous pixel and the 3 payload bytes (R146). -/
  | decRgb (prev : Option Pixel) (payload : Seq)
  /-- CODEC.DEC_RGBA, `decodeRGBA`: the 4 payload bytes (R147). -/
  | decRgba (payload : Seq)
  /-- CODEC.DEC_DIFF, `decodeDiff(prev,byte)`, tag included (R148). -/
  | decDiff (prev : Option Pixel) (b : Byte)
  /-- CODEC.DEC_LUMA, `decodeLuma(prev,bytes[2])`, tag included (R149). -/
  | decLuma (prev : Option Pixel) (bytes : Seq)
  /-- CODEC.DEC_RUN, `decodeRun`: the current pixel, the chunk's byte, the output position (R150). -/
  | decRun (prev : Option Pixel) (b : Byte) (pos : Nat)
  /-- ENC.START (R171). -/
  | encStart
  /-- ENC.PIXEL(px) (R172). -/
  | encPixel (px : Pixel)
  /-- ENC.END (R183). -/
  | encEnd
  /-- DEC.START(bytes,width,height) (R201). -/
  | decStart (bytes : Seq) (width height : Word)
  /-- DEC.STEP (R202). -/
  | decStep
  /-- DEC.FINISH (R210). -/
  | decFinish
  /-- HDR.BUILD; its operands are the registers `hdr.*` (R35, R230). -/
  | hdrBuild
  /-- HDR.PARSE (R231). -/
  | hdrParse (h : Seq)
  /-- FILE.ENCODE (R233). -/
  | fileEncode (width height : Word) (channels colorspace : Byte) (pixels : Option (List Pixel))
  /-- FILE.DECODE (R234). -/
  | fileDecode (file : Seq)
  /-- The unassigned codes `0x1C..0x1F`; `code` is the two low bits `xx` of `111xx` (R263). -/
  | unassigned (code : BitVec 2)
  deriving DecidableEq, Repr

end Sys2Proof
end

