-- ==== Sys2Proof/WellFormed.lean ====
section
/-! DEFINITION. WellFormed.lean: which terms of `Instr` have an encoding. The ranges of chunk and
action operands are the spec's (00_scope.md R4, 30_encoding.md R81 to R86). The ranges of command
operands are those of the model's own records on the command port (log entry 3): the spec gives a
command's operands no encoding. An operand outside a range that the SPEC gives a command (a slot of 64,
a partition that does not add up) is no ill-formed term: that command runs and faults as its rule says. -/

namespace Sys2Proof

/-- `d` lies in `lo..hi`, the form of every range test of the spec (00_scope.md R9). -/
def inRange (lo hi d : Int) : Bool := decide (lo ≤ d) && decide (d ≤ hi)

/-- The Diff range: each delta in -2..1 (R82). -/
def diffRange (dr dg db : Int) : Bool := inRange (-2) 1 dr && inRange (-2) 1 dg && inRange (-2) 1 db

/-- The Luma range: green delta in -32..31, second-order deltas in -8..7 (R83). -/
def lumaRange (dg drDg dbDg : Int) : Bool :=
  inRange (-32) 31 dg && inRange (-8) 7 drDg && inRange (-8) 7 dbDg

/-- A count fits the 8-byte count field of a port record (log entry 3). -/
def countFits (n : Nat) : Bool := decide (n < 2 ^ 64)

/-- An integer operand fits its 8-byte two's-complement field (log entry 3). -/
def intFits (x : Int) : Bool := inRange (-(2 ^ 63)) (2 ^ 63 - 1) x

/-- A sequence operand fits its record (log entry 3). -/
def seqFits : Seq → Bool
  | none => true
  | some bs => countFits bs.length

/-- CONCAT's operands fit their record (log entry 3). -/
def concatFits : ConcatArgs → Bool
  | .bytes bs => countFits bs.length
  | .seqs ss => countFits ss.length && ss.all seqFits

/-- FILE.ENCODE's pixel sequence fits its record (log entry 3). -/
def pixelsFit : Option (List Pixel) → Bool
  | none => true
  | some ps => countFits ps.length

/-- The instruction has an encoding. -/
def Instr.wellFormed : Instr → Bool
  | .index _ => true
  | .diff dr dg db => diffRange dr dg db
  | .luma dg drDg dbDg => lumaRange dg drDg dbDg
  | .run n => decide (1 ≤ n) && decide (n ≤ 62)
  | .rgb _ _ _ => true
  | .rgba _ _ _ _ => true
  | .header _ _ _ _ _ => true
  | .endMarker _ => true
  | .runExtend => true
  | .runFlushFull => true
  | .runFlushPending => true
  | .emitIndex _ => true
  | .cacheUpdate _ => true
  | .emitDiff dr dg db => diffRange dr dg db
  | .emitLuma dr dg db => lumaRange dg (dr - dg) (db - dg)
  | .emitRgb _ _ _ => true
  | .emitRgba _ => true
  | .prevAdvance _ => true
  | .finalFlush => true
  | .utilEq a b => seqFits a && seqFits b
  | .utilBe32Unpack s => seqFits s
  | .utilBe32Pack _ => true
  | .utilConcat args => concatFits args
  | .utilExtract input start length => seqFits input && intFits start && intFits length
  | .utilPartition input sizes => seqFits input && countFits sizes.length && sizes.all intFits
  | .hash _ => true
  | .encRgb _ => true
  | .encRgba _ => true
  | .encIndex _ => true
  | .encDiff _ _ _ => true
  | .encLuma _ _ _ => true
  | .encRun _ => true
  | .decRgb _ payload => seqFits payload
  | .decRgba payload => seqFits payload
  | .decDiff _ _ => true
  | .decLuma _ bytes => seqFits bytes
  | .decRun _ _ pos => countFits pos
  | .encStart => true
  | .encPixel _ => true
  | .encEnd => true
  | .decStart bytes _ _ => seqFits bytes
  | .decStep => true
  | .decFinish => true
  | .hdrBuild => true
  | .hdrParse h => seqFits h
  | .fileEncode _ _ _ _ pixels => pixelsFit pixels
  | .fileDecode file => seqFits file
  | .unassigned _ => true

end Sys2Proof
end

