-- ==== Sys2Proof/Decode.lean ====
section
/-! DEFINITION. Decode.lean: from bytes to instructions and back. The opcode table has several spaces of
encodings that overlap as numbers (its column "space"), so a decoder is told which space it reads:
the chunk byte code of `dec.in`, the records of the command port, the two file records, and the
model's labels for encoder actions. -/

namespace Sys2Proof

/-! ### Byte order and bit fields -/

/-- The `width` bits of `b` that start at bit `lo`, as an unsigned number (00_scope.md R6). -/
def field (b : Byte) (lo width : Nat) : Nat := b.toNat / 2 ^ lo % 2 ^ width

/-- The low `8·k` bits of `x` as `k` bytes, most significant first (20_memory.md R51). -/
def natBE : Nat → Nat → List Byte
  | 0, _ => []
  | k + 1, x => BitVec.ofNat 8 (x / 256 ^ k) :: natBE k x

/-- The number a big-endian byte sequence holds (20_memory.md R51). -/
def beNat (bs : List Byte) : Nat := bs.foldl (fun acc b => acc * 256 + b.toNat) 0

/-- `fromUint32BE` (40_byte_utilities.md R112). -/
def fromUint32BE (x : Word) : List Byte := natBE 4 x.toNat

/-- `toUint32BE` on a sequence already known to hold 4 bytes (40_byte_utilities.md R111). -/
def toUint32BE (bs : List Byte) : Word := BitVec.ofNat 32 (beNat bs)

/-- A pixel as four bytes of a flat pixel buffer: alpha, red, green, blue (00_scope.md R7, 20_memory.md R53). -/
def Pixel.flat (p : Pixel) : List Byte := [p.a, p.r, p.g, p.b]

/-! ### The chunk formats -/

/-- The chunk byte code, as DEC reads it: the first six constructors of `Instr`. -/
inductive Chunk where
  | index (slot : BitVec 6)
  | diff (dr dg db : Int)
  | luma (dg drDg dbDg : Int)
  | run (length : Nat)
  | rgb (r g b : Byte)
  | rgba (r g b a : Byte)
  deriving DecidableEq, Repr

/-- The instruction a chunk is. -/
def Chunk.toInstr : Chunk → Instr
  | .index slot => .index slot
  | .diff dr dg db => .diff dr dg db
  | .luma dg drDg dbDg => .luma dg drDg dbDg
  | .run length => .run length
  | .rgb r g b => .rgb r g b
  | .rgba r g b a => .rgba r g b a

/-- How many pixels a chunk produces (30_encoding.md R89). -/
def Chunk.pixels : Chunk → Nat
  | .run length => length
  | _ => 1

/-- How many bytes a chunk has (30_encoding.md R89). -/
def Chunk.size : Chunk → Nat
  | .luma _ _ _ => 2
  | .rgb _ _ _ => 4
  | .rgba _ _ _ _ => 5
  | _ => 1

/-- Why a byte sequence is no instruction. -/
inductive DecodeError where
  /-- The bytes end before the instruction does. -/
  | truncated
  /-- Bytes follow the instruction in a record that holds one instruction. -/
  | trailing
  /-- A `present` byte that is neither 0 nor 1. -/
  | badPresent
  /-- A command byte above `0x1F`: a command code has 5 bits (R95). -/
  | badCommand
  /-- A variant byte of UTIL.CONCAT that is neither 0 nor 1. -/
  | badVariant
  /-- An action label above 10, or an action whose operand chunk is of another type. -/
  | badAction
  deriving DecidableEq, Repr

/-- The chunk length the lead byte gives (30_encoding.md R89). -/
def chunkLength (b : Byte) : Nat :=
  if b = 0xFE then 4 else if b = 0xFF then 5 else if field b 6 2 = 2 then 2 else 1

/-- How many pixels the chunk with this lead byte produces (30_encoding.md R89). -/
def chunkPixels (b : Byte) : Nat :=
  if b = 0xFE then 1 else if b = 0xFF then 1 else if field b 6 2 = 3 then field b 0 6 + 1 else 1

/-- Reads one chunk: total on the lead byte, the 8-bit tags before the 2-bit tags
(30_encoding.md R80 to R90). -/
def decodeChunk : List Byte → Except DecodeError (Chunk × List Byte)
  | [] => .error .truncated
  | b :: rest =>
    if b = 0xFE then
      match rest with
      | r :: g :: bl :: rest => .ok (.rgb r g bl, rest)
      | _ => .error .truncated
    else if b = 0xFF then
      match rest with
      | r :: g :: bl :: a :: rest => .ok (.rgba r g bl a, rest)
      | _ => .error .truncated
    else if field b 6 2 = 0 then .ok (.index (BitVec.ofNat 6 (field b 0 6)), rest)
    else if field b 6 2 = 1 then
      .ok (.diff ((field b 4 2 : Int) - 2) ((field b 2 2 : Int) - 2) ((field b 0 2 : Int) - 2), rest)
    else if field b 6 2 = 2 then
      match rest with
      | c :: rest =>
        .ok (.luma ((field b 0 6 : Int) - 32) ((field c 4 4 : Int) - 8) ((field c 0 4 : Int) - 8), rest)
      | [] => .error .truncated
    else .ok (.run (field b 0 6 + 1), rest)

/-- The byte of an Index chunk (30_encoding.md R81, R93). -/
def indexBytes (slot : BitVec 6) : List Byte := [BitVec.ofNat 8 slot.toNat]

/-- The byte of a Diff chunk (30_encoding.md R82, R93). -/
def diffBytes (dr dg db : Int) : List Byte :=
  [BitVec.ofNat 8 (0x40 + 16 * (dr + 2).toNat + 4 * (dg + 2).toNat + (db + 2).toNat)]

/-- The bytes of a Luma chunk (30_encoding.md R83, R93). -/
def lumaBytes (dg drDg dbDg : Int) : List Byte :=
  [BitVec.ofNat 8 (0x80 + (dg + 32).toNat), BitVec.ofNat 8 (16 * (drDg + 8).toNat + (dbDg + 8).toNat)]

/-- The byte of a Run chunk (30_encoding.md R84, R93). -/
def runBytes (length : Nat) : List Byte := [BitVec.ofNat 8 (0xC0 + (length - 1))]

/-- The bytes of an RGB chunk (30_encoding.md R85). -/
def rgbBytes (r g b : Byte) : List Byte := [0xFE, r, g, b]

/-- The bytes of an RGBA chunk (30_encoding.md R86). -/
def rgbaBytes (r g b a : Byte) : List Byte := [0xFF, r, g, b, a]

/-- The bytes of a chunk. -/
def Chunk.bytes : Chunk → List Byte
  | .index slot => indexBytes slot
  | .diff dr dg db => diffBytes dr dg db
  | .luma dg drDg dbDg => lumaBytes dg drDg dbDg
  | .run length => runBytes length
  | .rgb r g b => rgbBytes r g b
  | .rgba r g b a => rgbaBytes r g b a

/-! ### Reading the operands of a port record (log entry 3) -/

/-- A reader of one operand: the operand and the bytes after it. -/
abbrev Reader (α : Type) := List Byte → Except DecodeError (α × List Byte)

/-- One byte. -/
def readByte : Reader Byte
  | b :: rest => .ok (b, rest)
  | [] => .error .truncated

/-- `n` bytes. -/
def readBytes (n : Nat) : Reader (List Byte) := fun bs =>
  if n ≤ bs.length then .ok (bs.take n, bs.drop n) else .error .truncated

/-- A natural number in 8 bytes, big-endian. -/
def readNat : Reader Nat := fun bs => do
  let (n, bs) ← readBytes 8 bs
  .ok (beNat n, bs)

/-- An integer in 8 bytes, two's complement, big-endian. -/
def readInt : Reader Int := fun bs => do
  let (n, bs) ← readNat bs
  .ok (if n < 2 ^ 63 then (n : Int) else (n : Int) - 2 ^ 64, bs)

/-- A 32-bit pattern, big-endian. -/
def readWord : Reader Word := fun bs => do
  let (w, bs) ← readBytes 4 bs
  .ok (toUint32BE w, bs)

/-- A pixel in flat order a, r, g, b. -/
def readPixel : Reader Pixel
  | a :: r :: g :: b :: rest => .ok (⟨r, g, b, a⟩, rest)
  | _ => .error .truncated

/-- An operand with a `present` byte before it: 0 absent, 1 present. -/
def readOpt {α : Type} (p : Reader α) : Reader (Option α)
  | [] => .error .truncated
  | b :: rest =>
    if b = 0 then .ok (none, rest)
    else if b = 1 then
      match p rest with
      | .ok (x, rest) => .ok (some x, rest)
      | .error e => .error e
    else .error .badPresent

/-- `n` operands one after another. -/
def readMany {α : Type} (p : Reader α) : Nat → Reader (List α)
  | 0, bs => .ok ([], bs)
  | n + 1, bs => do
    let (x, bs) ← p bs
    let (xs, bs) ← readMany p n bs
    .ok (x :: xs, bs)

/-- A list of operands, its count first. -/
def readList {α : Type} (p : Reader α) : Reader (List α) := fun bs => do
  let (n, bs) ← readNat bs
  readMany p n bs

/-- A byte sequence, its length first. -/
def readRun : Reader (List Byte) := fun bs => do
  let (n, bs) ← readNat bs
  readBytes n bs

/-- A sequence operand with its `present` byte. -/
def readSeq : Reader Seq := readOpt readRun

/-- CONCAT's operands: a variant byte, 0 for bytes and 1 for sequences, then the list. -/
def readConcat : Reader ConcatArgs
  | [] => .error .truncated
  | v :: rest =>
    if v = 0 then do
      let (bs, rest) ← readRun rest
      .ok (.bytes bs, rest)
    else if v = 1 then do
      let (ss, rest) ← readList readSeq rest
      .ok (.seqs ss, rest)
    else .error .badVariant

/-! ### The decoders of the spaces -/

/-- A command: its code (30_encoding.md R95), then its operands in the order of its rule. -/
def decodeCommand : List Byte → Except DecodeError (Instr × List Byte)
  | [] => .error .truncated
  | cmd :: bs =>
    match cmd.toNat with
    | 0x00 => do
      let (a, bs) ← readSeq bs
      let (b, bs) ← readSeq bs
      .ok (.utilEq a b, bs)
    | 0x01 => do
      let (s, bs) ← readSeq bs
      .ok (.utilBe32Unpack s, bs)
    | 0x02 => do
      let (x, bs) ← readWord bs
      .ok (.utilBe32Pack x, bs)
    | 0x03 => do
      let (args, bs) ← readConcat bs
      .ok (.utilConcat args, bs)
    | 0x04 => do
      let (input, bs) ← readSeq bs
      let (start, bs) ← readInt bs
      let (length, bs) ← readInt bs
      .ok (.utilExtract input start length, bs)
    | 0x05 => do
      let (input, bs) ← readSeq bs
      let (sizes, bs) ← readList readInt bs
      .ok (.utilPartition input sizes, bs)
    | 0x06 => do
      let (px, bs) ← readPixel bs
      .ok (.hash px, bs)
    | 0x07 => do
      let (px, bs) ← readOpt readPixel bs
      .ok (.encRgb px, bs)
    | 0x08 => do
      let (px, bs) ← readOpt readPixel bs
      .ok (.encRgba px, bs)
    | 0x09 => do
      let (slot, bs) ← readByte bs
      .ok (.encIndex slot, bs)
    | 0x0A => do
      let (dr, bs) ← readByte bs
      let (dg, bs) ← readByte bs
      let (db, bs) ← readByte bs
      .ok (.encDiff dr dg db, bs)
    | 0x0B => do
      let (dr, bs) ← readByte bs
      let (dg, bs) ← readByte bs
      let (db, bs) ← readByte bs
      .ok (.encLuma dr dg db, bs)
    | 0x0C => do
      let (count, bs) ← readByte bs
      .ok (.encRun count, bs)
    | 0x0D => do
      let (prev, bs) ← readOpt readPixel bs
      let (payload, bs) ← readSeq bs
      .ok (.decRgb prev payload, bs)
    | 0x0E => do
      let (payload, bs) ← readSeq bs
      .ok (.decRgba payload, bs)
    | 0x0F => do
      let (prev, bs) ← readOpt readPixel bs
      let (b, bs) ← readByte bs
      .ok (.decDiff prev b, bs)
    | 0x10 => do
      let (prev, bs) ← readOpt readPixel bs
      let (bytes, bs) ← readSeq bs
      .ok (.decLuma prev bytes, bs)
    | 0x11 => do
      let (prev, bs) ← readOpt readPixel bs
      let (b, bs) ← readByte bs
      let (pos, bs) ← readNat bs
      .ok (.decRun prev b pos, bs)
    | 0x12 => .ok (.encStart, bs)
    | 0x13 => do
      let (px, bs) ← readPixel bs
      .ok (.encPixel px, bs)
    | 0x14 => .ok (.encEnd, bs)
    | 0x15 => do
      let (bytes, bs) ← readSeq bs
      let (width, bs) ← readWord bs
      let (height, bs) ← readWord bs
      .ok (.decStart bytes width height, bs)
    | 0x16 => .ok (.decStep, bs)
    | 0x17 => .ok (.decFinish, bs)
    | 0x18 => .ok (.hdrBuild, bs)
    | 0x19 => do
      let (h, bs) ← readSeq bs
      .ok (.hdrParse h, bs)
    | 0x1A => do
      let (width, bs) ← readWord bs
      let (height, bs) ← readWord bs
      let (channels, bs) ← readByte bs
      let (colorspace, bs) ← readByte bs
      let (pixels, bs) ← readOpt (readList readPixel) bs
      .ok (.fileEncode width height channels colorspace pixels, bs)
    | 0x1B => do
      let (file, bs) ← readSeq bs
      .ok (.fileDecode file, bs)
    | 0x1C => .ok (.unassigned 0, bs)
    | 0x1D => .ok (.unassigned 1, bs)
    | 0x1E => .ok (.unassigned 2, bs)
    | 0x1F => .ok (.unassigned 3, bs)
    | _ => .error .badCommand

/-- The HEADER record: 14 bytes (30_encoding.md R87). -/
def decodeHeader : List Byte → Except DecodeError (Instr × List Byte)
  | m0 :: m1 :: m2 :: m3 :: w0 :: w1 :: w2 :: w3 :: h0 :: h1 :: h2 :: h3 :: channels :: colorspace :: rest =>
    .ok (.header #v[m0, m1, m2, m3] (toUint32BE [w0, w1, w2, w3]) (toUint32BE [h0, h1, h2, h3])
      channels colorspace, rest)
  | _ => .error .truncated

/-- The END_MARKER record: 8 bytes (30_encoding.md R88). -/
def decodeEndMarker : List Byte → Except DecodeError (Instr × List Byte)
  | b0 :: b1 :: b2 :: b3 :: b4 :: b5 :: b6 :: b7 :: rest =>
    .ok (.endMarker #v[b0, b1, b2, b3, b4, b5, b6, b7], rest)
  | _ => .error .truncated

/-- An encoder action: a label of the model's own, the action's place among the table's eleven
action rows, then the chunk it emits or the pixel it takes (log entry 11). -/
def decodeAction : List Byte → Except DecodeError (Instr × List Byte)
  | [] => .error .truncated
  | label :: bs =>
    match label.toNat with
    | 0 => .ok (.runExtend, bs)
    | 1 => .ok (.runFlushFull, bs)
    | 2 => .ok (.runFlushPending, bs)
    | 3 =>
      match decodeChunk bs with
      | .ok (.index slot, bs) => .ok (.emitIndex slot, bs)
      | .ok _ => .error .badAction
      | .error e => .error e
    | 4 => do
      let (px, bs) ← readPixel bs
      .ok (.cacheUpdate px, bs)
    | 5 =>
      match decodeChunk bs with
      | .ok (.diff dr dg db, bs) => .ok (.emitDiff dr dg db, bs)
      | .ok _ => .error .badAction
      | .error e => .error e
    | 6 =>
      match decodeChunk bs with
      | .ok (.luma dg drDg dbDg, bs) => .ok (.emitLuma (drDg + dg) dg (dbDg + dg), bs)
      | .ok _ => .error .badAction
      | .error e => .error e
    | 7 =>
      match decodeChunk bs with
      | .ok (.rgb r g b, bs) => .ok (.emitRgb r g b, bs)
      | .ok _ => .error .badAction
      | .error e => .error e
    | 8 =>
      match decodeChunk bs with
      | .ok (.rgba r g b a, bs) => .ok (.emitRgba ⟨r, g, b, a⟩, bs)
      | .ok _ => .error .badAction
      | .error e => .error e
    | 9 => do
      let (px, bs) ← readPixel bs
      .ok (.prevAdvance px, bs)
    | 10 => .ok (.finalFlush, bs)
    | _ => .error .badAction

/-- The spaces of the opcode table (its column "space"). -/
inductive Space where
  /-- The byte code of `dec.in`. -/
  | chunk
  /-- The record at file offset 0. -/
  | fileHead
  /-- The last 8 bytes of a file. -/
  | fileTail
  /-- The encoder's actions. -/
  | action
  /-- The command port. -/
  | command
  deriving DecidableEq, Repr

/-- The decoder: the instruction of the given space at the head of the bytes, and the bytes after it. -/
def decode (space : Space) (bs : List Byte) : Except DecodeError (Instr × List Byte) :=
  match space with
  | .chunk =>
    match decodeChunk bs with
    | .ok (c, rest) => .ok (c.toInstr, rest)
    | .error e => .error e
  | .fileHead => decodeHeader bs
  | .fileTail => decodeEndMarker bs
  | .action => decodeAction bs
  | .command => decodeCommand bs

/-- A record of the command port holds one command and nothing else. -/
def decodeRecord (bs : List Byte) : Except DecodeError Instr :=
  match decodeCommand bs with
  | .ok (i, []) => .ok i
  | .ok _ => .error .trailing
  | .error e => .error e

/-! ### The encoder -/

/-- The 8 bytes of an integer operand, two's complement. -/
def intBytes (x : Int) : List Byte := natBE 8 (x % 2 ^ 64).toNat

/-- An operand with its `present` byte. -/
def optBytes {α : Type} (f : α → List Byte) : Option α → List Byte
  | none => [0]
  | some x => 1 :: f x

/-- A list of operands, its count first. -/
def listBytes {α : Type} (f : α → List Byte) (xs : List α) : List Byte :=
  natBE 8 xs.length ++ xs.flatMap f

/-- A byte sequence, its length first. -/
def runOfBytes (bs : List Byte) : List Byte := natBE 8 bs.length ++ bs

/-- A sequence operand with its `present` byte. -/
def seqBytes : Seq → List Byte := optBytes runOfBytes

/-- CONCAT's operands. -/
def concatBytes : ConcatArgs → List Byte
  | .bytes bs => 0 :: runOfBytes bs
  | .seqs ss => 1 :: listBytes seqBytes ss

/-- The 14 bytes of a HEADER record (30_encoding.md R87). -/
def headerBytes (magic : Vector Byte 4) (width height : Word) (channels colorspace : Byte) : List Byte :=
  magic.toList ++ fromUint32BE width ++ fromUint32BE height ++ [channels] ++ [colorspace]

/-- The space an instruction's encoding lives in. -/
def Instr.space : Instr → Space
  | .index _ | .diff _ _ _ | .luma _ _ _ | .run _ | .rgb _ _ _ | .rgba _ _ _ _ => .chunk
  | .header _ _ _ _ _ => .fileHead
  | .endMarker _ => .fileTail
  | .runExtend | .runFlushFull | .runFlushPending | .emitIndex _ | .cacheUpdate _ | .emitDiff _ _ _
  | .emitLuma _ _ _ | .emitRgb _ _ _ | .emitRgba _ | .prevAdvance _ | .finalFlush => .action
  | .utilEq _ _ | .utilBe32Unpack _ | .utilBe32Pack _ | .utilConcat _ | .utilExtract _ _ _
  | .utilPartition _ _ | .hash _ | .encRgb _ | .encRgba _ | .encIndex _ | .encDiff _ _ _
  | .encLuma _ _ _ | .encRun _ | .decRgb _ _ | .decRgba _ | .decDiff _ _ | .decLuma _ _
  | .decRun _ _ _ | .encStart | .encPixel _ | .encEnd | .decStart _ _ _ | .decStep | .decFinish
  | .hdrBuild | .hdrParse _ | .fileEncode _ _ _ _ _ | .fileDecode _ | .unassigned _ => .command

/-- The 5-bit code of a command (30_encoding.md R95); the four unassigned codes have none. -/
def Instr.cmd : Instr → Option (BitVec 5)
  | .utilEq _ _ => some 0x00
  | .utilBe32Unpack _ => some 0x01
  | .utilBe32Pack _ => some 0x02
  | .utilConcat _ => some 0x03
  | .utilExtract _ _ _ => some 0x04
  | .utilPartition _ _ => some 0x05
  | .hash _ => some 0x06
  | .encRgb _ => some 0x07
  | .encRgba _ => some 0x08
  | .encIndex _ => some 0x09
  | .encDiff _ _ _ => some 0x0A
  | .encLuma _ _ _ => some 0x0B
  | .encRun _ => some 0x0C
  | .decRgb _ _ => some 0x0D
  | .decRgba _ => some 0x0E
  | .decDiff _ _ => some 0x0F
  | .decLuma _ _ => some 0x10
  | .decRun _ _ _ => some 0x11
  | .encStart => some 0x12
  | .encPixel _ => some 0x13
  | .encEnd => some 0x14
  | .decStart _ _ _ => some 0x15
  | .decStep => some 0x16
  | .decFinish => some 0x17
  | .hdrBuild => some 0x18
  | .hdrParse _ => some 0x19
  | .fileEncode _ _ _ _ _ => some 0x1A
  | .fileDecode _ => some 0x1B
  | _ => none

/-- The bytes of an instruction in its space: the formats of 30_encoding.md for chunks and file
records, the codes of R95 and the model's operand records for commands (log entry 3), the model's
labels for actions (log entry 11). -/
def encode : Instr → List Byte
  | .index slot => indexBytes slot
  | .diff dr dg db => diffBytes dr dg db
  | .luma dg drDg dbDg => lumaBytes dg drDg dbDg
  | .run length => runBytes length
  | .rgb r g b => rgbBytes r g b
  | .rgba r g b a => rgbaBytes r g b a
  | .header magic width height channels colorspace => headerBytes magic width height channels colorspace
  | .endMarker bytes => bytes.toList
  | .runExtend => [0]
  | .runFlushFull => [1]
  | .runFlushPending => [2]
  | .emitIndex slot => 3 :: indexBytes slot
  | .cacheUpdate px => 4 :: px.flat
  | .emitDiff dr dg db => 5 :: diffBytes dr dg db
  | .emitLuma dr dg db => 6 :: lumaBytes dg (dr - dg) (db - dg)
  | .emitRgb r g b => 7 :: rgbBytes r g b
  | .emitRgba px => 8 :: rgbaBytes px.r px.g px.b px.a
  | .prevAdvance px => 9 :: px.flat
  | .finalFlush => [10]
  | .utilEq a b => 0x00 :: (seqBytes a ++ seqBytes b)
  | .utilBe32Unpack s => 0x01 :: seqBytes s
  | .utilBe32Pack x => 0x02 :: fromUint32BE x
  | .utilConcat args => 0x03 :: concatBytes args
  | .utilExtract input start length => 0x04 :: (seqBytes input ++ intBytes start ++ intBytes length)
  | .utilPartition input sizes => 0x05 :: (seqBytes input ++ listBytes intBytes sizes)
  | .hash px => 0x06 :: px.flat
  | .encRgb px => 0x07 :: optBytes Pixel.flat px
  | .encRgba px => 0x08 :: optBytes Pixel.flat px
  | .encIndex slot => [0x09, slot]
  | .encDiff dr dg db => [0x0A, dr, dg, db]
  | .encLuma dr dg db => [0x0B, dr, dg, db]
  | .encRun count => [0x0C, count]
  | .decRgb prev payload => 0x0D :: (optBytes Pixel.flat prev ++ seqBytes payload)
  | .decRgba payload => 0x0E :: seqBytes payload
  | .decDiff prev b => 0x0F :: (optBytes Pixel.flat prev ++ [b])
  | .decLuma prev bytes => 0x10 :: (optBytes Pixel.flat prev ++ seqBytes bytes)
  | .decRun prev b pos => 0x11 :: (optBytes Pixel.flat prev ++ [b] ++ natBE 8 pos)
  | .encStart => [0x12]
  | .encPixel px => 0x13 :: px.flat
  | .encEnd => [0x14]
  | .decStart bytes width height => 0x15 :: (seqBytes bytes ++ fromUint32BE width ++ fromUint32BE height)
  | .decStep => [0x16]
  | .decFinish => [0x17]
  | .hdrBuild => [0x18]
  | .hdrParse h => 0x19 :: seqBytes h
  | .fileEncode width height channels colorspace pixels =>
    0x1A :: (fromUint32BE width ++ fromUint32BE height ++ [channels, colorspace]
      ++ optBytes (listBytes Pixel.flat) pixels)
  | .fileDecode file => 0x1B :: seqBytes file
  | .unassigned code => [BitVec.ofNat 8 (0x1C + code.toNat)]

/-! ### Words of the opcode table -/

/-- The space that `decodeTableWord` reads a table word in. The table's spaces overlap as numbers, and
a word carries no space: one byte below `0x20` is a command code, any other byte is a chunk's lead
byte; the wider rows are EMIT_LUMA (16 bits), EMIT_RGB (32), EMIT_RGBA (40), END_MARKER (64) and
HEADER (112) (DESIGN CHOICE, log entry 20). -/
def tableSpace (nbits w : Nat) : Space :=
  if nbits ≤ 8 then (if w % 256 < 0x20 then .command else .chunk)
  else if nbits = 64 then .fileTail
  else if nbits = 112 then .fileHead
  else .action

/-- The bytes of a table word as the hardware stores them, followed by operand bytes of zeros: a row
wider than one byte is one number whose most significant byte is first, as the table numbers
EMIT_LUMA and EMIT_RGB; an action word gets the label of its row. -/
def tableBytes (nbits w : Nat) : List Byte :=
  let label : List Byte :=
    if nbits = 16 then [6] else if nbits = 32 then [7] else if nbits = 40 then [8] else []
  label ++ natBE ((nbits + 7) / 8) w ++ List.replicate 64 0

/-- The instruction the decoder reads from a word of the opcode table. -/
def decodeTableWord (nbits w : Nat) : Option Instr :=
  match decode (tableSpace nbits w) (tableBytes nbits w) with
  | .ok (i, _) => some i
  | .error _ => none

end Sys2Proof
end

