-- ==== Sys2Proof/Machine/State.lean ====
section
/-! DEFINITION. Machine/State.lean: everything the spec gives the block to hold (10_state.md), as plain
data, with the parameters and the command port beside it. -/

namespace Sys2Proof.Machine

/-- A unit's mode (10_state.md R24, R32). -/
inductive Mode where
  /-- No call in progress. -/
  | idle
  /-- Between START and END or FINISH. -/
  | active
  /-- The call is complete and its output is a result. -/
  | done
  /-- The call failed; sticky until the next START (60_exceptions.md R254). -/
  | fault
  deriving DecidableEq, Repr

/-- The cause codes of 60_exceptions.md R251, in their order; `Cause.code` gives the numbers. -/
inductive Cause where
  | none
  | badMagic
  | badChannels
  | badColorspace
  | badHeaderLen
  | badEndMarker
  | truncatedChunk
  | pixelOverflow
  | pixelUnderflow
  | badTag
  | paramRange
  | badLength
  | sliceRange
  | partitionSum
  | nullOperand
  | lenMismatch
  | protocol
  | dimMismatchEnc
  deriving DecidableEq, Repr

/-- The units that hold a cause register (10_state.md R36); `util` stands for the stateless units UTIL,
HASH, CODEC and FRAME together (log entry 7). -/
inductive UnitId where
  | enc
  | dec
  | util
  deriving DecidableEq, Repr

/-- The 64-slot color cache: one pixel a slot, no tag, no valid bit (10_state.md R22, 20_memory.md R59). -/
abbrev Cache := Vector Pixel 64

/-- The cache START leaves: every slot `ZERO` (10_state.md R22, R28). -/
def Cache.clear : Cache := Vector.replicate 64 Pixel.zero

/-- A byte-addressed buffer: (address, byte) cells. An address that is not listed holds NO value
(10_state.md R34); so no listed entry equals what an unlisted address reads as, and the canonical form
is that the addresses strictly rise. -/
abbrev Memory := List Host.Cell

/-- The canonical form of a buffer: addresses strictly rising. -/
def Memory.wf (m : Memory) : Bool := decide (m.Pairwise (fun c d => c.1 < d.1))

/-- The encoder's registers (10_state.md R21 to R26, R36). -/
structure Enc where
  prev : Pixel
  cache : Cache
  /-- The pending run's length; between steps at most 61 (R23). -/
  run : Nat
  mode : Mode
  /-- Pixels consumed since ENC.START (R25). -/
  pi : Nat
  /-- The chunk stream so far (R26). -/
  out : List Byte
  cause : Cause
  deriving DecidableEq, Repr

/-- The decoder's registers (10_state.md R27 to R34, R36). -/
structure Dec where
  prev : Pixel
  cache : Cache
  /-- The program counter: the index in `input` of the next chunk's lead byte (R29). -/
  ip : Nat
  /-- Pixels written so far (R30). -/
  op : Nat
  /-- Pixels the call must produce (R31). -/
  npix : Nat
  mode : Mode
  /-- `dec.in`, the chunk stream to decode (R33). -/
  input : List Byte
  /-- `dec.out`, four bytes a pixel in the order a, r, g, b (R34, 20_memory.md R53). -/
  out : Memory
  cause : Cause
  deriving DecidableEq, Repr

/-- The header registers (10_state.md R35). -/
structure Hdr where
  width : Word
  height : Word
  channels : Byte
  colorspace : Byte
  deriving DecidableEq, Repr

/-- What the last command answered the host: the "outputs" of 00_scope.md R14 (log entry 10). -/
inductive Response where
  /-- No command has run yet. -/
  | empty
  /-- The command completed and has no result value. -/
  | done
  /-- UTIL.EQ. -/
  | bool (b : Bool)
  /-- UTIL.BE32_UNPACK. -/
  | word (x : Word)
  /-- A byte sequence: UTIL.BE32_PACK, CONCAT, EXTRACT, the chunk encoders, HDR.BUILD, FILE.ENCODE, and
  the chunk stream at ENC.END. -/
  | bytes (bs : List Byte)
  /-- UTIL.PARTITION. -/
  | pieces (ps : List (List Byte))
  /-- HASH. -/
  | slot (h : BitVec 6)
  /-- The one-pixel chunk decoders. -/
  | pixel (p : Pixel)
  /-- CODEC.DEC_RUN: the pixels and the position they are to be written at. -/
  | placed (pos : Nat) (ps : List Pixel)
  /-- HDR.PARSE. -/
  | header (h : Hdr)
  /-- The pixel buffer at DEC.FINISH. -/
  | buffer (out : Memory)
  /-- FILE.DECODE: the pixel buffer with width, height, channels and color space. -/
  | image (out : Memory) (h : Hdr)
  /-- The command faulted with this cause. -/
  | fault (c : Cause)
  deriving DecidableEq, Repr

/-- What the host puts on the block (10_state.md R35, 30_encoding.md R95; log entry 5). -/
inductive HostInput where
  /-- A command record: the code and its operands (log entry 3). -/
  | command (record : List Byte)
  /-- A host write of `hdr.width` (R35: "all read-write by the host"). -/
  | writeWidth (width : Word)
  /-- A host write of `hdr.height` (R35). -/
  | writeHeight (height : Word)
  /-- A host write of `hdr.channels` (R35). -/
  | writeChannels (channels : Byte)
  /-- A host write of `hdr.colorspace` (R35). -/
  | writeColorspace (colorspace : Byte)
  deriving DecidableEq, Repr

/-- Why the machine stops. No instruction raises one: a fault of the spec is a next state in which the
fault entry of 60_exceptions.md R254 has happened (log entry 6). -/
inductive Fault where
  /-- Raised by the host's read of `dec.out` (Machine/Observe.lean) at a position the buffer does not
  have, at or beyond `dec.npix` (20_memory.md R60). Safe: nothing is read. -/
  | outsideBuffer
  deriving DecidableEq, Repr

/-- What the model gives no meaning. -/
inductive Refusal where
  /-- Raised by an arm of `exec` whose instruction has no meaning yet; no arm does. Safe. -/
  | notModelled (mnemonic : String)
  /-- Raised by `exec` on the codes `0x1C..0x1F` (60_exceptions.md R263: "The model gives it no meaning
  and no next state"). Safe. -/
  | unassignedCommand (code : BitVec 2)
  /-- Raised by `step` on a port record that is no command (log entry 22). Safe. -/
  | undecodable (e : DecodeError)
  /-- Raised by `step` on a command with a byte sequence or a pixel sequence longer than `MAX_LEN` among
  its operands (20_memory.md R67, 93_implementation_defined.md U6: "operands longer than it are
  `refuse`d"). Safe. -/
  | operandTooLong
  /-- Raised by `step` where a command would put a byte sequence longer than `MAX_LEN` on an output port,
  as its answer or as `enc.out` (20_memory.md R60, R67, 40_byte_utilities.md R114; log entry 4). Safe. -/
  | resultTooLong
  /-- Raised by the host's read of `enc.out` or `dec.out` outside mode DONE (70_reset_and_hazards.md R289,
  93_implementation_defined.md U10). Safe. -/
  | noResult
  /-- Raised by the host's read of a position of `dec.out` that was never written (10_state.md R34,
  93_implementation_defined.md U9). Safe. -/
  | unwrittenPosition
  deriving DecidableEq, Repr

/-- The state of the machine. -/
structure State where
  /-- The parameters; no step writes them (log entry 1). -/
  cfg : Config
  enc : Enc
  dec : Dec
  hdr : Hdr
  /-- `util.cause`, the cause register of the stateless units (10_state.md R36). -/
  utilCause : Cause
  response : Response
  /-- Host inputs not yet taken, the oldest first (log entry 5). -/
  port : List HostInput
  deriving DecidableEq, Repr

/-- The machine at power-on (10_state.md R40): both modes IDLE, all causes NONE, `dec.out` without a
value, nothing on the port. Every other register is unspecified there; log entry 9 names its value. -/
def State.reset : State where
  cfg := Config.default
  enc := { prev := Config.default.prevInit, cache := Cache.clear, run := 0, mode := .idle, pi := 0
           out := [], cause := .none }
  dec := { prev := Config.default.prevInit, cache := Cache.clear, ip := 0, op := 0, npix := 0
           mode := .idle, input := [], out := [], cause := .none }
  hdr := { width := 0, height := 0, channels := 0, colorspace := 0 }
  utilCause := .none
  response := .empty
  port := []

end Sys2Proof.Machine
end

