-- ==== Sys2Proof/Machine/Operands.lean ====
section
/-! DEFINITION. Machine/Operands.lean: channel arithmetic, the hash, the pixels that chunks stand for, and
the preconditions of the chunk encoders: pure functions of operand values. -/

namespace Sys2Proof.Machine

/-- The number of a cause (60_exceptions.md R251; 10_state.md R36: 5 bits). -/
def Cause.code : Cause → BitVec 5
  | .none => 0
  | .badMagic => 1
  | .badChannels => 2
  | .badColorspace => 3
  | .badHeaderLen => 4
  | .badEndMarker => 5
  | .truncatedChunk => 6
  | .pixelOverflow => 7
  | .pixelUnderflow => 8
  | .badTag => 9
  | .paramRange => 10
  | .badLength => 11
  | .sliceRange => 12
  | .partitionSum => 13
  | .nullOperand => 14
  | .lenMismatch => 15
  | .protocol => 16
  | .dimMismatchEnc => 17

/-- `add8(x, d)`: 8-bit wrapping addition of any integer (00_scope.md R8). -/
def add8 (x : Byte) (d : Int) : Byte := BitVec.ofInt 8 ((x.toNat : Int) + d)

/-- `sub8(x, y)`: 8-bit wrapping subtraction (00_scope.md R8). -/
def sub8 (x y : Byte) : Byte := x - y

/-- `s8(u)`: the signed reading of a byte (00_scope.md R9). -/
def s8 (u : Byte) : Int := if u.toNat < 128 then u.toNat else (u.toNat : Int) - 256

/-- The delta of one channel, `s8(sub8(cur, prev))` (00_scope.md R9). -/
def delta (cur prev : Byte) : Int := s8 (sub8 cur prev)

/-- HASH: `(3r + 5g + 7b + 11a) mod 64` on unsigned channels (41_hash_and_cache.md R130). -/
def hash (p : Pixel) : BitVec 6 :=
  BitVec.ofNat 6 (3 * p.r.toNat + 5 * p.g.toNat + 7 * p.b.toNat + 11 * p.a.toNat)

/-- The pixel of a Diff chunk: three independent deltas, alpha carried over (42_chunk_codecs.md R148, R154). -/
def diffPixel (prev : Pixel) (dr dg db : Int) : Pixel :=
  ⟨add8 prev.r dr, add8 prev.g dg, add8 prev.b db, prev.a⟩

/-- The pixel of a Luma chunk (42_chunk_codecs.md R149, R154). -/
def lumaPixel (prev : Pixel) (dg drDg dbDg : Int) : Pixel :=
  ⟨add8 prev.r (dg + drDg), add8 prev.g dg, add8 prev.b (dg + dbDg), prev.a⟩

/-- The pixel of an RGB chunk: alpha carried over (42_chunk_codecs.md R146). -/
def rgbPixel (prev : Pixel) (r g b : Byte) : Pixel := ⟨r, g, b, prev.a⟩

/-- `encodeIndex`, the slot as a number (42_chunk_codecs.md R142). -/
def encodeIndex (slot : Nat) : Except Cause (List Byte) :=
  if slot ≤ 63 then .ok (indexBytes (BitVec.ofNat 6 slot)) else .error .paramRange

/-- `encodeDiff` (42_chunk_codecs.md R143). -/
def encodeDiff (dr dg db : Int) : Except Cause (List Byte) :=
  if diffRange dr dg db then .ok (diffBytes dr dg db) else .error .paramRange

/-- `encodeLuma`, from the three first-order deltas (42_chunk_codecs.md R144). -/
def encodeLuma (dr dg db : Int) : Except Cause (List Byte) :=
  if lumaRange dg (dr - dg) (db - dg) then .ok (lumaBytes dg (dr - dg) (db - dg)) else .error .paramRange

/-- `encodeRun` (42_chunk_codecs.md R145). -/
def encodeRun (count : Nat) : Except Cause (List Byte) :=
  if 1 ≤ count ∧ count ≤ 62 then .ok (runBytes count) else .error .paramRange

/-- `encodeRGB`: alpha is ignored (42_chunk_codecs.md R140). -/
def encodeRGB : Option Pixel → Except Cause (List Byte)
  | none => .error .nullOperand
  | some p => .ok (rgbBytes p.r p.g p.b)

/-- `encodeRGBA` (42_chunk_codecs.md R141). -/
def encodeRGBA : Option Pixel → Except Cause (List Byte)
  | none => .error .nullOperand
  | some p => .ok (rgbaBytes p.r p.g p.b p.a)

/-- `decodeRGB`: exactly 3 payload bytes (42_chunk_codecs.md R146). -/
def decodeRGB : Option Pixel → Seq → Except Cause Pixel
  | some prev, some [r, g, b] => .ok (rgbPixel prev r g b)
  | some _, some _ => .error .badLength
  | _, _ => .error .nullOperand

/-- `decodeRGBA`: exactly 4 payload bytes (42_chunk_codecs.md R147). -/
def decodeRGBA : Seq → Except Cause Pixel
  | some [r, g, b, a] => .ok ⟨r, g, b, a⟩
  | some _ => .error .badLength
  | none => .error .nullOperand

/-- `decodeDiff` (42_chunk_codecs.md R148). -/
def decodeDiff : Option Pixel → Byte → Except Cause Pixel
  | none, _ => .error .nullOperand
  | some prev, b =>
    if field b 6 2 = 1 then
      .ok (diffPixel prev ((field b 4 2 : Int) - 2) ((field b 2 2 : Int) - 2) ((field b 0 2 : Int) - 2))
    else .error .badTag

/-- `decodeLuma`: exactly 2 bytes (42_chunk_codecs.md R149; the length before the tag, log entry 15). -/
def decodeLuma : Option Pixel → Seq → Except Cause Pixel
  | some prev, some [b0, b1] =>
    if field b0 6 2 = 2 then
      .ok (lumaPixel prev ((field b0 0 6 : Int) - 32) ((field b1 4 4 : Int) - 8) ((field b1 0 4 : Int) - 8))
    else .error .badTag
  | some _, some _ => .error .badLength
  | _, _ => .error .nullOperand

/-- `decodeRun`: the copies to be written (42_chunk_codecs.md R150). -/
def decodeRun : Option Pixel → Byte → Except Cause (List Pixel)
  | none, _ => .error .nullOperand
  | some prev, b =>
    if field b 6 2 = 3 ∧ b ≠ 0xFE ∧ b ≠ 0xFF then .ok (List.replicate (field b 0 6 + 1) prev)
    else .error .badTag

/-- `bytesEqual` (40_byte_utilities.md R110). -/
def bytesEqual : Seq → Seq → Except Cause Bool
  | some a, some b => if a.length = b.length then .ok (decide (a = b)) else .error .lenMismatch
  | _, _ => .error .nullOperand

/-- `toUint32BE` with its checks (40_byte_utilities.md R111). -/
def be32Unpack : Seq → Except Cause Word
  | none => .error .nullOperand
  | some s => if s.length = 4 then .ok (toUint32BE s) else .error .badLength

/-- The sequences of a concatenation, unless one is absent. -/
def presentAll : List Seq → Except Cause (List (List Byte))
  | [] => .ok []
  | none :: _ => .error .nullOperand
  | some s :: rest =>
    match presentAll rest with
    | .ok ss => .ok (s :: ss)
    | .error c => .error c

/-- `concat`, both variants (40_byte_utilities.md R114). The rule's bound on the result, `MAX_LEN`, is the
port's: `carry` refuses a longer one. -/
def concat : ConcatArgs → Except Cause (List Byte)
  | .bytes bs => .ok bs
  | .seqs ss =>
    match presentAll ss with
    | .ok ps => .ok ps.flatten
    | .error c => .error c

/-- `extract`; the sum does not wrap (40_byte_utilities.md R115). -/
def extract : Seq → Int → Int → Except Cause (List Byte)
  | none, _, _ => .error .nullOperand
  | some s, start, length =>
    if 0 ≤ start ∧ 0 ≤ length ∧ start + length ≤ s.length then
      .ok ((s.drop start.toNat).take length.toNat)
    else .error .sliceRange

/-- Consecutive pieces of the given sizes. -/
def splitSizes : List Nat → List Byte → List (List Byte)
  | [], _ => []
  | n :: ns, bs => bs.take n :: splitSizes ns (bs.drop n)

/-- `partition`: a negative size before the sum (40_byte_utilities.md R116). -/
def partition : Seq → List Int → Except Cause (List (List Byte))
  | none, _ => .error .nullOperand
  | some s, sizes =>
    if sizes.any (fun n => decide (n < 0)) then .error .sliceRange
    else if sizes.sum = (s.length : Int) then .ok (splitSizes (sizes.map Int.toNat) s)
    else .error .partitionSum

/-- `buildHeader` (45_framing.md R230). -/
def buildHeader (cfg : Config) (h : Hdr) : Except Cause (List Byte) :=
  if h.channels ≠ 3 ∧ h.channels ≠ 4 then .error .badChannels
  else if h.colorspace ≠ 0 ∧ h.colorspace ≠ 1 then .error .badColorspace
  else .ok (headerBytes cfg.magic h.width h.height h.channels h.colorspace)

/-- `parseHeader`: length, magic, channels, color space, in that order (45_framing.md R231). -/
def parseHeader (cfg : Config) : Seq → Except Cause Hdr
  | none => .error .nullOperand
  | some h =>
    if h.length ≠ headerLen then .error .badHeaderLen
    else if h.take 4 ≠ cfg.magic.toList then .error .badMagic
    else if h.getD 12 0 ≠ 3 ∧ h.getD 12 0 ≠ 4 then .error .badChannels
    else if h.getD 13 0 ≠ 0 ∧ h.getD 13 0 ≠ 1 then .error .badColorspace
    else .ok { width := toUint32BE ((h.drop 4).take 4), height := toUint32BE ((h.drop 8).take 4)
               channels := h.getD 12 0, colorspace := h.getD 13 0 }

/-- The end marker's check on the last 8 bytes of a file (45_framing.md R234). -/
def checkEndMarker (cfg : Config) (bs : List Byte) : Except Cause Unit :=
  if bs = cfg.endMarker.toList then .ok () else .error .badEndMarker

end Sys2Proof.Machine
end

