-- ==== Sys2Proof/Machine/Flags.lean ====
section
/-! DEFINITION. Machine/Flags.lean: the block latches no flags (10_state.md R37); this file holds the five
predicates the chunk selector evaluates inside one step. -/

namespace Sys2Proof.Machine

/-- Reads a slot: the whole pixel (20_memory.md R59, 41_hash_and_cache.md R132). -/
def Cache.read (c : Cache) (slot : BitVec 6) : Pixel := getElem c slot.toNat slot.isLt

/-- Replaces a slot's pixel (20_memory.md R59, 41_hash_and_cache.md R133, R135). -/
def Cache.write (c : Cache) (slot : BitVec 6) (p : Pixel) : Cache := c.set slot.toNat p slot.isLt

/-- `eq_prev` (10_state.md R37). -/
def eqPrev (e : Enc) (px : Pixel) : Bool := decide (px = e.prev)

/-- `hit`: the slot at `hash(px)` holds exactly px (10_state.md R37, 41_hash_and_cache.md R131). -/
def hit (e : Enc) (px : Pixel) : Bool := decide (e.cache.read (hash px) = px)

/-- `alpha_same` (10_state.md R37). -/
def alphaSame (e : Enc) (px : Pixel) : Bool := decide (px.a = e.prev.a)

/-- `diff_ok` on the deltas of px against the previous pixel (42_chunk_codecs.md R153). -/
def diffOk (e : Enc) (px : Pixel) : Bool :=
  diffRange (delta px.r e.prev.r) (delta px.g e.prev.g) (delta px.b e.prev.b)

/-- `luma_ok`; the second-order differences are plain integers (42_chunk_codecs.md R153). -/
def lumaOk (e : Enc) (px : Pixel) : Bool :=
  lumaRange (delta px.g e.prev.g) (delta px.r e.prev.r - delta px.g e.prev.g)
    (delta px.b e.prev.b - delta px.g e.prev.g)

end Sys2Proof.Machine
end

