-- ==== Sys2Proof/Machine/Ops.lean ====
section
/-! DEFINITION. Machine/Ops.lean: the named operations every meaning is built from: the output buffer,
taking a fault, START (the only return from one), a command's response, and the shells of an
encoder step and of a chunk. -/

namespace Sys2Proof.Machine

/-! ### The output buffer -/

/-- The byte at an address; none where nothing was written (10_state.md R34). -/
def Memory.read : Memory → Nat → Option Byte
  | [], _ => none
  | (x, v) :: m, addr => if x = addr then some v else Memory.read m addr

/-- Writes one byte, keeping the addresses strictly rising. -/
def Memory.write : Memory → Nat → Byte → Memory
  | [], addr, v => [(addr, v)]
  | (x, w) :: m, addr, v =>
    if addr < x then (addr, v) :: (x, w) :: m
    else if addr = x then (addr, v) :: m
    else (x, w) :: Memory.write m addr v

/-- `MemWrite(addr, n, v)`: consecutive bytes from an address (00_scope.md R13). -/
def Memory.writeBytes : Memory → Nat → List Byte → Memory
  | m, _, [] => m
  | m, addr, v :: vs => Memory.writeBytes (m.write addr v) (addr + 1) vs

/-- `PixWrite(pos, p)` (00_scope.md R13). -/
def Memory.writePixel (m : Memory) (pos : Nat) (p : Pixel) : Memory := m.writeBytes (4 * pos) p.flat

/-- `PixWrite` of n copies at pos, pos + 1, ... (44_decoder_fsm.md R209). -/
def Memory.writeCopies : Memory → Nat → Nat → Pixel → Memory
  | m, _, 0, _ => m
  | m, pos, n + 1, p => Memory.writeCopies (m.writePixel pos p) (pos + 1) n p

/-- The pixel at a position, where all four of its bytes hold a value. -/
def Memory.readPixel (m : Memory) (pos : Nat) : Option Pixel :=
  match m.read (4 * pos), m.read (4 * pos + 1), m.read (4 * pos + 2), m.read (4 * pos + 3) with
  | some a, some r, some g, some b => some ⟨r, g, b, a⟩
  | _, _, _, _ => none

/-! ### Updates of the state -/

/-- Writes ENC's registers. -/
def State.setEnc (s : State) (e : Enc) : State := { s with enc := e }

/-- Writes DEC's registers. -/
def State.setDec (s : State) (d : Dec) : State := { s with dec := d }

/-- Writes the header registers. -/
def State.setHdr (s : State) (h : Hdr) : State := { s with hdr := h }

/-- Writes `util.cause`. -/
def State.setUtilCause (s : State) (c : Cause) : State := { s with utilCause := c }

/-- Answers the host. -/
def State.respond (s : State) (r : Response) : State := { s with response := r }

/-! ### Taking a fault, and the way out of one -/

/-- FAULT ENTRY, the one place where a fault is taken (60_exceptions.md R254): none of the command's
writes happen, the unit's `cause` takes the code, ENC and DEC go to mode FAULT, and control goes
nowhere. FAULT is sticky: a later PROTOCOL fault leaves `cause` at the first fault's code. The
response tells the host (10_state.md R36; log entries 6, 7, 8). -/
def State.takeFault (s : State) (u : UnitId) (c : Cause) : State :=
  match u with
  | .enc =>
    if s.enc.mode = .fault ∧ c = .protocol then s.respond (.fault c)
    else (s.setEnc { s.enc with mode := .fault, cause := c }).respond (.fault c)
  | .dec =>
    if s.dec.mode = .fault ∧ c = .protocol then s.respond (.fault c)
    else (s.setDec { s.dec with mode := .fault, cause := c }).respond (.fault c)
  | .util => (s.setUtilCause c).respond (.fault c)

/-- ENC's registers after ENC.START: the only way out of mode FAULT (43_encoder_fsm.md R171,
60_exceptions.md R256, 10_state.md R40). -/
def Enc.start (cfg : Config) : Enc where
  prev := cfg.prevInit
  cache := Cache.clear
  run := 0
  mode := .active
  pi := 0
  out := []
  cause := .none

/-- DEC's registers after DEC.START: the only way out of mode FAULT (44_decoder_fsm.md R201,
60_exceptions.md R256, 10_state.md R40). The product does not wrap (00_scope.md R11). -/
def Dec.start (cfg : Config) (bytes : List Byte) (width height : Word) : Dec where
  prev := cfg.prevInit
  cache := Cache.clear
  ip := 0
  op := 0
  npix := width.toNat * height.toNat
  mode := .active
  input := bytes
  out := []
  cause := .none

/-- A stateless command: its result is the response, or the fault is taken by the stateless units
(60_exceptions.md R254). -/
def State.answer (s : State) : Except Cause Response → State
  | .ok r => s.respond r
  | .error c => s.takeFault .util c

/-! ### Encoder steps -/

/-- `Emit(s)`: appends a chunk to `enc.out` (00_scope.md R13, 10_state.md R26). -/
def Enc.emit (e : Enc) (bs : List Byte) : Enc := { e with out := e.out ++ bs }

/-- Emits what a chunk encoder returns; its failed precondition is the step's fault. -/
def Enc.emitChecked (e : Enc) : Except Cause (List Byte) → Except Cause Enc
  | .ok bs => .ok (e.emit bs)
  | .error c => .error c

/-- The shell of every encoder step: mode ACTIVE else PROTOCOL; a fault discards the step's writes
(43_encoder_fsm.md R170, 60_exceptions.md R254). -/
def State.encStep (s : State) (f : Enc → Except Cause Enc) : State :=
  if s.enc.mode = .active then
    match f s.enc with
    | .ok e => (s.setEnc e).respond .done
    | .error c => s.takeFault .enc c
  else s.takeFault .enc .protocol

/-! ### Chunks -/

/-- COMMIT(type, px, n, L) (44_decoder_fsm.md R209); `cacheWrite` says the type is DIFF, LUMA, RGB or
RGBA. -/
def Dec.commit (d : Dec) (cacheWrite : Bool) (px : Pixel) (n len : Nat) : Dec :=
  { d with
    out := d.out.writeCopies d.op n px
    op := d.op + n
    prev := px
    cache := if cacheWrite then d.cache.write (hash px) px else d.cache
    ip := d.ip + len }

/-- The shell of every chunk: the checks of 44_decoder_fsm.md R202 in their order, all before any
write, then COMMIT. -/
def State.chunkStep (s : State) (cacheWrite : Bool) (px : Pixel) (n len : Nat) : State :=
  if ¬(s.dec.mode = .active ∧ s.dec.ip < s.dec.input.length) then s.takeFault .dec .protocol
  else if ¬(s.dec.ip + len ≤ s.dec.input.length) then s.takeFault .dec .truncatedChunk
  else if ¬(s.dec.op + n ≤ s.dec.npix) then s.takeFault .dec .pixelOverflow
  else (s.setDec (s.dec.commit cacheWrite px n len)).respond .done

end Sys2Proof.Machine
end

