-- ==== Sys2Proof/Machine/Actions.lean ====
section
/-! DEFINITION. Machine/Actions.lean: the eleven encoder actions as transfers on ENC's registers
(43_encoder_fsm.md R173 to R183), and their meanings. An action's condition is the selector's and is
tested in ENC.PIXEL and ENC.END (log entry 11). -/

namespace Sys2Proof.Machine

/-- RUN_FLUSH_FULL (R174). -/
def Enc.runFlushFull (e : Enc) : Except Cause Enc :=
  Enc.emitChecked { e with run := 0 } (encodeRun runMax)

/-- RUN_EXTEND, with the flush of the 62nd equal pixel in the same step (R173, R174). -/
def Enc.runExtend (e : Enc) : Except Cause Enc :=
  if e.run + 1 = runMax then Enc.runFlushFull { e with run := e.run + 1 } else .ok { e with run := e.run + 1 }

/-- RUN_FLUSH_PENDING (R175). -/
def Enc.runFlushPending (e : Enc) : Except Cause Enc :=
  Enc.emitChecked { e with run := 0 } (encodeRun e.run)

/-- EMIT_INDEX(h): the cache is not written (R176). -/
def Enc.emitIndex (e : Enc) (slot : BitVec 6) : Except Cause Enc := e.emitChecked (encodeIndex slot.toNat)

/-- CACHE_UPDATE (R177). -/
def Enc.cacheUpdate (e : Enc) (px : Pixel) : Enc := { e with cache := e.cache.write (hash px) px }

/-- EMIT_DIFF (R178). -/
def Enc.emitDiff (e : Enc) (dr dg db : Int) : Except Cause Enc := e.emitChecked (encodeDiff dr dg db)

/-- EMIT_LUMA (R179). -/
def Enc.emitLuma (e : Enc) (dr dg db : Int) : Except Cause Enc := e.emitChecked (encodeLuma dr dg db)

/-- EMIT_RGB (R180). -/
def Enc.emitRgb (e : Enc) (r g b : Byte) : Enc := e.emit (rgbBytes r g b)

/-- EMIT_RGBA (R181). -/
def Enc.emitRgba (e : Enc) (px : Pixel) : Enc := e.emit (rgbaBytes px.r px.g px.b px.a)

/-- PREV_ADVANCE (R182). -/
def Enc.prevAdvance (e : Enc) (px : Pixel) : Enc := { e with prev := px }

/-- FINAL_FLUSH, the flush of ENC.END (R183). -/
def Enc.finalFlush (e : Enc) : Except Cause Enc :=
  Enc.emitChecked { e with run := 0 } (encodeRun e.run)

/-- The meaning of RUN_EXTEND (R173). -/
def execRunExtend (s : State) : Host.Outcome State Fault Refusal := .next (s.encStep Enc.runExtend)

/-- The meaning of RUN_FLUSH_FULL (R174). -/
def execRunFlushFull (s : State) : Host.Outcome State Fault Refusal := .next (s.encStep Enc.runFlushFull)

/-- The meaning of RUN_FLUSH_PENDING (R175). -/
def execRunFlushPending (s : State) : Host.Outcome State Fault Refusal :=
  .next (s.encStep Enc.runFlushPending)

/-- The meaning of EMIT_INDEX (R176). -/
def execEmitIndex (slot : BitVec 6) (s : State) : Host.Outcome State Fault Refusal :=
  .next (s.encStep (fun e => e.emitIndex slot))

/-- The meaning of CACHE_UPDATE (R177). -/
def execCacheUpdate (px : Pixel) (s : State) : Host.Outcome State Fault Refusal :=
  .next (s.encStep (fun e => .ok (e.cacheUpdate px)))

/-- The meaning of EMIT_DIFF (R178). -/
def execEmitDiff (dr dg db : Int) (s : State) : Host.Outcome State Fault Refusal :=
  .next (s.encStep (fun e => e.emitDiff dr dg db))

/-- The meaning of EMIT_LUMA (R179). -/
def execEmitLuma (dr dg db : Int) (s : State) : Host.Outcome State Fault Refusal :=
  .next (s.encStep (fun e => e.emitLuma dr dg db))

/-- The meaning of EMIT_RGB (R180). -/
def execEmitRgb (r g b : Byte) (s : State) : Host.Outcome State Fault Refusal :=
  .next (s.encStep (fun e => .ok (e.emitRgb r g b)))

/-- The meaning of EMIT_RGBA (R181). -/
def execEmitRgba (px : Pixel) (s : State) : Host.Outcome State Fault Refusal :=
  .next (s.encStep (fun e => .ok (e.emitRgba px)))

/-- The meaning of PREV_ADVANCE (R182). -/
def execPrevAdvance (px : Pixel) (s : State) : Host.Outcome State Fault Refusal :=
  .next (s.encStep (fun e => .ok (e.prevAdvance px)))

/-- The meaning of FINAL_FLUSH (R183). -/
def execFinalFlush (s : State) : Host.Outcome State Fault Refusal := .next (s.encStep Enc.finalFlush)

end Sys2Proof.Machine
end

