-- ==== Sys2Proof/Machine/Chunks.lean ====
section
/-! DEFINITION. Machine/Chunks.lean: the six chunks as DEC executes them at `dec.ip`
(44_decoder_fsm.md R202 to R209; log entry 12). -/

namespace Sys2Proof.Machine

/-- INDEX: the slot's pixel, no cache write (R203). -/
def indexChunk (slot : BitVec 6) (s : State) : State :=
  s.chunkStep false (s.dec.cache.read slot) 1 1

/-- DIFF (R204). -/
def diffChunk (dr dg db : Int) (s : State) : State :=
  s.chunkStep true (diffPixel s.dec.prev dr dg db) 1 1

/-- LUMA (R205). -/
def lumaChunk (dg drDg dbDg : Int) (s : State) : State :=
  s.chunkStep true (lumaPixel s.dec.prev dg drDg dbDg) 1 2

/-- RUN: `length` copies of the previous pixel, no cache write (R208). -/
def runChunk (length : Nat) (s : State) : State :=
  s.chunkStep false s.dec.prev length 1

/-- RGB (R206). -/
def rgbChunk (r g b : Byte) (s : State) : State :=
  s.chunkStep true (rgbPixel s.dec.prev r g b) 1 4

/-- RGBA (R207). -/
def rgbaChunk (r g b a : Byte) (s : State) : State :=
  s.chunkStep true ⟨r, g, b, a⟩ 1 5

/-- The meaning of INDEX (R203). -/
def execIndex (slot : BitVec 6) (s : State) : Host.Outcome State Fault Refusal := .next (indexChunk slot s)

/-- The meaning of DIFF (R204). -/
def execDiff (dr dg db : Int) (s : State) : Host.Outcome State Fault Refusal := .next (diffChunk dr dg db s)

/-- The meaning of LUMA (R205). -/
def execLuma (dg drDg dbDg : Int) (s : State) : Host.Outcome State Fault Refusal :=
  .next (lumaChunk dg drDg dbDg s)

/-- The meaning of RUN (R208). -/
def execRun (length : Nat) (s : State) : Host.Outcome State Fault Refusal := .next (runChunk length s)

/-- The meaning of RGB (R206). -/
def execRgb (r g b : Byte) (s : State) : Host.Outcome State Fault Refusal := .next (rgbChunk r g b s)

/-- The meaning of RGBA (R207). -/
def execRgba (r g b a : Byte) (s : State) : Host.Outcome State Fault Refusal := .next (rgbaChunk r g b a s)

end Sys2Proof.Machine
end

