-- ==== Sys2Proof/Machine/Codec.lean ====
section
/-! DEFINITION. Machine/Codec.lean: the standalone chunk encoders and decoders, stateless
(42_chunk_codecs.md R140 to R150). -/

namespace Sys2Proof.Machine

/-- The meaning of CODEC.ENC_RGB (R140). -/
def execEncRgb (px : Option Pixel) (s : State) : Host.Outcome State Fault Refusal :=
  .next (s.answer ((encodeRGB px).map Response.bytes))

/-- The meaning of CODEC.ENC_RGBA (R141). -/
def execEncRgba (px : Option Pixel) (s : State) : Host.Outcome State Fault Refusal :=
  .next (s.answer ((encodeRGBA px).map Response.bytes))

/-- The meaning of CODEC.ENC_INDEX (R142). -/
def execEncIndex (slot : Byte) (s : State) : Host.Outcome State Fault Refusal :=
  .next (s.answer ((encodeIndex slot.toNat).map Response.bytes))

/-- The meaning of CODEC.ENC_DIFF; the ports are read as signed (R143). -/
def execEncDiff (dr dg db : Byte) (s : State) : Host.Outcome State Fault Refusal :=
  .next (s.answer ((encodeDiff (s8 dr) (s8 dg) (s8 db)).map Response.bytes))

/-- The meaning of CODEC.ENC_LUMA; the ports are read as signed (R144). -/
def execEncLuma (dr dg db : Byte) (s : State) : Host.Outcome State Fault Refusal :=
  .next (s.answer ((encodeLuma (s8 dr) (s8 dg) (s8 db)).map Response.bytes))

/-- The meaning of CODEC.ENC_RUN (R145). -/
def execEncRun (count : Byte) (s : State) : Host.Outcome State Fault Refusal :=
  .next (s.answer ((encodeRun count.toNat).map Response.bytes))

/-- The meaning of CODEC.DEC_RGB (R146). -/
def execDecRgb (prev : Option Pixel) (payload : Seq) (s : State) : Host.Outcome State Fault Refusal :=
  .next (s.answer ((decodeRGB prev payload).map Response.pixel))

/-- The meaning of CODEC.DEC_RGBA (R147). -/
def execDecRgba (payload : Seq) (s : State) : Host.Outcome State Fault Refusal :=
  .next (s.answer ((decodeRGBA payload).map Response.pixel))

/-- The meaning of CODEC.DEC_DIFF (R148). -/
def execDecDiff (prev : Option Pixel) (b : Byte) (s : State) : Host.Outcome State Fault Refusal :=
  .next (s.answer ((decodeDiff prev b).map Response.pixel))

/-- The meaning of CODEC.DEC_LUMA (R149). -/
def execDecLuma (prev : Option Pixel) (bytes : Seq) (s : State) : Host.Outcome State Fault Refusal :=
  .next (s.answer ((decodeLuma prev bytes).map Response.pixel))

/-- The meaning of CODEC.DEC_RUN: the copies and the position they are to be written at (R150; log
entry 16). -/
def execDecRun (prev : Option Pixel) (b : Byte) (pos : Nat) (s : State) :
    Host.Outcome State Fault Refusal :=
  .next (s.answer ((decodeRun prev b).map (Response.placed pos)))

end Sys2Proof.Machine
end

