-- ==== Sys2Proof/Machine/Decoder.lean ====
section
/-! DEFINITION. Machine/Decoder.lean: DEC.START, DEC.STEP and DEC.FINISH (44_decoder_fsm.md R200 to R210). -/

namespace Sys2Proof.Machine

/-- Executes a decoded chunk at `dec.ip`. -/
def execChunk (c : Chunk) (s : State) : State :=
  match c with
  | .index slot => indexChunk slot s
  | .diff dr dg db => diffChunk dr dg db s
  | .luma dg drDg dbDg => lumaChunk dg drDg dbDg s
  | .run length => runChunk length s
  | .rgb r g b => rgbChunk r g b s
  | .rgba r g b a => rgbaChunk r g b a s

/-- DEC.START: legal in every mode (R201). -/
def State.decStart (s : State) (bytes : Seq) (width height : Word) : State :=
  match bytes with
  | none => s.takeFault .dec .nullOperand
  | some bs => (s.setDec (Dec.start s.cfg bs width height)).respond .done

/-- DEC.STEP: PROTOCOL, then the fetch at `dec.ip` (a chunk that is not whole is TRUNCATED_CHUNK), then
the chunk's own rule with its check for PIXEL_OVERFLOW (R202). -/
def State.decStep (s : State) : State :=
  if ¬(s.dec.mode = .active ∧ s.dec.ip < s.dec.input.length) then s.takeFault .dec .protocol
  else
    match decodeChunk (s.dec.input.drop s.dec.ip) with
    | .error _ => s.takeFault .dec .truncatedChunk
    | .ok (c, _) => execChunk c s

/-- DEC.FINISH: the result of the call is `dec.out` (R210). -/
def State.decFinish (s : State) : State :=
  if ¬(s.dec.mode = .active ∧ s.dec.ip = s.dec.input.length) then s.takeFault .dec .protocol
  else if ¬(s.dec.op = s.dec.npix) then s.takeFault .dec .pixelUnderflow
  else (s.setDec { s.dec with mode := .done }).respond (.buffer s.dec.out)

/-- The meaning of DEC.START (R201). -/
def execDecStart (bytes : Seq) (width height : Word) (s : State) : Host.Outcome State Fault Refusal :=
  .next (s.decStart bytes width height)

/-- The meaning of DEC.STEP (R202). -/
def execDecStep (s : State) : Host.Outcome State Fault Refusal := .next s.decStep

/-- The meaning of DEC.FINISH (R210). -/
def execDecFinish (s : State) : Host.Outcome State Fault Refusal := .next s.decFinish

end Sys2Proof.Machine
end

