-- ==== Sys2Proof/Machine/Encoder.lean ====
section
/-! DEFINITION. Machine/Encoder.lean: ENC.START, ENC.PIXEL and ENC.END (43_encoder_fsm.md R170 to R183). -/

namespace Sys2Proof.Machine

/-- The chunk chosen for a pixel that differs from the previous one, after the flush: Index on a hit;
else the cache write, then Diff, Luma, RGB or RGBA (R172, steps 2a to 2c). -/
def Enc.emitPixel (e : Enc) (px : Pixel) : Except Cause Enc :=
  if hit e px then e.emitIndex (hash px)
  else if alphaSame e px then
    if diffOk e px then
      (e.cacheUpdate px).emitDiff (delta px.r e.prev.r) (delta px.g e.prev.g) (delta px.b e.prev.b)
    else if lumaOk e px then
      (e.cacheUpdate px).emitLuma (delta px.r e.prev.r) (delta px.g e.prev.g) (delta px.b e.prev.b)
    else .ok ((e.cacheUpdate px).emitRgb px.r px.g px.b)
  else .ok ((e.cacheUpdate px).emitRgba px)

/-- RUN_FLUSH_PENDING where a run is pending (R172, R175). -/
def Enc.flushIfPending (e : Enc) : Except Cause Enc :=
  if 0 < e.run then e.runFlushPending else .ok e

/-- One pixel: the selector of R172, first match wins. The pixel is counted without a bound: what happens
past `MAX_LEN` pixels of a call is left open by 10_state.md R25 (DESIGN CHOICE, log entry 21). -/
def Enc.pixel (px : Pixel) (e : Enc) : Except Cause Enc :=
  if eqPrev e px then Enc.runExtend { e with pi := e.pi + 1 }
  else
    match Enc.flushIfPending { e with pi := e.pi + 1 } with
    | .error c => .error c
    | .ok e =>
      match e.emitPixel px with
      | .error c => .error c
      | .ok e => .ok (e.prevAdvance px)

/-- The end of the stream: the pending run is flushed and the call is DONE (R183). -/
def Enc.finish (e : Enc) : Except Cause Enc :=
  match (if 0 < e.run then e.finalFlush else .ok e) with
  | .error c => .error c
  | .ok e => .ok { e with mode := .done }

/-- ENC.START (R171). -/
def State.encStart (s : State) : State := (s.setEnc (Enc.start s.cfg)).respond .done

/-- ENC.PIXEL (R172). -/
def State.encPixel (s : State) (px : Pixel) : State := s.encStep (Enc.pixel px)

/-- ENC.END: the result of the call is `enc.out` (R183). -/
def State.encEnd (s : State) : State :=
  let t := s.encStep Enc.finish
  if t.enc.mode = .done then t.respond (.bytes t.enc.out) else t

/-- The meaning of ENC.START (R171): legal in every mode. -/
def execEncStart (s : State) : Host.Outcome State Fault Refusal := .next s.encStart

/-- The meaning of ENC.PIXEL (R172). -/
def execEncPixel (px : Pixel) (s : State) : Host.Outcome State Fault Refusal := .next (s.encPixel px)

/-- The meaning of ENC.END (R183). -/
def execEncEnd (s : State) : Host.Outcome State Fault Refusal := .next s.encEnd

end Sys2Proof.Machine
end

