-- ==== Sys2Proof/Machine/Frame.lean ====
section
/-! DEFINITION. Machine/Frame.lean: the header, the end marker and the file-level compositions
(45_framing.md R230 to R235, 30_encoding.md R87, R88, R94). -/

namespace Sys2Proof.Machine

/-- HDR.PARSE of a sequence: on success the header registers are written; on a fault none is (R231). -/
def State.hdrParse (s : State) (h : Seq) : State :=
  match parseHeader s.cfg h with
  | .ok hd => (s.setHdr hd).respond (.header hd)
  | .error c => s.takeFault .util c

/-- ENC.PIXEL for each pixel in order (R233). -/
def State.encPixels : List Pixel → State → State
  | [], s => s
  | px :: ps, s => State.encPixels ps (s.encPixel px)

/-- FILE.ENCODE (R233): the header first, then the pixel count, then the encode of P. The absent pixel
sequence faults before everything else (R118; log entry 15). -/
def State.fileEncode (s : State) (h : Hdr) (pixels : Option (List Pixel)) : State :=
  match pixels with
  | none => s.takeFault .util .nullOperand
  | some ps =>
    match buildHeader s.cfg h with
    | .error c => s.takeFault .util c
    | .ok hd =>
      if ps.length ≠ h.width.toNat * h.height.toNat then s.takeFault .util .dimMismatchEnc
      else
        let t := (State.encPixels ps s.encStart).encEnd
        if t.enc.mode = .done then t.respond (.bytes (hd ++ t.enc.out ++ s.cfg.endMarker.toList)) else t

/-- `while dec.ip < len(dec.in): DEC.STEP` (R200, R234): a fault ends the loop; every other step moves
`dec.ip`, so as many turns as `dec.in` has bytes are enough (R211). -/
def State.decLoop : Nat → State → State
  | 0, s => s
  | n + 1, s =>
    if s.dec.mode = .active ∧ s.dec.ip < s.dec.input.length then State.decLoop n s.decStep else s

/-- FILE.DECODE (R234): end marker, header, chunks, in that order. It is the composition of HDR.PARSE,
DEC.START, DEC.STEP and DEC.FINISH, and ends at the first that faults (log entry 18). -/
def State.fileDecode (s : State) (file : Seq) : State :=
  match file with
  | none => s.takeFault .util .nullOperand
  | some f =>
    if f.length < endLen then s.takeFault .util .badEndMarker
    else
      match checkEndMarker s.cfg (f.drop (f.length - endLen)) with
      | .error c => s.takeFault .util c
      | .ok _ =>
        if f.length - endLen < headerLen then s.takeFault .util .badHeaderLen
        else
          match parseHeader s.cfg (some (f.take headerLen)) with
          | .error c => s.takeFault .util c
          | .ok hd =>
            let body := (f.drop headerLen).take (f.length - endLen - headerLen)
            let t := State.decLoop body.length ((s.setHdr hd).decStart (some body) hd.width hd.height)
            if t.dec.mode = .active then
              let u := t.decFinish
              if u.dec.mode = .done then u.respond (.image u.dec.out hd) else u
            else t

/-- The meaning of HDR.BUILD: its operands are the header registers; it writes no state (R230; log
entry 17). -/
def execHdrBuild (s : State) : Host.Outcome State Fault Refusal :=
  .next (s.answer ((buildHeader s.cfg s.hdr).map Response.bytes))

/-- The meaning of HDR.PARSE (R231). -/
def execHdrParse (h : Seq) (s : State) : Host.Outcome State Fault Refusal := .next (s.hdrParse h)

/-- The meaning of FILE.ENCODE (R233). -/
def execFileEncode (width height : Word) (channels colorspace : Byte) (pixels : Option (List Pixel))
    (s : State) : Host.Outcome State Fault Refusal :=
  .next (s.fileEncode ⟨width, height, channels, colorspace⟩ pixels)

/-- The meaning of FILE.DECODE (R234). -/
def execFileDecode (file : Seq) (s : State) : Host.Outcome State Fault Refusal := .next (s.fileDecode file)

/-- The meaning of the HEADER record: what reading it does, that is HDR.PARSE of its 14 bytes (R87,
R231; log entry 13). -/
def execHeader (magic : Vector Byte 4) (width height : Word) (channels colorspace : Byte) (s : State) :
    Host.Outcome State Fault Refusal :=
  .next (s.hdrParse (some (headerBytes magic width height channels colorspace)))

/-- The meaning of the END_MARKER record: the check FILE.DECODE makes of it, which changes nothing but
the response when it passes (R88, R234; log entry 13). -/
def execEndMarker (bytes : Vector Byte 8) (s : State) : Host.Outcome State Fault Refusal :=
  .next (s.answer ((checkEndMarker s.cfg bytes.toList).map (fun _ => Response.done)))

end Sys2Proof.Machine
end

