-- ==== Sys2Proof/Machine/Port.lean ====
section
/-! DEFINITION. Machine/Port.lean: the ports: taking a command record off the command port, the bound
MAX_LEN on what goes in and comes out, the unassigned codes, and placing a word of the opcode table so that the next step runs it. -/

namespace Sys2Proof.Machine

/-- A sequence operand within `MAX_LEN` (20_memory.md R67). -/
def seqWithin (maxLen : Nat) : Seq → Bool
  | none => true
  | some bs => decide (bs.length ≤ maxLen)

/-- CONCAT's operands within `MAX_LEN`. In the first variant each of the k elements is one byte
(40_byte_utilities.md R114), so none of them is a long sequence; their number is bounded where the
result is, by `resultsWithin` (DEDUCED, log entry 4). In the second variant each sequence is bounded, and
the result is. -/
def concatWithin (maxLen : Nat) : ConcatArgs → Bool
  | .bytes _ => true
  | .seqs ss => ss.all (seqWithin maxLen)

/-- FILE.ENCODE's pixel sequence within `MAX_LEN`, the largest sequence length
(93_implementation_defined.md U6), counted in pixels (DESIGN CHOICE, log entry 4). -/
def pixelsWithin (maxLen : Nat) : Option (List Pixel) → Bool
  | none => true
  | some ps => decide (ps.length ≤ maxLen)

/-- Every sequence operand of a command is within `MAX_LEN` (20_memory.md R67; log entry 4). -/
def operandsWithin (maxLen : Nat) : Instr → Bool
  | .utilEq a b => seqWithin maxLen a && seqWithin maxLen b
  | .utilBe32Unpack s => seqWithin maxLen s
  | .utilConcat args => concatWithin maxLen args
  | .utilExtract input _ _ => seqWithin maxLen input
  | .utilPartition input _ => seqWithin maxLen input
  | .decRgb _ payload => seqWithin maxLen payload
  | .decRgba payload => seqWithin maxLen payload
  | .decLuma _ bytes => seqWithin maxLen bytes
  | .decStart bytes _ _ => seqWithin maxLen bytes
  | .hdrParse h => seqWithin maxLen h
  | .fileEncode _ _ _ _ pixels => pixelsWithin maxLen pixels
  | .fileDecode file => seqWithin maxLen file
  | .utilBe32Pack _ | .hash _ | .encRgb _ | .encRgba _ | .encIndex _ | .encDiff _ _ _ | .encLuma _ _ _
  | .encRun _ | .decDiff _ _ | .decRun _ _ _ | .encStart | .encPixel _ | .encEnd | .decStep | .decFinish
  | .hdrBuild | .unassigned _ => true
  -- no command: chunks, file records and actions do not come from the port
  | .index _ | .diff _ _ _ | .luma _ _ _ | .run _ | .rgb _ _ _ | .rgba _ _ _ _ | .header _ _ _ _ _
  | .endMarker _ | .runExtend | .runFlushFull | .runFlushPending | .emitIndex _ | .cacheUpdate _
  | .emitDiff _ _ _ | .emitLuma _ _ _ | .emitRgb _ _ _ | .emitRgba _ | .prevAdvance _ | .finalFlush => true

/-- The byte sequences of an answer are within `MAX_LEN` (20_memory.md R67). A pixel buffer is no byte
sequence: its unit is the pixel (R50) and its size is `dec.npix`, up to 64 bits (10_state.md R31). -/
def responseWithin (maxLen : Nat) : Response → Bool
  | .bytes bs => decide (bs.length ≤ maxLen)
  | .pieces ps => ps.all fun p => decide (p.length ≤ maxLen)
  | .empty | .done | .bool _ | .word _ | .slot _ | .pixel _ | .placed _ _ | .header _ | .buffer _
  | .image _ _ | .fault _ => true

/-- What a command leaves on the output ports is within `MAX_LEN`: `enc.out` (20_memory.md R60) and the
answer (R67, 40_byte_utilities.md R114). -/
def resultsWithin (s : State) : Bool :=
  decide (s.enc.out.length ≤ s.cfg.maxLen) && responseWithin s.cfg.maxLen s.response

/-- The output ports carry no byte sequence longer than `MAX_LEN`: a command that would leave one there has
no next state (R67; that it is refused, as an operand is, is a DESIGN CHOICE, log entry 4). -/
def carry : Host.Outcome State Fault Refusal → Host.Outcome State Fault Refusal
  | .next t => if resultsWithin t then .next t else .refused .resultTooLong
  | .fault r => .fault r
  | .refused r => .refused r

/-- The command of a port record, or why the block has no meaning for it. -/
def fetchCommand (cfg : Config) (record : List Byte) : Except Refusal Instr :=
  match decodeRecord record with
  | .error e => .error (.undecodable e)
  | .ok i => if operandsWithin cfg.maxLen i then .ok i else .error .operandTooLong

/-- The meaning of the codes `0x1C..0x1F`: refused, no next state (60_exceptions.md R263). -/
def execUnassigned (code : BitVec 2) (_ : State) : Host.Outcome State Fault Refusal :=
  .refused (.unassignedCommand code)

/-- The state with an input at the head of the port. -/
def State.withInput (s : State) (i : HostInput) : State := { s with port := i :: s.port }

/-- What the step takes off the port (00_scope.md R14, 30_encoding.md R95): the command to execute, if
there is one, and the state it is executed in. A header write lands in its register; with nothing on
the port the block waits and nothing changes (60_exceptions.md R252; log entry 5). -/
def nextInput (s : State) : Except Refusal (Option Instr × State) :=
  match s.port with
  | [] => .ok (none, s)
  | .writeWidth w :: rest => .ok (none, { s with hdr := { s.hdr with width := w }, port := rest })
  | .writeHeight h :: rest => .ok (none, { s with hdr := { s.hdr with height := h }, port := rest })
  | .writeChannels c :: rest => .ok (none, { s with hdr := { s.hdr with channels := c }, port := rest })
  | .writeColorspace c :: rest => .ok (none, { s with hdr := { s.hdr with colorspace := c }, port := rest })
  | .command record :: rest =>
    match fetchCommand s.cfg record with
    | .error r => .error r
    | .ok i => .ok (some i, { s with port := rest })

/-- A call of ENC in progress, with the given previous pixel and pending run, and a command on the port. -/
def State.placeEnc (s : State) (prev : Pixel) (run : Nat) (cache : Cache) (i : Instr) : State :=
  (s.setEnc { Enc.start s.cfg with prev := prev, run := run, cache := cache }).withInput (.command (encode i))

/-- Places an instruction where the next step runs it (log entry 20): a command as a record on the
port; a chunk as DEC's input, with DEC.STEP on the port; a file record as the operand of the command
that reads it; an action in a call of ENC where ENC.PIXEL or ENC.END selects it. -/
def State.placeInstr (s : State) (i : Instr) : State :=
  let grey : Pixel := ⟨128, 128, 128, 255⟩
  match i with
  | .index _ | .diff _ _ _ | .luma _ _ _ | .run _ | .rgb _ _ _ | .rgba _ _ _ _ =>
    (s.setDec { Dec.start s.cfg (encode i) 0 0 with npix := 62 }).withInput (.command (encode .decStep))
  | .header _ _ _ _ _ => s.withInput (.command (encode (.hdrParse (some (encode i)))))
  | .endMarker _ =>
    s.withInput (.command (encode (.fileDecode (some (headerBytes s.cfg.magic 0 0 3 0 ++ encode i)))))
  | .runExtend => s.placeEnc grey 0 Cache.clear (.encPixel grey)
  | .runFlushFull => s.placeEnc grey 61 Cache.clear (.encPixel grey)
  | .runFlushPending => s.placeEnc grey 1 Cache.clear (.encPixel ⟨0, 0, 0, 255⟩)
  | .emitIndex slot =>
    let px : Pixel := ⟨BitVec.ofNat 8 (43 * slot.toNat), 0, 0, 0⟩
    s.placeEnc grey 0 (Cache.clear.write slot px) (.encPixel px)
  | .cacheUpdate px => s.placeEnc ⟨px.r, px.g, px.b, px.a + 128⟩ 0 Cache.clear (.encPixel px)
  | .emitDiff dr dg db => s.placeEnc grey 0 Cache.clear (.encPixel (diffPixel grey dr dg db))
  | .emitLuma dr dg db => s.placeEnc grey 0 Cache.clear (.encPixel (diffPixel grey dr dg db))
  | .emitRgb r g b =>
    s.placeEnc ⟨r + 128, g + 128, b + 128, 255⟩ 0 Cache.clear (.encPixel ⟨r, g, b, 255⟩)
  | .emitRgba px => s.placeEnc ⟨px.r, px.g, px.b, px.a + 128⟩ 0 Cache.clear (.encPixel px)
  | .prevAdvance px => s.placeEnc ⟨px.r, px.g, px.b, px.a + 128⟩ 0 Cache.clear (.encPixel px)
  | .finalFlush => s.placeEnc grey 1 Cache.clear .encEnd
  | i => s.withInput (.command (encode i))

/-- Places the instruction of a table word; a word that decodes to nothing is placed as its bytes. -/
def State.placeWord (s : State) (nbits w : Nat) : State :=
  match decodeTableWord nbits w with
  | some i => s.placeInstr i
  | none => s.withInput (.command (tableBytes nbits w))

end Sys2Proof.Machine
end

