-- ==== Sys2Proof/Machine/Util.lean ====
section
/-! DEFINITION. Machine/Util.lean: UTIL and HASH, stateless (40_byte_utilities.md R110 to R118,
41_hash_and_cache.md R130). -/

namespace Sys2Proof.Machine

/-- The meaning of UTIL.EQ (R110). -/
def execUtilEq (a b : Seq) (s : State) : Host.Outcome State Fault Refusal :=
  .next (s.answer ((bytesEqual a b).map Response.bool))

/-- The meaning of UTIL.BE32_UNPACK (R111). -/
def execUtilBe32Unpack (bs : Seq) (s : State) : Host.Outcome State Fault Refusal :=
  .next (s.answer ((be32Unpack bs).map Response.word))

/-- The meaning of UTIL.BE32_PACK (R112). -/
def execUtilBe32Pack (x : Word) (s : State) : Host.Outcome State Fault Refusal :=
  .next (s.answer (.ok (.bytes (fromUint32BE x))))

/-- The meaning of UTIL.CONCAT (R114). -/
def execUtilConcat (args : ConcatArgs) (s : State) : Host.Outcome State Fault Refusal :=
  .next (s.answer ((concat args).map Response.bytes))

/-- The meaning of UTIL.EXTRACT (R115). -/
def execUtilExtract (input : Seq) (start length : Int) (s : State) : Host.Outcome State Fault Refusal :=
  .next (s.answer ((extract input start length).map Response.bytes))

/-- The meaning of UTIL.PARTITION (R116). -/
def execUtilPartition (input : Seq) (sizes : List Int) (s : State) : Host.Outcome State Fault Refusal :=
  .next (s.answer ((partition input sizes).map Response.pieces))

/-- The meaning of HASH (R130). -/
def execHash (px : Pixel) (s : State) : Host.Outcome State Fault Refusal :=
  .next (s.answer (.ok (.slot (hash px))))

end Sys2Proof.Machine
end

