-- ==== Sys2Proof/Machine/Dispatch.lean ====
section
/-! DEFINITION. Machine/Dispatch.lean: one arm per constructor of Instr, each one call of its meaning. -/

namespace Sys2Proof.Machine

def exec (i : Instr) (s : State) : Host.Outcome State Fault Refusal :=
  match i with
  | .index slot => Sys2Proof.Machine.execIndex slot s
  | .diff dr dg db => Sys2Proof.Machine.execDiff dr dg db s
  | .luma dg drDg dbDg => Sys2Proof.Machine.execLuma dg drDg dbDg s
  | .run length => Sys2Proof.Machine.execRun length s
  | .rgb r g b => Sys2Proof.Machine.execRgb r g b s
  | .rgba r g b a => Sys2Proof.Machine.execRgba r g b a s
  | .header magic width height channels colorspace => Sys2Proof.Machine.execHeader magic width height channels colorspace s
  | .endMarker bytes => Sys2Proof.Machine.execEndMarker bytes s
  | .runExtend => Sys2Proof.Machine.execRunExtend s
  | .runFlushFull => Sys2Proof.Machine.execRunFlushFull s
  | .runFlushPending => Sys2Proof.Machine.execRunFlushPending s
  | .emitIndex slot => Sys2Proof.Machine.execEmitIndex slot s
  | .cacheUpdate px => Sys2Proof.Machine.execCacheUpdate px s
  | .emitDiff dr dg db => Sys2Proof.Machine.execEmitDiff dr dg db s
  | .emitLuma dr dg db => Sys2Proof.Machine.execEmitLuma dr dg db s
  | .emitRgb r g b => Sys2Proof.Machine.execEmitRgb r g b s
  | .emitRgba px => Sys2Proof.Machine.execEmitRgba px s
  | .prevAdvance px => Sys2Proof.Machine.execPrevAdvance px s
  | .finalFlush => Sys2Proof.Machine.execFinalFlush s
  | .utilEq a b => Sys2Proof.Machine.execUtilEq a b s
  | .utilBe32Unpack bs => Sys2Proof.Machine.execUtilBe32Unpack bs s
  | .utilBe32Pack x => Sys2Proof.Machine.execUtilBe32Pack x s
  | .utilConcat args => Sys2Proof.Machine.execUtilConcat args s
  | .utilExtract input start length => Sys2Proof.Machine.execUtilExtract input start length s
  | .utilPartition input sizes => Sys2Proof.Machine.execUtilPartition input sizes s
  | .hash px => Sys2Proof.Machine.execHash px s
  | .encRgb px => Sys2Proof.Machine.execEncRgb px s
  | .encRgba px => Sys2Proof.Machine.execEncRgba px s
  | .encIndex slot => Sys2Proof.Machine.execEncIndex slot s
  | .encDiff dr dg db => Sys2Proof.Machine.execEncDiff dr dg db s
  | .encLuma dr dg db => Sys2Proof.Machine.execEncLuma dr dg db s
  | .encRun count => Sys2Proof.Machine.execEncRun count s
  | .decRgb prev payload => Sys2Proof.Machine.execDecRgb prev payload s
  | .decRgba payload => Sys2Proof.Machine.execDecRgba payload s
  | .decDiff prev b => Sys2Proof.Machine.execDecDiff prev b s
  | .decLuma prev bytes => Sys2Proof.Machine.execDecLuma prev bytes s
  | .decRun prev b pos => Sys2Proof.Machine.execDecRun prev b pos s
  | .encStart => Sys2Proof.Machine.execEncStart s
  | .encPixel px => Sys2Proof.Machine.execEncPixel px s
  | .encEnd => Sys2Proof.Machine.execEncEnd s
  | .decStart bytes width height => Sys2Proof.Machine.execDecStart bytes width height s
  | .decStep => Sys2Proof.Machine.execDecStep s
  | .decFinish => Sys2Proof.Machine.execDecFinish s
  | .hdrBuild => Sys2Proof.Machine.execHdrBuild s
  | .hdrParse h => Sys2Proof.Machine.execHdrParse h s
  | .fileEncode width height channels colorspace pixels => Sys2Proof.Machine.execFileEncode width height channels colorspace pixels s
  | .fileDecode file => Sys2Proof.Machine.execFileDecode file s
  | .unassigned code => Sys2Proof.Machine.execUnassigned code s

end Sys2Proof.Machine
end

