-- ==== Sys2Proof/Machine/Step.lean ====
section
/-! DEFINITION. Machine/Step.lean: one step takes one host input off the command port. -/

namespace Sys2Proof.Machine

/-- One step (00_scope.md R14, 30_encoding.md R95): one host input is taken off the command port; a
command is executed, and its results are carried out (20_memory.md R67). -/
def step (s : State) : Host.Outcome State Fault Refusal :=
  match nextInput s with
  | .error r => .refused r
  | .ok (none, t) => .next t
  | .ok (some i, t) => carry (exec i t)

/-- The state with the instruction of a table word placed where the next step runs it. -/
def State.withFetchWord (s : State) (nbits w : Nat) : State := s.placeWord nbits w

end Sys2Proof.Machine
end

