-- ==== Sys2Proof/Machine/Observe.lean ====
section
/-! DEFINITION. Machine/Observe.lean: what the host may read as a result (70_reset_and_hazards.md R289,
93_implementation_defined.md U9, U10). No instruction reads through these. -/

namespace Sys2Proof.Machine

/-- `enc.out` as a result: only in mode DONE (10_state.md R26). -/
def readEncOut (s : State) : Host.Outcome (List Byte) Fault Refusal :=
  if s.enc.mode = .done then .next s.enc.out else .refused .noResult

/-- One pixel of `dec.out` as a result: only in mode DONE, inside the buffer, where one was written
(10_state.md R34). -/
def readDecOut (s : State) (pos : Nat) : Host.Outcome Pixel Fault Refusal :=
  if s.dec.mode = .done then
    if pos < s.dec.npix then
      match s.dec.out.readPixel pos with
      | some p => .next p
      | none => .refused .unwrittenPosition
    else .fault .outsideBuffer
  else .refused .noResult

end Sys2Proof.Machine
end

