-- ==== Sys2Proof/Safety.lean ====
section
/-! DEFINITION. Safety.lean: the terms claims are stated in: which unit an instruction belongs to, running
a list of instructions, the state after a fault, the invariant of the machine, and what a buffer
holds. -/

namespace Sys2Proof

/-- The instructions of ENC: its three commands and the eleven actions. -/
def Instr.isEncoder : Instr → Bool
  | .runExtend | .runFlushFull | .runFlushPending | .emitIndex _ | .cacheUpdate _ | .emitDiff _ _ _
  | .emitLuma _ _ _ | .emitRgb _ _ _ | .emitRgba _ | .prevAdvance _ | .finalFlush
  | .encStart | .encPixel _ | .encEnd => true
  | _ => false

/-- The instructions of DEC: its three commands and the six chunks. -/
def Instr.isDecoder : Instr → Bool
  | .index _ | .diff _ _ _ | .luma _ _ _ | .run _ | .rgb _ _ _ | .rgba _ _ _ _
  | .decStart _ _ _ | .decStep | .decFinish => true
  | _ => false

/-- The commands of the units that hold no state and read none: UTIL, HASH and CODEC. -/
def Instr.isPure : Instr → Bool
  | .utilEq _ _ | .utilBe32Unpack _ | .utilBe32Pack _ | .utilConcat _ | .utilExtract _ _ _
  | .utilPartition _ _ | .hash _ | .encRgb _ | .encRgba _ | .encIndex _ | .encDiff _ _ _
  | .encLuma _ _ _ | .encRun _ | .decRgb _ _ | .decRgba _ | .decDiff _ _ | .decLuma _ _
  | .decRun _ _ _ => true
  | _ => false

/-- The byte-sequence operands of an instruction, in the order of its rule. The elements of CONCAT's first
variant are single bytes (40_byte_utilities.md R114). -/
def Instr.byteOperands : Instr → List Seq
  | .utilEq a b => [a, b]
  | .utilBe32Unpack s => [s]
  | .utilConcat (.seqs ss) => ss
  | .utilExtract input _ _ => [input]
  | .utilPartition input _ => [input]
  | .decRgb _ payload => [payload]
  | .decRgba payload => [payload]
  | .decLuma _ bytes => [bytes]
  | .decStart bytes _ _ => [bytes]
  | .hdrParse h => [h]
  | .fileDecode file => [file]
  | _ => []

/-- The pixel-sequence operand, which FILE.ENCODE alone has. -/
def Instr.pixelOperands : Instr → List (Option (List Pixel))
  | .fileEncode _ _ _ _ pixels => [pixels]
  | _ => []

/-- Every sequence an instruction carries has at most `maxLen` elements (20_memory.md R67). -/
def Instr.OperandsFit (i : Instr) (maxLen : Nat) : Prop :=
  (∀ bs, some bs ∈ i.byteOperands → bs.length ≤ maxLen) ∧
    ∀ ps, some ps ∈ i.pixelOperands → ps.length ≤ maxLen

namespace Machine

/-- An answer has no byte sequence longer than `maxLen` (20_memory.md R67). -/
def Response.Fits (r : Response) (maxLen : Nat) : Prop :=
  (∀ bs, r = .bytes bs → bs.length ≤ maxLen) ∧ ∀ ps, r = .pieces ps → ∀ p ∈ ps, p.length ≤ maxLen

/-- Executes instructions one after another; a fault outcome or a refusal ends the run. -/
def execSeq : List Instr → State → Host.Outcome State Fault Refusal
  | [], s => .next s
  | i :: is, s =>
    match exec i s with
    | .next t => execSeq is t
    | .fault r => .fault r
    | .refused r => .refused r

/-- `encodeStream(pixels)` as a list of commands (43_encoder_fsm.md R170). -/
def encodeCall (ps : List Pixel) : List Instr := .encStart :: (ps.map .encPixel ++ [.encEnd])

/-- `decodeStream(bytes, width, height)` as a list of commands, for a stream of `k` chunks
(44_decoder_fsm.md R200). -/
def decodeCall (bytes : List Byte) (width height : Word) (k : Nat) : List Instr :=
  .decStart (some bytes) width height :: (List.replicate k .decStep ++ [.decFinish])

/-- The state after a fault of a stateless unit (60_exceptions.md R254 b). -/
def utilFault (s : State) (c : Cause) : State := { s with utilCause := c, response := .fault c }

/-- The state after a fault of ENC (60_exceptions.md R254 b, c): nothing but mode, cause and response;
a PROTOCOL fault in mode FAULT leaves the first cause. -/
def encFault (s : State) (c : Cause) : State :=
  { s with
    enc := { s.enc with mode := .fault
                        cause := if s.enc.mode = .fault ∧ c = .protocol then s.enc.cause else c }
    response := .fault c }

/-- The state after a fault of DEC (60_exceptions.md R254 b, c). -/
def decFault (s : State) (c : Cause) : State :=
  { s with
    dec := { s.dec with mode := .fault
                        cause := if s.dec.mode = .fault ∧ c = .protocol then s.dec.cause else c }
    response := .fault c }

/-- The chunk of the pending run, empty where no run is pending (43_encoder_fsm.md R175, R183). -/
def pendingBytes (run : Nat) : List Byte := if 0 < run then [0xC0 ||| BitVec.ofNat 8 (run - 1)] else []

/-- A Diff chunk's byte from its deltas as 8-bit patterns, in the form R143 writes it. -/
def diffByte (dr dg db : Byte) : Byte := 0x40 ||| ((dr + 2) <<< 4) ||| ((dg + 2) <<< 2) ||| (db + 2)

/-- A Luma chunk's first byte, in the form R144 writes it. -/
def lumaByte0 (dg : Byte) : Byte := 0x80 ||| (dg + 32)

/-- A Luma chunk's second byte from the first-order deltas, in the form R144 writes it. -/
def lumaByte1 (dr dg db : Byte) : Byte := ((dr - dg + 8) <<< 4) ||| (db - dg + 8)

/-- Every slot holds `ZERO` or a pixel whose hash is the slot's index (10_state.md R42 b). -/
def Cache.Sound (c : Cache) : Prop := ∀ slot, c.read slot = Pixel.zero ∨ hash (c.read slot) = slot

/-- What holds of ENC's registers between steps: R42 (a), (b), (c); R185's size bound; the cause is NONE
exactly outside FAULT (10_state.md R36, R40); a completed call has no pending run (R183). -/
structure Enc.Inv (cfg : Config) (e : Enc) : Prop where
  run_le : e.run ≤ 61
  cache_sound : e.cache.Sound
  prev_cached : e.prev = cfg.prevInit ∨ e.cache.read (hash e.prev) = e.prev
  size_le : e.out.length + (if 0 < e.run then 1 else 0) ≤ 5 * e.pi
  cause_iff : e.cause ≠ .none ↔ e.mode = .fault
  done_flushed : e.mode = .done → e.run = 0

/-- What holds of DEC's registers between steps: R42 (b), (d); the output buffer is in its canonical
form and holds a value exactly at the bytes of the pixels written so far (10_state.md R30, R34); the
cause is NONE exactly outside FAULT; a completed call has consumed its whole input and produced all
its pixels (R210). -/
structure Dec.Inv (d : Dec) : Prop where
  cache_sound : d.cache.Sound
  op_le : d.op ≤ d.npix
  ip_le : d.ip ≤ d.input.length
  out_wf : d.out.wf = true
  out_written : ∀ addr, (d.out.read addr).isSome = true ↔ addr < 4 * d.op
  cause_iff : d.cause ≠ .none ↔ d.mode = .fault
  done_complete : d.mode = .done → d.op = d.npix ∧ d.ip = d.input.length

/-- The invariant of the machine: every step keeps it. The last three fields say that every byte sequence
on a port of the block has at most `MAX_LEN` bytes (20_memory.md R60, R67; 10_state.md R29). -/
structure State.Inv (s : State) : Prop where
  enc : s.enc.Inv s.cfg
  dec : s.dec.Inv
  out_fits : s.enc.out.length ≤ s.cfg.maxLen
  in_fits : s.dec.input.length ≤ s.cfg.maxLen
  response_fits : s.response.Fits s.cfg.maxLen

/-- The buffer holds exactly these pixels, in order, from position 0 (20_memory.md R53). -/
def Memory.Holds (m : Memory) (ps : List Pixel) : Prop :=
  (∀ addr, (m.read addr).isSome = true ↔ addr < 4 * ps.length) ∧
    ∀ pos (h : pos < ps.length), m.readPixel pos = some ps[pos]

end Machine

end Sys2Proof
end

