-- ==== Sys2Proof/Certificates/Slice0/Obligations.lean ====
section
/-! DEFINITION. Certificates/Slice0/Obligations.lean: the statements for the provers. Each holds for every
value of the parameters PREV_INIT, MAGIC, END_MARKER and MAX_LEN, since each is about every state. -/

open Sys2Proof Sys2Proof.Machine

/-! ### Encodings -/

/-- Words written out bit by bit from the formats of 30_encoding.md R81 to R87 and the codes of R95 decode
to what they stand for. -/
def Obligations.SpecWordsDecode : Prop :=
  decode .chunk [0b00001001] = .ok (.index 9, []) ∧
  decode .chunk [0b01011011] = .ok (.diff (-1) 0 1, []) ∧
  decode .chunk [0b10101011, 0b01100101] = .ok (.luma 11 (-2) (-3), []) ∧
  decode .chunk [0b11111101] = .ok (.run 62, []) ∧
  decode .chunk [0b11111110, 10, 20, 30] = .ok (.rgb 10 20 30, []) ∧
  decode .chunk [0b11111111, 10, 20, 30, 128] = .ok (.rgba 10 20 30 128, []) ∧
  decode .fileHead [0x71, 0x6F, 0x69, 0x66, 0, 0, 0, 2, 0, 0, 0, 1, 3, 0] =
    .ok (.header #v[0x71, 0x6F, 0x69, 0x66] 2 1 3 0, []) ∧
  decode .command [0b00010010] = .ok (.encStart, []) ∧
  decode .command [0b00010110] = .ok (.decStep, []) ∧
  decode .command [0b00011000] = .ok (.hdrBuild, [])

/-- Decoding the encoding of a well-formed instruction gives it back, with every operand. -/
def Obligations.DecodeInvertsEncode : Prop :=
  ∀ (i : Instr) (rest : List Byte), i.wellFormed = true →
    decode i.space (encode i ++ rest) = .ok (i, rest)

/-- 30_encoding.md R89: the lead byte alone selects the chunk's type, its length and its pixels; a chunk is
read exactly when all its bytes are there; and its bytes are the only ones that encode it. -/
def Obligations.LeadByteSelectsOneChunk : Prop :=
  ∀ (b : Byte) (rest : List Byte),
    (rest.length + 1 < chunkLength b → decodeChunk (b :: rest) = .error .truncated) ∧
    (chunkLength b ≤ rest.length + 1 → ∃ c,
      decodeChunk (b :: rest) = .ok (c, (b :: rest).drop (chunkLength b)) ∧
      c.toInstr.wellFormed = true ∧ c.bytes = (b :: rest).take (chunkLength b) ∧
      c.size = chunkLength b ∧ c.pixels = chunkPixels b ∧
      (b.toNat ≤ 0x3F → (∃ slot, c = .index slot) ∧ chunkLength b = 1 ∧ chunkPixels b = 1) ∧
      (0x40 ≤ b.toNat → b.toNat ≤ 0x7F →
        (∃ dr dg db, c = .diff dr dg db) ∧ chunkLength b = 1 ∧ chunkPixels b = 1) ∧
      (0x80 ≤ b.toNat → b.toNat ≤ 0xBF →
        (∃ dg drDg dbDg, c = .luma dg drDg dbDg) ∧ chunkLength b = 2 ∧ chunkPixels b = 1) ∧
      (0xC0 ≤ b.toNat → b.toNat ≤ 0xFD →
        c = .run ((b &&& 0x3F).toNat + 1) ∧ chunkLength b = 1 ∧ chunkPixels b = (b &&& 0x3F).toNat + 1) ∧
      (b = 0xFE → (∃ r g bl, c = .rgb r g bl) ∧ chunkLength b = 4 ∧ chunkPixels b = 1) ∧
      (b = 0xFF → (∃ r g bl a, c = .rgba r g bl a) ∧ chunkLength b = 5 ∧ chunkPixels b = 1))

/-- 60_exceptions.md R263: the codes `0x1C..0x1F` are refused, as instructions and on the port. -/
def Obligations.UnassignedCodesAreRefused : Prop :=
  ∀ (code : BitVec 2) (s : State),
    exec (.unassigned code) s = .refused (.unassignedCommand code) ∧
    ∀ rest, s.port = .command [0x1C + code.setWidth 8] :: rest →
      step s = .refused (.unassignedCommand code)

/-! ### The step -/

/-- A step runs the decoded command: where the record at the head of the port decodes to `i` and i's
sequences are within MAX_LEN, the step is `exec i` with the record taken off the port, and its results
are carried out: where `enc.out` and the answer are within MAX_LEN the step answers that state, where
not it is refused (40_byte_utilities.md R114 and 20_memory.md R60, R67 give the bound; that what exceeds
it is refused is the model's choice, log entry 4). What exec refuses, the step refuses. The port and
its records are the model's own (log entries 3 and 5). -/
def Obligations.StepRunsDecodedCommand : Prop :=
  ∀ (s : State) (record : List Byte) (rest : List HostInput) (i : Instr),
    s.port = .command record :: rest → decodeRecord record = .ok i → i.OperandsFit s.cfg.maxLen →
    (∀ t, exec i { s with port := rest } = .next t →
      (t.enc.out.length ≤ s.cfg.maxLen ∧ t.response.Fits s.cfg.maxLen → step s = .next t) ∧
      (¬(t.enc.out.length ≤ s.cfg.maxLen ∧ t.response.Fits s.cfg.maxLen) →
        step s = .refused .resultTooLong)) ∧
    ∀ r, exec i { s with port := rest } = .refused r → step s = .refused r

/-- DEC.STEP runs the decoded chunk: where the bytes of `dec.in` at `dec.ip` decode to a chunk, DEC.STEP is
that chunk's own meaning (44_decoder_fsm.md R202). -/
def Obligations.DecStepRunsDecodedChunk : Prop :=
  ∀ (s : State) (i : Instr) (rest : List Byte),
    s.dec.mode = .active → s.dec.ip < s.dec.input.length →
    decode .chunk (s.dec.input.drop s.dec.ip) = .ok (i, rest) → exec .decStep s = exec i s

/-- A step with no command: the host's writes land in the header register they name and nowhere else
(10_state.md R35), and with nothing on the port the block waits, which is the model's reading (log
entry 5). -/
def Obligations.StepWithoutCommand : Prop :=
  ∀ (s : State) (rest : List HostInput),
    (s.port = [] → step s = .next s) ∧
    (∀ w, s.port = .writeWidth w :: rest →
      step s = .next { s with hdr := { s.hdr with width := w }, port := rest }) ∧
    (∀ h, s.port = .writeHeight h :: rest →
      step s = .next { s with hdr := { s.hdr with height := h }, port := rest }) ∧
    (∀ c, s.port = .writeChannels c :: rest →
      step s = .next { s with hdr := { s.hdr with channels := c }, port := rest }) ∧
    (∀ c, s.port = .writeColorspace c :: rest →
      step s = .next { s with hdr := { s.hdr with colorspace := c }, port := rest })

/-- 20_memory.md R67 and 93_implementation_defined.md U6: a command is refused as too long exactly where one
of the sequences it carries has more than MAX_LEN elements: any byte sequence of any command
(`Instr.byteOperands` lists them), and FILE.ENCODE's pixel sequence. The record's form and the check at
the port are the model's (log entries 3 and 4). -/
def Obligations.OverlongOperandIsRefused : Prop :=
  ∀ (s : State) (record : List Byte) (rest : List HostInput) (i : Instr),
    s.port = .command record :: rest → decodeRecord record = .ok i →
    (step s = .refused .operandTooLong ↔
      (∃ bs, some bs ∈ i.byteOperands ∧ s.cfg.maxLen < bs.length) ∨
      ∃ w h channels colorspace ps,
        i = .fileEncode w h channels colorspace (some ps) ∧ s.cfg.maxLen < ps.length)

/-! ### Reset, the invariant and faults -/

/-- 10_state.md R40, its power-on part: both modes IDLE, every cause NONE, no byte of the output buffer holding
a value. The invariant holds there; the other registers' values, which it also speaks of, are the
model's choice (log entry 9). -/
def Obligations.PowerOnStateMeetsInvariant : Prop :=
  State.reset.Inv ∧ State.reset.enc.mode = .idle ∧ State.reset.dec.mode = .idle ∧
    State.reset.enc.cause = .none ∧ State.reset.dec.cause = .none ∧ State.reset.utilCause = .none ∧
    ∀ addr, State.reset.dec.out.read addr = none

/-- Every step keeps the invariant: the run counter's bound, both caches' soundness, the previous pixel's
slot, the size bound, the canonical and exactly written output buffer, the bounds of `dec.ip` and
`dec.op`, what DONE and FAULT mean, and MAX_LEN on `enc.out`, `dec.in` and every answer (10_state.md
R42, 43_encoder_fsm.md R185, 20_memory.md R67; log entry 4). -/
def Obligations.StepKeepsInvariant : Prop :=
  ∀ s t : State, s.Inv → step s = .next t → t.Inv

/-- Who writes what, over all instructions (10_state.md R20, R35, R36, R39): no instruction changes a parameter
or takes more than its own record off the port; ENC's registers are written by ENC's instructions and
FILE.ENCODE alone, DEC's by DEC's and FILE.DECODE alone, the header registers by HDR.PARSE, the HEADER
record and FILE.DECODE alone, and `util.cause` only by a command that answers with that fault. That
FILE.ENCODE writes no header register is the model's reading (log entry 17), that the HEADER record is
an instruction and writes them its choice (log entry 13). -/
def Obligations.OnlyTheirWritersChangeRegisters : Prop :=
  ∀ (i : Instr) (s t : State), exec i s = .next t →
    t.cfg = s.cfg ∧ t.port = s.port ∧
    (i.isEncoder = false → (∀ w h c k ps, i ≠ .fileEncode w h c k ps) → t.enc = s.enc) ∧
    (i.isDecoder = false → (∀ f, i ≠ .fileDecode f) → t.dec = s.dec) ∧
    ((∀ h, i ≠ .hdrParse h) → (∀ m w h c k, i ≠ .header m w h c k) → (∀ f, i ≠ .fileDecode f) →
      t.hdr = s.hdr) ∧
    (t.utilCause = s.utilCause ∨ t.response = .fault t.utilCause)

/-- 60_exceptions.md R254: whatever command faults, with whatever cause, in whatever state, the next state
is the fault entry of its unit and nothing else: no other register, no byte of memory. FILE.DECODE, a
composition whose earlier commands have had their effect, is the one exception (log entry 18). That
`util.cause` serves CODEC and FRAME too (log entry 7), and what a DEC.START without a stream leaves in
mode FAULT (log entry 8), are the model's reading. -/
def Obligations.FaultEntryWritesNothingElse : Prop :=
  ∀ (i : Instr) (s t : State) (c : Cause), exec i s = .next t → t.response = .fault c →
    (∀ f, i ≠ .fileDecode f) →
    t = if i.isEncoder then encFault s c else if i.isDecoder then decFault s c else utilFault s c

/-- 60_exceptions.md R256: the only way out of mode FAULT is a new START: every other instruction leaves
all registers of a faulted machine as they are. That a DEC.START without a stream stays in FAULT with
the cause NULL_OPERAND is the model's reading (log entry 8). -/
def Obligations.OnlyStartLeavesFault : Prop :=
  ∀ (i : Instr) (s t : State), exec i s = .next t →
    (s.enc.mode = .fault → i ≠ .encStart → (∀ w h c k ps, i ≠ .fileEncode w h c k ps) →
      t.enc = s.enc) ∧
    (s.dec.mode = .fault → (∀ bs w h, i ≠ .decStart bs w h) → (∀ f, i ≠ .fileDecode f) →
      t.dec = s.dec) ∧
    (s.dec.mode = .fault → ∀ w h, i = .decStart none w h → t = decFault s .nullOperand)

/-! ### Frames and isolation -/

/-- 40_byte_utilities.md R117 and 42_chunk_codecs.md (no function there reads or writes any register): every
command of UTIL, HASH and CODEC completes in every state, in any mode of ENC and DEC, with a result or
a fault that its operands alone decide, and leaves nothing behind but that. R117 says so of UTIL; that a
fault of HASH or CODEC goes to `util.cause` (log entry 7) and that CODEC.DEC_RUN writes nothing (log
entry 16) are the model's reading. -/
def Obligations.PureCommandsDependOnOperandsAlone : Prop :=
  ∀ i : Instr, i.isPure = true → ∃ r : Except Cause Response, ∀ s : State,
    exec i s = .next (match r with
      | .ok r => { s with response := r }
      | .error c => utilFault s c)

/-- The frame of ENC's commands and actions: no register of DEC, no header register, no `util.cause`; the
output only grows, by at most 6 bytes a step (10_state.md R26, 43_encoder_fsm.md R185); only
ENC.START, ENC.PIXEL and CACHE_UPDATE write a cache slot, and the last two only the slot of the
pixel's hash; a fault or an action leaves the pixel count. -/
def Obligations.EncoderFrame : Prop :=
  ∀ (i : Instr) (s t : State), i.isEncoder = true → exec i s = .next t →
    t.cfg = s.cfg ∧ t.dec = s.dec ∧ t.hdr = s.hdr ∧ t.utilCause = s.utilCause ∧ t.port = s.port ∧
    (i ≠ .encStart → (∃ bs, t.enc.out = s.enc.out ++ bs ∧ bs.length ≤ 6) ∧
      (t.enc.cache = s.enc.cache ∨
        ∃ px, (i = .encPixel px ∨ i = .cacheUpdate px) ∧ t.enc.cache.read (hash px) = px ∧
          ∀ slot, slot ≠ hash px → t.enc.cache.read slot = s.enc.cache.read slot) ∧
      (t.enc.pi = s.enc.pi ∨ ∃ px, i = .encPixel px ∧ t.enc.pi = s.enc.pi + 1))

/-- The frame of the chunks: no register of ENC, no header register, no `util.cause`, not the input and not
the pixel count; every byte of the output buffer outside the chunk's pixels reads as before; no cache
slot but the new pixel's, and none at all for INDEX and RUN (41_hash_and_cache.md R133). -/
def Obligations.ChunkFrame : Prop :=
  ∀ (c : Chunk) (s t : State), exec c.toInstr s = .next t →
    t.cfg = s.cfg ∧ t.enc = s.enc ∧ t.hdr = s.hdr ∧ t.utilCause = s.utilCause ∧ t.port = s.port ∧
    t.dec.input = s.dec.input ∧ t.dec.npix = s.dec.npix ∧
    (∀ addr, addr < 4 * s.dec.op ∨ 4 * (s.dec.op + c.pixels) ≤ addr →
      t.dec.out.read addr = s.dec.out.read addr) ∧
    (∀ slot, slot ≠ hash t.dec.prev → t.dec.cache.read slot = s.dec.cache.read slot) ∧
    ((∃ slot, c = .index slot) ∨ (∃ n, c = .run n) → t.dec.cache = s.dec.cache) ∧
    ((∃ n, c = .run n) → t.dec.prev = s.dec.prev)

/-- 10_state.md R20: ENC and DEC share nothing. What an encoder instruction answers and leaves in ENC
depends on ENC's registers and the parameters alone; what a decoder instruction answers and leaves in
DEC depends on DEC's registers and the parameters alone, and touches nothing of ENC. -/
def Obligations.EncoderAndDecoderShareNothing : Prop :=
  ∀ (i : Instr) (s s' t t' : State), exec i s = .next t → exec i s' = .next t' → s.cfg = s'.cfg →
    (i.isEncoder = true → s.enc = s'.enc → t.enc = t'.enc ∧ t.response = t'.response) ∧
    (i.isDecoder = true → s.dec = s'.dec → t.dec = t'.dec ∧ t.response = t'.response ∧ t.enc = s.enc)

/-! ### The chunks as DEC executes them -/

/-- 44_decoder_fsm.md R203: INDEX writes the slot's pixel, makes it the previous pixel, advances 1 byte and
does not update the cache. -/
def Obligations.IndexChunkResult : Prop :=
  ∀ (s : State) (slot : BitVec 6), s.dec.mode = .active → s.dec.ip + 1 ≤ s.dec.input.length →
    s.dec.op + 1 ≤ s.dec.npix →
    exec (.index slot) s = .next { s with
      dec := { s.dec with
        out := s.dec.out.writePixel s.dec.op (s.dec.cache.read slot)
        op := s.dec.op + 1
        prev := s.dec.cache.read slot
        ip := s.dec.ip + 1 }
      response := .done }

/-- 44_decoder_fsm.md R204: DIFF adds its deltas to the previous pixel's channels with wrap-around, carries
alpha over, and updates the cache at the new pixel's hash. -/
def Obligations.DiffChunkResult : Prop :=
  ∀ (s : State) (dr dg db : Int) (px : Pixel), s.dec.mode = .active →
    s.dec.ip + 1 ≤ s.dec.input.length → s.dec.op + 1 ≤ s.dec.npix →
    px = ⟨s.dec.prev.r + BitVec.ofInt 8 dr, s.dec.prev.g + BitVec.ofInt 8 dg,
          s.dec.prev.b + BitVec.ofInt 8 db, s.dec.prev.a⟩ →
    exec (.diff dr dg db) s = .next { s with
      dec := { s.dec with
        out := s.dec.out.writePixel s.dec.op px
        op := s.dec.op + 1
        prev := px
        cache := s.dec.cache.write (hash px) px
        ip := s.dec.ip + 1 }
      response := .done }

/-- 44_decoder_fsm.md R205: LUMA adds the green delta to green, and the green delta plus each second-order
delta to red and blue; it advances 2 bytes. -/
def Obligations.LumaChunkResult : Prop :=
  ∀ (s : State) (dg drDg dbDg : Int) (px : Pixel), s.dec.mode = .active →
    s.dec.ip + 2 ≤ s.dec.input.length → s.dec.op + 1 ≤ s.dec.npix →
    px = ⟨s.dec.prev.r + BitVec.ofInt 8 dg + BitVec.ofInt 8 drDg, s.dec.prev.g + BitVec.ofInt 8 dg,
          s.dec.prev.b + BitVec.ofInt 8 dg + BitVec.ofInt 8 dbDg, s.dec.prev.a⟩ →
    exec (.luma dg drDg dbDg) s = .next { s with
      dec := { s.dec with
        out := s.dec.out.writePixel s.dec.op px
        op := s.dec.op + 1
        prev := px
        cache := s.dec.cache.write (hash px) px
        ip := s.dec.ip + 2 }
      response := .done }

/-- 44_decoder_fsm.md R208: RUN writes `length` copies of the previous pixel at consecutive positions,
advances the output position by `length`, and changes neither the previous pixel nor the cache. -/
def Obligations.RunChunkResult : Prop :=
  ∀ (s : State) (length : Nat), s.dec.mode = .active → s.dec.ip + 1 ≤ s.dec.input.length →
    s.dec.op + length ≤ s.dec.npix →
    ∃ t, exec (.run length) s = .next t ∧
      t = { s with
        dec := { s.dec with out := t.dec.out, op := s.dec.op + length, ip := s.dec.ip + 1 }
        response := .done } ∧
      (∀ k, k < length → t.dec.out.readPixel (s.dec.op + k) = some s.dec.prev) ∧
      ∀ addr, addr < 4 * s.dec.op ∨ 4 * (s.dec.op + length) ≤ addr →
        t.dec.out.read addr = s.dec.out.read addr

/-- 44_decoder_fsm.md R206 and R207: RGB takes the three channels and carries alpha over, and advances 4 bytes;
RGBA takes all four, and advances 5 bytes. Both update the cache at the new pixel's hash. -/
def Obligations.RgbAndRgbaChunkResult : Prop :=
  ∀ (s : State) (r g b a : Byte) (px : Pixel), s.dec.mode = .active → s.dec.op + 1 ≤ s.dec.npix →
    (s.dec.ip + 4 ≤ s.dec.input.length → px = ⟨r, g, b, s.dec.prev.a⟩ →
      exec (.rgb r g b) s = .next { s with
        dec := { s.dec with
          out := s.dec.out.writePixel s.dec.op px
          op := s.dec.op + 1
          prev := px
          cache := s.dec.cache.write (hash px) px
          ip := s.dec.ip + 4 }
        response := .done }) ∧
    (s.dec.ip + 5 ≤ s.dec.input.length → px = ⟨r, g, b, a⟩ →
      exec (.rgba r g b a) s = .next { s with
        dec := { s.dec with
          out := s.dec.out.writePixel s.dec.op px
          op := s.dec.op + 1
          prev := px
          cache := s.dec.cache.write (hash px) px
          ip := s.dec.ip + 5 }
        response := .done })

/-! ### DEC -/

/-- 44_decoder_fsm.md R201: DEC.START, legal in every mode; an absent stream is NULL_OPERAND (in mode FAULT:
`OnlyStartLeavesFault`). -/
def Obligations.DecStartResult : Prop :=
  ∀ (s : State) (bytes : List Byte) (width height : Word),
    exec (.decStart (some bytes) width height) s = .next { s with
      dec := { prev := s.cfg.prevInit, cache := Vector.replicate 64 ⟨0, 0, 0, 0⟩, ip := 0, op := 0
               npix := width.toNat * height.toNat, mode := .active, input := bytes, out := []
               cause := .none }
      response := .done } ∧
    (s.dec.mode ≠ .fault → exec (.decStart none width height) s = .next (decFault s .nullOperand))

/-- 44_decoder_fsm.md R202, R209 and R211. The checks of DEC.STEP in their order: PROTOCOL outside a call or at
the end of the input; TRUNCATED_CHUNK where the chunk is not whole, also where its pixels would not
fit; PIXEL_OVERFLOW where they do not fit. A DEC.STEP that passes them completes: it moves `dec.ip` by
the chunk's length and `dec.op` by its pixels, both by at least one; the new previous pixel stands at
every position written, and nothing outside those positions changes. -/
def Obligations.DecStepResult : Prop :=
  ∀ (s : State) (b : Byte),
    (s.dec.mode ≠ .active ∨ s.dec.input.length ≤ s.dec.ip →
      exec .decStep s = .next (decFault s .protocol)) ∧
    (s.dec.mode = .active → s.dec.input[s.dec.ip]? = some b →
      (s.dec.input.length < s.dec.ip + chunkLength b →
        exec .decStep s = .next (decFault s .truncatedChunk)) ∧
      (s.dec.ip + chunkLength b ≤ s.dec.input.length → s.dec.npix < s.dec.op + chunkPixels b →
        exec .decStep s = .next (decFault s .pixelOverflow)) ∧
      (s.dec.ip + chunkLength b ≤ s.dec.input.length → s.dec.op + chunkPixels b ≤ s.dec.npix →
        ∃ t, exec .decStep s = .next t ∧ t.response = .done ∧ t.dec.mode = .active ∧
          t.dec.ip = s.dec.ip + chunkLength b ∧ t.dec.op = s.dec.op + chunkPixels b ∧
          1 ≤ chunkLength b ∧ 1 ≤ chunkPixels b ∧
          (∀ k, k < chunkPixels b → t.dec.out.readPixel (s.dec.op + k) = some t.dec.prev) ∧
          (∀ addr, addr < 4 * s.dec.op ∨ 4 * t.dec.op ≤ addr →
            t.dec.out.read addr = s.dec.out.read addr)))

/-- 44_decoder_fsm.md R210: DEC.FINISH completes exactly where the input is consumed and the pixel count
reached, and then only the mode changes; too few pixels are PIXEL_UNDERFLOW. -/
def Obligations.DecFinishResult : Prop :=
  ∀ s : State,
    (s.dec.mode = .active → s.dec.ip = s.dec.input.length → s.dec.op = s.dec.npix →
      exec .decFinish s = .next { s with
        dec := { s.dec with mode := .done }, response := .buffer s.dec.out }) ∧
    (s.dec.mode = .active → s.dec.ip = s.dec.input.length → s.dec.op ≠ s.dec.npix →
      exec .decFinish s = .next (decFault s .pixelUnderflow)) ∧
    (s.dec.mode ≠ .active ∨ s.dec.ip ≠ s.dec.input.length →
      exec .decFinish s = .next (decFault s .protocol))

/-- 30_encoding.md R92 and 44_decoder_fsm.md R213: DEC executes every valid stream, canonical or not: any
well-formed chunks whose pixels add up to width × height take the call to DONE, with every position of
the buffer written. -/
def Obligations.EveryValidStreamDecodes : Prop :=
  ∀ (s : State) (cs : List Chunk) (width height : Word),
    (∀ c ∈ cs, c.toInstr.wellFormed = true) →
    (cs.map Chunk.pixels).sum = width.toNat * height.toNat →
    ∃ t, execSeq (decodeCall (cs.flatMap Chunk.bytes) width height cs.length) s = .next t ∧
      t.dec.mode = .done ∧ t.dec.op = width.toNat * height.toNat ∧ t.response = .buffer t.dec.out ∧
      ∀ pos, pos < width.toNat * height.toNat → ∃ p, readDecOut t pos = .next p

/-- 70_reset_and_hazards.md R289 and 93_implementation_defined.md U9, U10: outputs are results only in mode
DONE; there, in every state that meets the invariant, every position of the buffer can be read, and a
position the buffer does not have cannot. -/
def Obligations.ResultsOnlyInDone : Prop :=
  ∀ s : State,
    (s.enc.mode ≠ .done → readEncOut s = .refused .noResult) ∧
    (s.enc.mode = .done → readEncOut s = .next s.enc.out) ∧
    (s.dec.mode ≠ .done → ∀ pos, readDecOut s pos = .refused .noResult) ∧
    (s.dec.mode = .done → s.dec.Inv → ∀ pos,
      (pos < s.dec.npix → ∃ p, readDecOut s pos = .next p) ∧
      (s.dec.npix ≤ pos → readDecOut s pos = .fault .outsideBuffer))

/-! ### ENC -/

/-- 43_encoder_fsm.md R171: ENC.START, legal in every mode. -/
def Obligations.EncStartResult : Prop :=
  ∀ s : State, exec .encStart s = .next { s with
    enc := { prev := s.cfg.prevInit, cache := Vector.replicate 64 ⟨0, 0, 0, 0⟩, run := 0, mode := .active
             pi := 0, out := [], cause := .none }
    response := .done }

/-- 43_encoder_fsm.md R173 and R174: a pixel equal to the previous one extends the run and emits nothing;
the 62nd emits the Run chunk `0xFD` in the same step and clears the counter. -/
def Obligations.EqualPixelExtendsTheRun : Prop :=
  ∀ s : State, s.enc.mode = .active →
    (s.enc.run + 1 < 62 → exec (.encPixel s.enc.prev) s = .next { s with
      enc := { s.enc with run := s.enc.run + 1, pi := s.enc.pi + 1 }, response := .done }) ∧
    (s.enc.run + 1 = 62 → exec (.encPixel s.enc.prev) s = .next { s with
      enc := { s.enc with run := 0, pi := s.enc.pi + 1, out := s.enc.out ++ [0xFD] }
      response := .done })

/-- 43_encoder_fsm.md R176: a pixel that differs from the previous one and hits the cache is an Index
chunk, after the pending run; the cache is not written. -/
def Obligations.CacheHitEmitsIndex : Prop :=
  ∀ (s : State) (px : Pixel), s.enc.mode = .active → s.enc.run ≤ 61 → px ≠ s.enc.prev →
    s.enc.cache.read (hash px) = px →
    exec (.encPixel px) s = .next { s with
      enc := { s.enc with
        prev := px, run := 0, pi := s.enc.pi + 1
        out := s.enc.out ++ pendingBytes s.enc.run ++ [(hash px).setWidth 8] }
      response := .done }

/-- 43_encoder_fsm.md R177 and R178: on a miss with unchanged alpha and all three deltas in -2..1, the cache
is written and a Diff chunk emitted. The deltas are 8-bit differences read as signed. -/
def Obligations.SmallDeltasEmitDiff : Prop :=
  ∀ (s : State) (px : Pixel) (dr dg db : Byte), s.enc.mode = .active → s.enc.run ≤ 61 →
    px ≠ s.enc.prev → s.enc.cache.read (hash px) ≠ px → px.a = s.enc.prev.a →
    dr = px.r - s.enc.prev.r → dg = px.g - s.enc.prev.g → db = px.b - s.enc.prev.b →
    (-2 ≤ dr.toInt ∧ dr.toInt ≤ 1 ∧ -2 ≤ dg.toInt ∧ dg.toInt ≤ 1 ∧ -2 ≤ db.toInt ∧ db.toInt ≤ 1) →
    exec (.encPixel px) s = .next { s with
      enc := { s.enc with
        prev := px, run := 0, pi := s.enc.pi + 1, cache := s.enc.cache.write (hash px) px
        out := s.enc.out ++ pendingBytes s.enc.run ++ [diffByte dr dg db] }
      response := .done }

/-- 43_encoder_fsm.md R179: on a miss with unchanged alpha, outside the Diff range, with the green delta in
-32..31 and both second-order deltas in -8..7, the cache is written and a Luma chunk emitted. -/
def Obligations.MediumDeltasEmitLuma : Prop :=
  ∀ (s : State) (px : Pixel) (dr dg db : Byte), s.enc.mode = .active → s.enc.run ≤ 61 →
    px ≠ s.enc.prev → s.enc.cache.read (hash px) ≠ px → px.a = s.enc.prev.a →
    dr = px.r - s.enc.prev.r → dg = px.g - s.enc.prev.g → db = px.b - s.enc.prev.b →
    ¬(-2 ≤ dr.toInt ∧ dr.toInt ≤ 1 ∧ -2 ≤ dg.toInt ∧ dg.toInt ≤ 1 ∧ -2 ≤ db.toInt ∧ db.toInt ≤ 1) →
    (-32 ≤ dg.toInt ∧ dg.toInt ≤ 31 ∧ -8 ≤ dr.toInt - dg.toInt ∧ dr.toInt - dg.toInt ≤ 7 ∧
      -8 ≤ db.toInt - dg.toInt ∧ db.toInt - dg.toInt ≤ 7) →
    exec (.encPixel px) s = .next { s with
      enc := { s.enc with
        prev := px, run := 0, pi := s.enc.pi + 1, cache := s.enc.cache.write (hash px) px
        out := s.enc.out ++ pendingBytes s.enc.run ++ [lumaByte0 dg, lumaByte1 dr dg db] }
      response := .done }

/-- 43_encoder_fsm.md R180: on a miss with unchanged alpha, outside the Diff and Luma ranges, the cache is
written and an RGB chunk emitted. -/
def Obligations.LargeDeltasEmitRgb : Prop :=
  ∀ (s : State) (px : Pixel) (dr dg db : Byte), s.enc.mode = .active → s.enc.run ≤ 61 →
    px ≠ s.enc.prev → s.enc.cache.read (hash px) ≠ px → px.a = s.enc.prev.a →
    dr = px.r - s.enc.prev.r → dg = px.g - s.enc.prev.g → db = px.b - s.enc.prev.b →
    ¬(-2 ≤ dr.toInt ∧ dr.toInt ≤ 1 ∧ -2 ≤ dg.toInt ∧ dg.toInt ≤ 1 ∧ -2 ≤ db.toInt ∧ db.toInt ≤ 1) →
    ¬(-32 ≤ dg.toInt ∧ dg.toInt ≤ 31 ∧ -8 ≤ dr.toInt - dg.toInt ∧ dr.toInt - dg.toInt ≤ 7 ∧
      -8 ≤ db.toInt - dg.toInt ∧ db.toInt - dg.toInt ≤ 7) →
    exec (.encPixel px) s = .next { s with
      enc := { s.enc with
        prev := px, run := 0, pi := s.enc.pi + 1, cache := s.enc.cache.write (hash px) px
        out := s.enc.out ++ pendingBytes s.enc.run ++ [0xFE, px.r, px.g, px.b] }
      response := .done }

/-- 43_encoder_fsm.md R181: on a miss with changed alpha, the cache is written and an RGBA chunk emitted. -/
def Obligations.AlphaChangeEmitsRgba : Prop :=
  ∀ (s : State) (px : Pixel), s.enc.mode = .active → s.enc.run ≤ 61 → px ≠ s.enc.prev →
    s.enc.cache.read (hash px) ≠ px → px.a ≠ s.enc.prev.a →
    exec (.encPixel px) s = .next { s with
      enc := { s.enc with
        prev := px, run := 0, pi := s.enc.pi + 1, cache := s.enc.cache.write (hash px) px
        out := s.enc.out ++ pendingBytes s.enc.run ++ [0xFF, px.r, px.g, px.b, px.a] }
      response := .done }

/-- 43_encoder_fsm.md R183: ENC.END flushes the pending run and completes the call; its result is the whole
stream. ENC.END, and ENC.PIXEL of any pixel, are PROTOCOL outside mode ACTIVE (R170, R172). -/
def Obligations.EncEndResult : Prop :=
  ∀ s : State,
    (s.enc.mode = .active → s.enc.run ≤ 61 →
      exec .encEnd s = .next { s with
        enc := { s.enc with mode := .done, run := 0, out := s.enc.out ++ pendingBytes s.enc.run }
        response := .bytes (s.enc.out ++ pendingBytes s.enc.run) }) ∧
    (s.enc.mode ≠ .active → exec .encEnd s = .next (encFault s .protocol) ∧
      ∀ px, exec (.encPixel px) s = .next (encFault s .protocol))

/-- The run actions in a call (43_encoder_fsm.md R173, R174, R175, R183). -/
def Obligations.RunActionsResult : Prop :=
  ∀ s : State, s.enc.mode = .active →
    (s.enc.run + 1 ≠ 62 → exec .runExtend s = .next { s with
      enc := { s.enc with run := s.enc.run + 1 }, response := .done }) ∧
    (s.enc.run + 1 = 62 → exec .runExtend s = .next { s with
      enc := { s.enc with run := 0, out := s.enc.out ++ [0xFD] }, response := .done }) ∧
    (exec .runFlushFull s = .next { s with
      enc := { s.enc with run := 0, out := s.enc.out ++ [0xFD] }, response := .done }) ∧
    (1 ≤ s.enc.run → s.enc.run ≤ 62 → exec .runFlushPending s = .next { s with
      enc := { s.enc with run := 0, out := s.enc.out ++ pendingBytes s.enc.run }, response := .done }) ∧
    (1 ≤ s.enc.run → s.enc.run ≤ 62 → exec .finalFlush s = .next { s with
      enc := { s.enc with run := 0, out := s.enc.out ++ pendingBytes s.enc.run }, response := .done })

/-- The emitting actions in a call append exactly the bytes of their format (43_encoder_fsm.md R176, R178 to
R181; 30_encoding.md R96) and write nothing else; deltas outside the format's range are PARAM_RANGE,
the chunk encoder's own precondition (42_chunk_codecs.md R143, R144). CACHE_UPDATE writes the slot of
the pixel's hash and PREV_ADVANCE the previous pixel; neither emits (R177, R182). -/
def Obligations.ChunkAndRegisterActionsResult : Prop :=
  ∀ (s : State) (slot : BitVec 6) (dr dg db : Int) (px : Pixel), s.enc.mode = .active →
    exec (.emitIndex slot) s = .next { s with
      enc := { s.enc with out := s.enc.out ++ [slot.setWidth 8] }, response := .done } ∧
    (diffRange dr dg db = true → exec (.emitDiff dr dg db) s = .next { s with
      enc := { s.enc with
        out := s.enc.out ++ [diffByte (BitVec.ofInt 8 dr) (BitVec.ofInt 8 dg) (BitVec.ofInt 8 db)] }
      response := .done }) ∧
    (diffRange dr dg db = false → exec (.emitDiff dr dg db) s = .next (encFault s .paramRange)) ∧
    (lumaRange dg (dr - dg) (db - dg) = true → exec (.emitLuma dr dg db) s = .next { s with
      enc := { s.enc with
        out := s.enc.out ++ [lumaByte0 (BitVec.ofInt 8 dg),
          lumaByte1 (BitVec.ofInt 8 dr) (BitVec.ofInt 8 dg) (BitVec.ofInt 8 db)] }
      response := .done }) ∧
    (lumaRange dg (dr - dg) (db - dg) = false →
      exec (.emitLuma dr dg db) s = .next (encFault s .paramRange)) ∧
    exec (.emitRgb px.r px.g px.b) s = .next { s with
      enc := { s.enc with out := s.enc.out ++ [0xFE, px.r, px.g, px.b] }, response := .done } ∧
    exec (.emitRgba px) s = .next { s with
      enc := { s.enc with out := s.enc.out ++ [0xFF, px.r, px.g, px.b, px.a] }, response := .done } ∧
    (∃ t, exec (.cacheUpdate px) s = .next t ∧
      t = { s with enc := { s.enc with cache := t.enc.cache }, response := .done } ∧
      t.enc.cache.read (hash px) = px ∧
      ∀ slot, slot ≠ hash px → t.enc.cache.read slot = s.enc.cache.read slot) ∧
    exec (.prevAdvance px) s = .next { s with enc := { s.enc with prev := px }, response := .done }

/-- 43_encoder_fsm.md R170 and R185: an encode call of any pixels, from any state, completes: ENC never
faults on pixel data. It counts every pixel and emits at most five bytes for each. That it also does so
past MAX_LEN pixels is the model's choice (log entry 21). -/
def Obligations.EveryEncodeCallCompletes : Prop :=
  ∀ (s : State) (ps : List Pixel), ∃ t, execSeq (encodeCall ps) s = .next t ∧ t.enc.mode = .done ∧
    t.enc.pi = ps.length ∧ t.enc.out.length ≤ 5 * ps.length ∧ t.response = .bytes t.enc.out

/-- 43_encoder_fsm.md R174: n pixels equal to PREV_INIT encode to full Run chunks of 62 and, for the rest,
one shorter Run chunk; 62 are exactly one chunk, 63 are Run(62) Run(1). -/
def Obligations.LongRunsAreSplit : Prop :=
  ∀ (s : State) (n : Nat), ∃ t, execSeq (encodeCall (List.replicate n s.cfg.prevInit)) s = .next t ∧
    t.enc.out = List.replicate (n / 62) 0xFD ++ pendingBytes (n % 62)

/-! ### UTIL and HASH -/

/-- 40_byte_utilities.md R110: element-wise comparison; different lengths and absent operands fault. -/
def Obligations.BytesEqualResult : Prop :=
  ∀ (s : State) (a b : List Byte) (x : Seq),
    (a.length = b.length → ∃ r, exec (.utilEq (some a) (some b)) s = .next { s with response := .bool r } ∧
      (r = true ↔ ∀ i, i < a.length → a[i]? = b[i]?)) ∧
    (a.length ≠ b.length → exec (.utilEq (some a) (some b)) s = .next (utilFault s .lenMismatch)) ∧
    exec (.utilEq none x) s = .next (utilFault s .nullOperand) ∧
    exec (.utilEq x none) s = .next (utilFault s .nullOperand)

/-- 40_byte_utilities.md R111 and R112: the big-endian value of exactly four bytes, and the four bytes of a
32-bit pattern, most significant first. -/
def Obligations.Be32Result : Prop :=
  ∀ (s : State) (b0 b1 b2 b3 : Byte) (bs : List Byte) (x : Word),
    exec (.utilBe32Unpack (some [b0, b1, b2, b3])) s = .next { s with
      response := .word (BitVec.ofNat 32
        (b0.toNat * 2 ^ 24 + b1.toNat * 2 ^ 16 + b2.toNat * 2 ^ 8 + b3.toNat)) } ∧
    (bs.length ≠ 4 → exec (.utilBe32Unpack (some bs)) s = .next (utilFault s .badLength)) ∧
    exec (.utilBe32Unpack none) s = .next (utilFault s .nullOperand) ∧
    exec (.utilBe32Pack x) s = .next { s with
      response := .bytes [((x >>> 24) &&& 0xFF).setWidth 8, ((x >>> 16) &&& 0xFF).setWidth 8,
        ((x >>> 8) &&& 0xFF).setWidth 8, (x &&& 0xFF).setWidth 8] }

/-- 40_byte_utilities.md R113: the two conversions undo each other. -/
def Obligations.Be32RoundTrip : Prop :=
  ∀ s : State,
    (∀ x, ∃ bs, exec (.utilBe32Pack x) s = .next { s with response := .bytes bs } ∧
      exec (.utilBe32Unpack (some bs)) s = .next { s with response := .word x }) ∧
    (∀ bs : List Byte, bs.length = 4 → ∃ x,
      exec (.utilBe32Unpack (some bs)) s = .next { s with response := .word x } ∧
      exec (.utilBe32Pack x) s = .next { s with response := .bytes bs })

/-- 40_byte_utilities.md R114: order-preserving concatenation, in both variants; an absent element faults.
The rule's bound MAX_LEN on the result is the step's (`StepRunsDecodedCommand`; log entry 4). -/
def Obligations.ConcatResult : Prop :=
  ∀ (s : State) (bs : List Byte) (ss : List (List Byte)) (xs : List Seq),
    exec (.utilConcat (.bytes bs)) s = .next { s with response := .bytes bs } ∧
    exec (.utilConcat (.seqs (ss.map some))) s = .next { s with response := .bytes ss.flatten } ∧
    (none ∈ xs → exec (.utilConcat (.seqs xs)) s = .next (utilFault s .nullOperand))

/-- 40_byte_utilities.md R115: the `length` bytes from `start`; anything outside the input is SLICE_RANGE. -/
def Obligations.ExtractResult : Prop :=
  ∀ (s : State) (input : List Byte) (start length : Int),
    (0 ≤ start → 0 ≤ length → start + length ≤ input.length → ∃ r,
      exec (.utilExtract (some input) start length) s = .next { s with response := .bytes r } ∧
      (r.length : Int) = length ∧ ∀ k, k < r.length → r[k]? = input[start.toNat + k]?) ∧
    (start < 0 ∨ length < 0 ∨ (input.length : Int) < start + length →
      exec (.utilExtract (some input) start length) s = .next (utilFault s .sliceRange)) ∧
    exec (.utilExtract none start length) s = .next (utilFault s .nullOperand)

/-- 40_byte_utilities.md R116: consecutive pieces of the given sizes, which concatenate back to the input; a
negative size is SLICE_RANGE, before a wrong sum, which is PARTITION_SUM. -/
def Obligations.PartitionResult : Prop :=
  ∀ (s : State) (input : List Byte) (sizes : List Int),
    ((∀ n ∈ sizes, 0 ≤ n) → sizes.sum = (input.length : Int) → ∃ ps,
      exec (.utilPartition (some input) sizes) s = .next { s with response := .pieces ps } ∧
      ps.map (fun p => (p.length : Int)) = sizes ∧ ps.flatten = input) ∧
    ((∃ n ∈ sizes, n < 0) →
      exec (.utilPartition (some input) sizes) s = .next (utilFault s .sliceRange)) ∧
    ((∀ n ∈ sizes, 0 ≤ n) → sizes.sum ≠ (input.length : Int) →
      exec (.utilPartition (some input) sizes) s = .next (utilFault s .partitionSum)) ∧
    exec (.utilPartition none sizes) s = .next (utilFault s .nullOperand)

/-- 41_hash_and_cache.md R130 and 00_scope.md R10: the slot is the weighted sum of the unsigned channels mod
64, and reading the channels as signed gives the same slot under the floor remainder. -/
def Obligations.HashResult : Prop :=
  ∀ (s : State) (p : Pixel), ∃ h, exec (.hash p) s = .next { s with response := .slot h } ∧
    h.toNat = (3 * p.r.toNat + 5 * p.g.toNat + 7 * p.b.toNat + 11 * p.a.toNat) % 64 ∧
    (h.toNat : Int) = (3 * p.r.toInt + 5 * p.g.toInt + 7 * p.b.toInt + 11 * p.a.toInt) % 64

/-! ### CODEC -/

/-- 42_chunk_codecs.md R140 to R142 and R145: the standalone encoders of RGB, RGBA, Index and Run. That
their faults are reported in `util.cause` is the model's reading (log entry 7). -/
def Obligations.PlainChunkEncodersResult : Prop :=
  ∀ (s : State) (p : Pixel) (v : Byte),
    exec (.encRgb (some p)) s = .next { s with response := .bytes [0xFE, p.r, p.g, p.b] } ∧
    exec (.encRgba (some p)) s = .next { s with response := .bytes [0xFF, p.r, p.g, p.b, p.a] } ∧
    exec (.encRgb none) s = .next (utilFault s .nullOperand) ∧
    exec (.encRgba none) s = .next (utilFault s .nullOperand) ∧
    (v.toNat ≤ 63 → exec (.encIndex v) s = .next { s with response := .bytes [v] }) ∧
    (63 < v.toNat → exec (.encIndex v) s = .next (utilFault s .paramRange)) ∧
    (1 ≤ v.toNat → v.toNat ≤ 62 →
      exec (.encRun v) s = .next { s with response := .bytes [0xC0 ||| (v - 1)] }) ∧
    (v.toNat = 0 ∨ 62 < v.toNat → exec (.encRun v) s = .next (utilFault s .paramRange))

/-- 42_chunk_codecs.md R143 and R144: the standalone encoders of Diff and Luma, with the ports read as
signed and the bytes in the rules' own form; any delta outside its range is PARAM_RANGE, reported in
`util.cause` by the model's reading (log entry 7). -/
def Obligations.DeltaChunkEncodersResult : Prop :=
  ∀ (s : State) (dr dg db : Byte),
    ((-2 ≤ dr.toInt ∧ dr.toInt ≤ 1) ∧ (-2 ≤ dg.toInt ∧ dg.toInt ≤ 1) ∧ (-2 ≤ db.toInt ∧ db.toInt ≤ 1) →
      exec (.encDiff dr dg db) s = .next { s with response := .bytes [diffByte dr dg db] }) ∧
    (¬((-2 ≤ dr.toInt ∧ dr.toInt ≤ 1) ∧ (-2 ≤ dg.toInt ∧ dg.toInt ≤ 1) ∧
        (-2 ≤ db.toInt ∧ db.toInt ≤ 1)) →
      exec (.encDiff dr dg db) s = .next (utilFault s .paramRange)) ∧
    ((-32 ≤ dg.toInt ∧ dg.toInt ≤ 31) ∧ (-8 ≤ dr.toInt - dg.toInt ∧ dr.toInt - dg.toInt ≤ 7) ∧
        (-8 ≤ db.toInt - dg.toInt ∧ db.toInt - dg.toInt ≤ 7) →
      exec (.encLuma dr dg db) s =
        .next { s with response := .bytes [lumaByte0 dg, lumaByte1 dr dg db] }) ∧
    (¬((-32 ≤ dg.toInt ∧ dg.toInt ≤ 31) ∧ (-8 ≤ dr.toInt - dg.toInt ∧ dr.toInt - dg.toInt ≤ 7) ∧
        (-8 ≤ db.toInt - dg.toInt ∧ db.toInt - dg.toInt ≤ 7)) →
      exec (.encLuma dr dg db) s = .next (utilFault s .paramRange))

/-- 42_chunk_codecs.md R146 and R147: the standalone decoders of RGB and RGBA take the payload only. Where
one operand is absent and the other has a wrong length, that the absence is reported (log entry 15), and
that it is reported in `util.cause` (log entry 7), are the model's reading. -/
def Obligations.RawChunkDecodersResult : Prop :=
  ∀ (s : State) (prev : Pixel) (r g b a : Byte) (bs : List Byte) (x : Seq) (y : Option Pixel),
    exec (.decRgb (some prev) (some [r, g, b])) s = .next { s with response := .pixel ⟨r, g, b, prev.a⟩ } ∧
    (bs.length ≠ 3 → exec (.decRgb (some prev) (some bs)) s = .next (utilFault s .badLength)) ∧
    exec (.decRgb none x) s = .next (utilFault s .nullOperand) ∧
    exec (.decRgb y none) s = .next (utilFault s .nullOperand) ∧
    exec (.decRgba (some [r, g, b, a])) s = .next { s with response := .pixel ⟨r, g, b, a⟩ } ∧
    (bs.length ≠ 4 → exec (.decRgba (some bs)) s = .next (utilFault s .badLength)) ∧
    exec (.decRgba none) s = .next (utilFault s .nullOperand)

/-- 42_chunk_codecs.md R148, R149 and R150: the standalone decoders of Diff, Luma and Run add the unbiased
fields with 8-bit wrap-around, or replicate; a wrong tag is BAD_TAG, for Run also `0xFE` and `0xFF`; an
absent operand is NULL_OPERAND (R118). Where several conditions fail, that absence comes before length
and length before tag (log entry 15), that faults are reported in `util.cause` (log entry 7), and that
Run answers position and copies and writes nothing (log entry 16), are the model's reading. -/
def Obligations.TaggedChunkDecodersResult : Prop :=
  ∀ (s : State) (prev : Pixel) (b b1 : Byte) (bs : List Byte) (pos : Nat) (x : Seq) (y : Option Pixel),
    exec (.decDiff none b) s = .next (utilFault s .nullOperand) ∧
    exec (.decLuma none x) s = .next (utilFault s .nullOperand) ∧
    exec (.decLuma y none) s = .next (utilFault s .nullOperand) ∧
    exec (.decRun none b pos) s = .next (utilFault s .nullOperand) ∧
    (b >>> 6 = 1 → exec (.decDiff (some prev) b) s = .next { s with
      response := .pixel ⟨prev.r + (((b >>> 4) &&& 3) - 2), prev.g + (((b >>> 2) &&& 3) - 2), prev.b + ((b &&& 3) - 2),
        prev.a⟩ }) ∧
    (b >>> 6 ≠ 1 → exec (.decDiff (some prev) b) s = .next (utilFault s .badTag)) ∧
    (b >>> 6 = 2 → exec (.decLuma (some prev) (some [b, b1])) s = .next { s with
      response := .pixel ⟨prev.r + (((b &&& 0x3F) - 32) + ((b1 >>> 4) - 8)), prev.g + ((b &&& 0x3F) - 32),
        prev.b + (((b &&& 0x3F) - 32) + ((b1 &&& 0xF) - 8)), prev.a⟩ }) ∧
    (b >>> 6 ≠ 2 → exec (.decLuma (some prev) (some [b, b1])) s = .next (utilFault s .badTag)) ∧
    (bs.length ≠ 2 → exec (.decLuma (some prev) (some bs)) s = .next (utilFault s .badLength)) ∧
    (b >>> 6 = 3 → b ≠ 0xFE → b ≠ 0xFF → exec (.decRun (some prev) b pos) s = .next { s with
      response := .placed pos (List.replicate ((b &&& 0x3F).toNat + 1) prev) }) ∧
    (b >>> 6 ≠ 3 ∨ b = 0xFE ∨ b = 0xFF →
      exec (.decRun (some prev) b pos) s = .next (utilFault s .badTag))

/-- 42_chunk_codecs.md R152: each standalone decoder undoes its encoder, and the Index chunk of a slot names
that slot. -/
def Obligations.ChunkCodecsAreInverse : Prop :=
  ∀ (s : State) (prev px : Pixel),
    (px.a = prev.a → diffRange (delta px.r prev.r) (delta px.g prev.g) (delta px.b prev.b) = true → ∃ b,
      exec (.encDiff (px.r - prev.r) (px.g - prev.g) (px.b - prev.b)) s =
        .next { s with response := .bytes [b] } ∧
      exec (.decDiff (some prev) b) s = .next { s with response := .pixel px }) ∧
    (px.a = prev.a → lumaRange (delta px.g prev.g) (delta px.r prev.r - delta px.g prev.g)
        (delta px.b prev.b - delta px.g prev.g) = true → ∃ b0 b1,
      exec (.encLuma (px.r - prev.r) (px.g - prev.g) (px.b - prev.b)) s =
        .next { s with response := .bytes [b0, b1] } ∧
      exec (.decLuma (some prev) (some [b0, b1])) s = .next { s with response := .pixel px }) ∧
    (px.a = prev.a → ∃ t q, exec (.encRgb (some px)) s = .next { s with response := .bytes (t :: q) } ∧
      exec (.decRgb (some prev) (some q)) s = .next { s with response := .pixel px }) ∧
    (∃ t q, exec (.encRgba (some px)) s = .next { s with response := .bytes (t :: q) } ∧
      exec (.decRgba (some q)) s = .next { s with response := .pixel px }) ∧
    (∀ count pos, 1 ≤ count.toNat → count.toNat ≤ 62 → ∃ b,
      exec (.encRun count) s = .next { s with response := .bytes [b] } ∧
      exec (.decRun (some px) b pos) s =
        .next { s with response := .placed pos (List.replicate count.toNat px) }) ∧
    (∀ slot : BitVec 6, ∃ bs, exec (.encIndex (slot.setWidth 8)) s = .next { s with response := .bytes bs } ∧
      decodeChunk bs = .ok (.index slot, []))

/-! ### FRAME -/

/-- 45_framing.md R230: HDR.BUILD emits MAGIC and the header registers, or reports channels, then color
space; it writes no register. That a fault is reported in `util.cause` is the model's reading (log
entry 7). -/
def Obligations.HdrBuildResult : Prop :=
  ∀ s : State,
    ((s.hdr.channels = 3 ∨ s.hdr.channels = 4) → (s.hdr.colorspace = 0 ∨ s.hdr.colorspace = 1) →
      exec .hdrBuild s = .next { s with response := .bytes (s.cfg.magic.toList ++
        fromUint32BE s.hdr.width ++ fromUint32BE s.hdr.height ++ [s.hdr.channels] ++
        [s.hdr.colorspace]) }) ∧
    (s.hdr.channels ≠ 3 → s.hdr.channels ≠ 4 → exec .hdrBuild s = .next (utilFault s .badChannels)) ∧
    ((s.hdr.channels = 3 ∨ s.hdr.channels = 4) → s.hdr.colorspace ≠ 0 → s.hdr.colorspace ≠ 1 →
      exec .hdrBuild s = .next (utilFault s .badColorspace))

/-- 45_framing.md R231: HDR.PARSE of 14 bytes writes the four header registers, or reports length, magic,
channels, color space, in that order, and then writes none. That a fault is reported in `util.cause` is
the model's reading (log entry 7). -/
def Obligations.HdrParseResult : Prop :=
  ∀ (s : State) (m w h : List Byte) (channels colorspace : Byte) (bs : List Byte),
    m.length = 4 → w.length = 4 → h.length = 4 →
    (m = s.cfg.magic.toList → (channels = 3 ∨ channels = 4) → (colorspace = 0 ∨ colorspace = 1) →
      exec (.hdrParse (some (m ++ w ++ h ++ [channels, colorspace]))) s = .next { s with
        hdr := ⟨toUint32BE w, toUint32BE h, channels, colorspace⟩
        response := .header ⟨toUint32BE w, toUint32BE h, channels, colorspace⟩ }) ∧
    (m ≠ s.cfg.magic.toList →
      exec (.hdrParse (some (m ++ w ++ h ++ [channels, colorspace]))) s = .next (utilFault s .badMagic)) ∧
    (m = s.cfg.magic.toList → channels ≠ 3 → channels ≠ 4 →
      exec (.hdrParse (some (m ++ w ++ h ++ [channels, colorspace]))) s =
        .next (utilFault s .badChannels)) ∧
    (m = s.cfg.magic.toList → (channels = 3 ∨ channels = 4) → colorspace ≠ 0 → colorspace ≠ 1 →
      exec (.hdrParse (some (m ++ w ++ h ++ [channels, colorspace]))) s =
        .next (utilFault s .badColorspace)) ∧
    (bs.length ≠ 14 → exec (.hdrParse (some bs)) s = .next (utilFault s .badHeaderLen)) ∧
    exec (.hdrParse none) s = .next (utilFault s .nullOperand)

/-- 45_framing.md R232: a header that builds parses back to the same registers, and a header that parses
builds back to the same bytes. -/
def Obligations.HeaderRoundTrip : Prop :=
  ∀ s t : State, s.cfg = t.cfg →
    (∀ bs, exec .hdrBuild s = .next { s with response := .bytes bs } →
      ∃ u, exec (.hdrParse (some bs)) t = .next u ∧ u.response = .header s.hdr ∧ u.hdr = s.hdr) ∧
    (∀ bs u h, exec (.hdrParse (some bs)) t = .next u → u.response = .header h →
      exec .hdrBuild u = .next { u with response := .bytes bs })

/-- The two file records as instructions: a HEADER record with this machine's magic and legal fields writes
the header registers, any other faults as HDR.PARSE of its bytes does (30_encoding.md R87, 45_framing.md
R231); an END_MARKER record passes exactly
where it equals END_MARKER, and then changes nothing but the response (R88, R234). That these records
have a meaning of their own is the model's choice (log entry 13), that their faults are reported in
`util.cause` its reading (log entry 7). -/
def Obligations.FileRecordsResult : Prop :=
  ∀ (s : State) (m : Vector Byte 4) (w h : Word) (channels colorspace : Byte) (e : Vector Byte 8),
    ((channels = 3 ∨ channels = 4) → (colorspace = 0 ∨ colorspace = 1) →
      exec (.header s.cfg.magic w h channels colorspace) s = .next { s with
        hdr := ⟨w, h, channels, colorspace⟩, response := .header ⟨w, h, channels, colorspace⟩ }) ∧
    (m ≠ s.cfg.magic → exec (.header m w h channels colorspace) s = .next (utilFault s .badMagic)) ∧
    (channels ≠ 3 → channels ≠ 4 →
      exec (.header s.cfg.magic w h channels colorspace) s = .next (utilFault s .badChannels)) ∧
    ((channels = 3 ∨ channels = 4) → colorspace ≠ 0 → colorspace ≠ 1 →
      exec (.header s.cfg.magic w h channels colorspace) s = .next (utilFault s .badColorspace)) ∧
    exec (.endMarker s.cfg.endMarker) s = .next { s with response := .done } ∧
    (e ≠ s.cfg.endMarker → exec (.endMarker e) s = .next (utilFault s .badEndMarker))

/-- 45_framing.md R233: FILE.ENCODE runs the encode call and answers header, stream and end marker; it
leaves DEC, the header registers and `util.cause` as they are. Its faults come in the order channels,
color space, pixel count. That an absent pixel sequence faults before all of them (log entry 15), that
the header registers stay as they are (log entry 17), and that faults are reported in `util.cause` (log
entry 7), are the model's reading. -/
def Obligations.FileEncodeResult : Prop :=
  ∀ (s : State) (w h : Word) (channels colorspace : Byte) (ps : List Pixel),
    ((channels = 3 ∨ channels = 4) → (colorspace = 0 ∨ colorspace = 1) →
      ps.length = w.toNat * h.toNat →
      ∃ t, execSeq (encodeCall ps) s = .next t ∧
        exec (.fileEncode w h channels colorspace (some ps)) s = .next { s with
          enc := t.enc
          response := .bytes (s.cfg.magic.toList ++ fromUint32BE w ++ fromUint32BE h ++ [channels] ++
            [colorspace] ++ t.enc.out ++ s.cfg.endMarker.toList) }) ∧
    exec (.fileEncode w h channels colorspace none) s = .next (utilFault s .nullOperand) ∧
    (channels ≠ 3 → channels ≠ 4 →
      exec (.fileEncode w h channels colorspace (some ps)) s = .next (utilFault s .badChannels)) ∧
    ((channels = 3 ∨ channels = 4) → colorspace ≠ 0 → colorspace ≠ 1 →
      exec (.fileEncode w h channels colorspace (some ps)) s = .next (utilFault s .badColorspace)) ∧
    ((channels = 3 ∨ channels = 4) → (colorspace = 0 ∨ colorspace = 1) →
      ps.length ≠ w.toNat * h.toNat →
      exec (.fileEncode w h channels colorspace (some ps)) s = .next (utilFault s .dimMismatchEnc))

/-- 45_framing.md R234, the checks before the first chunk, in their order: absent file, too short for an end
marker, a wrong end marker, too short for a header, a wrong magic, channel count or color space. That
these faults write `util.cause` (log entry 7) and nothing else (log entry 18) is the model's reading. -/
def Obligations.FileDecodeChecksTheFrame : Prop :=
  ∀ (s : State) (f body e : List Byte),
    exec (.fileDecode none) s = .next (utilFault s .nullOperand) ∧
    (f.length < 8 → exec (.fileDecode (some f)) s = .next (utilFault s .badEndMarker)) ∧
    (e.length = 8 → e ≠ s.cfg.endMarker.toList →
      exec (.fileDecode (some (body ++ e))) s = .next (utilFault s .badEndMarker)) ∧
    (body.length < 14 →
      exec (.fileDecode (some (body ++ s.cfg.endMarker.toList))) s = .next (utilFault s .badHeaderLen)) ∧
    (14 ≤ body.length → body.take 4 ≠ s.cfg.magic.toList →
      exec (.fileDecode (some (body ++ s.cfg.endMarker.toList))) s = .next (utilFault s .badMagic)) ∧
    (14 ≤ body.length → body.take 4 = s.cfg.magic.toList →
      body[12]? ≠ some 3 → body[12]? ≠ some 4 →
      exec (.fileDecode (some (body ++ s.cfg.endMarker.toList))) s =
        .next (utilFault s .badChannels)) ∧
    (14 ≤ body.length → body.take 4 = s.cfg.magic.toList →
      (body[12]? = some 3 ∨ body[12]? = some 4) → body[13]? ≠ some 0 → body[13]? ≠ some 1 →
      exec (.fileDecode (some (body ++ s.cfg.endMarker.toList))) s =
        .next (utilFault s .badColorspace))

/-- 45_framing.md R234: FILE.DECODE of a file with this machine's magic and end marker and legal header
fields. Where the chunk stream parses and its pixels are width × height in number it completes: DEC is
DONE, the header registers hold the file's header, and the result is the whole buffer with the four
header fields. Where they are fewer it faults PIXEL_UNDERFLOW and where they are more PIXEL_OVERFLOW,
in DEC, whose cause and mode say so. Where the stream ends inside a chunk, and the chunks before it fit,
it faults TRUNCATED_CHUNK, and DEC is as DEC.START and one DEC.STEP for each whole chunk leave it but
for mode and cause: the earlier chunks are committed, the last not at all (60_exceptions.md R255). That
the header registers keep the file's header after such a fault, and `util.cause` its value, is the
model's reading (log entry 18). -/
def Obligations.FileDecodeResult : Prop :=
  ∀ (s : State) (w h : Word) (channels colorspace : Byte) (cs : List Chunk),
    (channels = 3 ∨ channels = 4) → (colorspace = 0 ∨ colorspace = 1) →
    (∀ c ∈ cs, c.toInstr.wellFormed = true) →
    (∃ t, exec (.fileDecode (some (s.cfg.magic.toList ++ fromUint32BE w ++ fromUint32BE h ++ [channels] ++
          [colorspace] ++ cs.flatMap Chunk.bytes ++ s.cfg.endMarker.toList))) s = .next t ∧
      t.hdr = ⟨w, h, channels, colorspace⟩ ∧ t.enc = s.enc ∧ t.utilCause = s.utilCause ∧
      ((cs.map Chunk.pixels).sum = w.toNat * h.toNat →
        t.dec.mode = .done ∧ t.dec.op = w.toNat * h.toNat ∧
        t.response = .image t.dec.out ⟨w, h, channels, colorspace⟩ ∧
        ∀ pos, pos < w.toNat * h.toNat → ∃ p, readDecOut t pos = .next p) ∧
      ((cs.map Chunk.pixels).sum < w.toNat * h.toNat →
        t.dec.mode = .fault ∧ t.dec.cause = .pixelUnderflow ∧ t.response = .fault .pixelUnderflow) ∧
      (w.toNat * h.toNat < (cs.map Chunk.pixels).sum →
        t.dec.mode = .fault ∧ t.dec.cause = .pixelOverflow ∧ t.response = .fault .pixelOverflow)) ∧
    ∀ (b : Byte) (cut : List Byte), cut.length + 1 < chunkLength b →
      (cs.map Chunk.pixels).sum ≤ w.toNat * h.toNat →
      ∃ u t,
        execSeq (.decStart (some (cs.flatMap Chunk.bytes ++ b :: cut)) w h ::
          List.replicate cs.length .decStep) s = .next u ∧
        u.dec.ip = (cs.flatMap Chunk.bytes).length ∧ u.dec.op = (cs.map Chunk.pixels).sum ∧
        exec (.fileDecode (some (s.cfg.magic.toList ++ fromUint32BE w ++ fromUint32BE h ++ [channels] ++
          [colorspace] ++ (cs.flatMap Chunk.bytes ++ b :: cut) ++ s.cfg.endMarker.toList))) s = .next t ∧
        t.dec = { u.dec with mode := .fault, cause := .truncatedChunk } ∧
        t.response = .fault .truncatedChunk ∧ t.hdr = ⟨w, h, channels, colorspace⟩ ∧ t.enc = s.enc ∧
        t.utilCause = s.utilCause

/-! ### Round trips -/

/-- 44_decoder_fsm.md R212: whatever the pixels and whatever PREV_INIT, DEC run on the stream ENC produced
reaches DONE and its buffer holds exactly those pixels. 41_hash_and_cache.md R134 at the end of the
call: both machines then hold the same previous pixel and the same color cache. -/
def Obligations.StreamRoundTrip : Prop :=
  ∀ (s : State) (ps : List Pixel) (w h : Word), ps.length = w.toNat * h.toNat →
    ∃ t k u, execSeq (encodeCall ps) s = .next t ∧ t.enc.mode = .done ∧
      execSeq (decodeCall t.enc.out w h k) t = .next u ∧ u.dec.mode = .done ∧ u.dec.out.Holds ps ∧
      u.dec.prev = t.enc.prev ∧ u.dec.cache = t.enc.cache

/-- 45_framing.md R235: for every image, FILE.DECODE of the file that FILE.ENCODE answers gives the same
pixels, width, height, channel count and color space. -/
def Obligations.FileRoundTrip : Prop :=
  ∀ (s : State) (w h : Word) (channels colorspace : Byte) (ps : List Pixel),
    (channels = 3 ∨ channels = 4) → (colorspace = 0 ∨ colorspace = 1) → ps.length = w.toNat * h.toNat →
    ∃ t f u out, exec (.fileEncode w h channels colorspace (some ps)) s = .next t ∧
      t.response = .bytes f ∧ exec (.fileDecode (some f)) t = .next u ∧
      u.response = .image out ⟨w, h, channels, colorspace⟩ ∧ out.Holds ps
end

