-- ==== Sys2Proof/Laws/Bytes.lean ====
section
/-! SUPPORT. Laws/Bytes.lean: big-endian conversion is a bijection, and each operand reader of a port
record gives back what its writer wrote. -/

namespace Sys2Proof

/-! ### Big-endian numbers -/

@[simp] theorem natBE_length (k x : Nat) : (natBE k x).length = k := by
  induction k with
  | zero => rfl
  | succ k ih => simp [natBE, ih]

theorem beNat_foldl (bs : List Byte) (acc : Nat) :
    bs.foldl (fun acc b => acc * 256 + b.toNat) acc = acc * 256 ^ bs.length + beNat bs := by
  induction bs generalizing acc with
  | nil => simp [beNat]
  | cons b bs ih =>
    simp only [beNat, List.foldl_cons, List.length_cons]
    rw [ih, ih (0 * 256 + b.toNat)]
    ring

@[simp] theorem beNat_nil : beNat [] = 0 := rfl

theorem beNat_cons (b : Byte) (bs : List Byte) : beNat (b :: bs) = b.toNat * 256 ^ bs.length + beNat bs := by
  simpa [beNat] using beNat_foldl bs b.toNat

/-- What `k` bytes keep of a number. -/
theorem beNat_natBE (k x : Nat) : beNat (natBE k x) = x % 256 ^ k := by
  induction k with
  | zero => simp [natBE, Nat.mod_one]
  | succ k ih =>
    rw [natBE, beNat_cons, ih, natBE_length, BitVec.toNat_ofNat, Nat.pow_succ 256, Nat.mod_mul,
      show (2 : Nat) ^ 8 = 256 from rfl, Nat.mul_comm, Nat.add_comm]

theorem beNat_lt (bs : List Byte) : beNat bs < 256 ^ bs.length := by
  induction bs with
  | nil => simp
  | cons b bs ih =>
    rw [beNat_cons, List.length_cons, Nat.pow_succ]
    have : b.toNat + 1 ≤ 256 := b.isLt
    calc b.toNat * 256 ^ bs.length + beNat bs < b.toNat * 256 ^ bs.length + 256 ^ bs.length := by omega
      _ = (b.toNat + 1) * 256 ^ bs.length := by ring
      _ ≤ 256 * 256 ^ bs.length := Nat.mul_le_mul_right _ this
      _ = 256 ^ bs.length * 256 := Nat.mul_comm _ _

theorem natBE_add (k x y : Nat) : natBE k (y * 256 ^ k + x) = natBE k x := by
  induction k generalizing y with
  | zero => rfl
  | succ k ih =>
    rw [natBE, natBE]
    congr 1
    · apply BitVec.eq_of_toNat_eq
      rw [BitVec.toNat_ofNat, BitVec.toNat_ofNat, Nat.pow_succ,
        show y * (256 ^ k * 256) + x = x + 256 ^ k * (256 * y) by ring,
        Nat.add_mul_div_left _ _ (Nat.pow_pos (by omega))]
      omega
    · rw [Nat.pow_succ, show y * (256 ^ k * 256) + x = (y * 256) * 256 ^ k + x by ring, ih]

/-- The bytes of the number a sequence holds are that sequence. -/
theorem natBE_beNat (bs : List Byte) : natBE bs.length (beNat bs) = bs := by
  induction bs with
  | nil => rfl
  | cons b bs ih =>
    rw [List.length_cons, natBE, beNat_cons, natBE_add, ih,
      Nat.add_comm, Nat.add_mul_div_right _ _ (Nat.pow_pos (by omega)), Nat.div_eq_of_lt (beNat_lt bs)]
    simp

@[simp] theorem fromUint32BE_length (x : Word) : (fromUint32BE x).length = 4 := natBE_length _ _

@[simp] theorem toUint32BE_fromUint32BE (x : Word) : toUint32BE (fromUint32BE x) = x := by
  have h := x.isLt
  apply BitVec.eq_of_toNat_eq
  rw [toUint32BE, fromUint32BE, beNat_natBE, BitVec.toNat_ofNat]
  omega

theorem fromUint32BE_toUint32BE (bs : List Byte) (h : bs.length = 4) :
    fromUint32BE (toUint32BE bs) = bs := by
  have hlt := beNat_lt bs
  have hbs := natBE_beNat bs
  rw [h] at hlt hbs
  rw [fromUint32BE, toUint32BE, BitVec.toNat_ofNat, Nat.mod_eq_of_lt (by omega), hbs]

/-! ### The operand readers -/

theorem readBytes_append (bs rest : List Byte) : readBytes bs.length (bs ++ rest) = .ok (bs, rest) := by
  simp [readBytes]

@[simp] theorem readNat_append (n : Nat) (rest : List Byte) (h : n < 2 ^ 64) :
    readNat (natBE 8 n ++ rest) = .ok (n, rest) := by
  have := readBytes_append (natBE 8 n) rest
  rw [natBE_length] at this
  simp [readNat, this, bind, Except.bind, beNat_natBE]
  omega

theorem readInt_append (x : Int) (rest : List Byte) (h : intFits x = true) :
    readInt (intBytes x ++ rest) = .ok (x, rest) := by
  simp only [intFits, inRange, Bool.and_eq_true, decide_eq_true_eq] at h
  have hlt : (x % 2 ^ 64).toNat < 2 ^ 64 := by omega
  simp only [readInt, intBytes, readNat_append _ _ hlt, bind, Except.bind]
  congr 2
  split <;> omega

@[simp] theorem readWord_append (x : Word) (rest : List Byte) :
    readWord (fromUint32BE x ++ rest) = .ok (x, rest) := by
  have := readBytes_append (fromUint32BE x) rest
  rw [fromUint32BE_length] at this
  simp only [readWord, this, bind, Except.bind]
  congr 2
  apply BitVec.eq_of_toNat_eq
  have := x.isLt
  simp [toUint32BE, fromUint32BE, beNat_natBE]
  omega

@[simp] theorem readPixel_append (p : Pixel) (rest : List Byte) :
    readPixel (p.flat ++ rest) = .ok (p, rest) := rfl

@[simp] theorem readByte_cons (b : Byte) (rest : List Byte) : readByte (b :: rest) = .ok (b, rest) := rfl

theorem readOpt_append {α : Type} (p : Reader α) (f : α → List Byte) (x : Option α) (rest : List Byte)
    (h : ∀ y, x = some y → p (f y ++ rest) = .ok (y, rest)) :
    readOpt p (optBytes f x ++ rest) = .ok (x, rest) := by
  cases x with
  | none => simp [optBytes, readOpt]
  | some y => simp [optBytes, readOpt, h y rfl]

theorem readMany_append {α : Type} (p : Reader α) (f : α → List Byte) (xs : List α) (rest : List Byte)
    (h : ∀ x ∈ xs, ∀ rest, p (f x ++ rest) = .ok (x, rest)) :
    readMany p xs.length (xs.flatMap f ++ rest) = .ok (xs, rest) := by
  induction xs with
  | nil => rfl
  | cons x xs ih =>
    simp only [List.length_cons, List.flatMap_cons, List.append_assoc, readMany,
      h x List.mem_cons_self, bind, Except.bind, ih (fun y hy => h y (List.mem_cons_of_mem _ hy))]

theorem readList_append {α : Type} (p : Reader α) (f : α → List Byte) (xs : List α) (rest : List Byte)
    (hn : xs.length < 2 ^ 64) (h : ∀ x ∈ xs, ∀ rest, p (f x ++ rest) = .ok (x, rest)) :
    readList p (listBytes f xs ++ rest) = .ok (xs, rest) := by
  simp only [readList, listBytes, List.append_assoc, readNat_append _ _ hn, bind, Except.bind,
    readMany_append p f xs rest h]

theorem readRun_append (bs rest : List Byte) (h : bs.length < 2 ^ 64) :
    readRun (runOfBytes bs ++ rest) = .ok (bs, rest) := by
  simp only [readRun, runOfBytes, List.append_assoc, readNat_append _ _ h, bind, Except.bind,
    readBytes_append]

@[simp] theorem readSeq_append (s : Seq) (rest : List Byte) (h : seqFits s = true) :
    readSeq (seqBytes s ++ rest) = .ok (s, rest) := by
  refine readOpt_append _ _ _ _ fun bs hs => readRun_append bs rest ?_
  subst hs
  simpa [seqFits, countFits] using h

@[simp] theorem readOptPixel_append (p : Option Pixel) (rest : List Byte) :
    readOpt readPixel (optBytes Pixel.flat p ++ rest) = .ok (p, rest) :=
  readOpt_append _ _ _ _ fun _ _ => rfl

@[simp] theorem readConcat_append (args : ConcatArgs) (rest : List Byte) (h : concatFits args = true) :
    readConcat (concatBytes args ++ rest) = .ok (args, rest) := by
  cases args with
  | bytes bs =>
    simp only [concatFits, countFits, decide_eq_true_eq] at h
    simp [readConcat, concatBytes, readRun_append bs rest h, bind, Except.bind]
  | seqs ss =>
    simp only [concatFits, countFits, Bool.and_eq_true, decide_eq_true_eq, List.all_eq_true] at h
    have := readList_append readSeq seqBytes ss rest h.1 fun s hs rest => readSeq_append s rest (h.2 s hs)
    simp [readConcat, concatBytes, this, bind, Except.bind]

end Sys2Proof
end

