-- ==== Sys2Proof/Laws/Chunks.lean ====
section
/-! SUPPORT. Laws/Chunks.lean: what the chunk decoder does on each range of lead bytes, and that it reads
back what the chunk formats write. -/

namespace Sys2Proof

theorem field_ofNat (n lo width : Nat) (h : n < 256) :
    field (BitVec.ofNat 8 n) lo width = n / 2 ^ lo % 2 ^ width := by
  simp [field, Nat.mod_eq_of_lt h]

theorem ofNat8_ne (n m : Nat) (hn : n < 256) (hm : m < 256) (h : n ≠ m) :
    BitVec.ofNat 8 n ≠ BitVec.ofNat 8 m := by
  intro e
  have e' := congrArg BitVec.toNat e
  simp only [BitVec.toNat_ofNat, Nat.reducePow, Nat.mod_eq_of_lt hn, Nat.mod_eq_of_lt hm] at e'
  exact h e'

section
variable (n : Nat) (rest : List Byte)

/-- A lead byte below `0xFE` is none of the two 8-bit tags. -/
theorem lead_ne (h : n < 254) :
    BitVec.ofNat 8 n ≠ (0xFE : Byte) ∧ BitVec.ofNat 8 n ≠ (0xFF : Byte) :=
  ⟨ofNat8_ne n 254 (by omega) (by omega) (by omega), ofNat8_ne n 255 (by omega) (by omega) (by omega)⟩

theorem decodeChunk_index (h : n < 64) :
    decodeChunk (BitVec.ofNat 8 n :: rest) = .ok (.index (BitVec.ofNat 6 n), rest) := by
  have hn := lead_ne n (by omega)
  have hf := fun lo w => field_ofNat n lo w (by omega)
  simp only [decodeChunk, if_neg hn.1, if_neg hn.2, hf, Nat.reducePow, Nat.div_one]
  rw [if_pos (by omega), Nat.mod_eq_of_lt h]

theorem decodeChunk_diff (h : 64 ≤ n) (h' : n < 128) :
    decodeChunk (BitVec.ofNat 8 n :: rest) =
      .ok (.diff ((n / 16 % 4 : Nat) - 2) ((n / 4 % 4 : Nat) - 2) ((n % 4 : Nat) - 2), rest) := by
  have hn := lead_ne n (by omega)
  have hf := fun lo w => field_ofNat n lo w (by omega)
  simp only [decodeChunk, if_neg hn.1, if_neg hn.2, hf, Nat.reducePow, Nat.div_one]
  rw [if_neg (by omega), if_pos (by omega)]

theorem decodeChunk_luma (c : Byte) (h : 128 ≤ n) (h' : n < 192) :
    decodeChunk (BitVec.ofNat 8 n :: c :: rest) =
      .ok (.luma ((n : Int) - 160) ((c.toNat / 16 : Nat) - 8) ((c.toNat % 16 : Nat) - 8), rest) := by
  have hn := lead_ne n (by omega)
  have hf := fun lo w => field_ofNat n lo w (by omega)
  have hc := c.isLt
  simp only [decodeChunk, if_neg hn.1, if_neg hn.2, hf, Nat.reducePow, Nat.div_one]
  rw [if_neg (by omega), if_neg (by omega), if_pos (by omega)]
  simp only [field, Nat.reducePow, Nat.div_one, Except.ok.injEq, Prod.mk.injEq, Chunk.luma.injEq,
    and_true]
  omega

theorem decodeChunk_luma_truncated (h : 128 ≤ n) (h' : n < 192) :
    decodeChunk [BitVec.ofNat 8 n] = .error .truncated := by
  have hn := lead_ne n (by omega)
  have hf := fun lo w => field_ofNat n lo w (by omega)
  simp only [decodeChunk, if_neg hn.1, if_neg hn.2, hf, Nat.reducePow, Nat.div_one]
  rw [if_neg (by omega), if_neg (by omega), if_pos (by omega)]

theorem decodeChunk_run (h : 192 ≤ n) (h' : n < 254) :
    decodeChunk (BitVec.ofNat 8 n :: rest) = .ok (.run (n - 191), rest) := by
  have hn := lead_ne n (by omega)
  have hf := fun lo w => field_ofNat n lo w (by omega)
  simp only [decodeChunk, if_neg hn.1, if_neg hn.2, hf, Nat.reducePow, Nat.div_one]
  rw [if_neg (by omega), if_neg (by omega), if_neg (by omega)]
  simp only [Except.ok.injEq, Prod.mk.injEq, Chunk.run.injEq, and_true]
  omega

theorem chunkLength_tagged (h : n < 254) :
    chunkLength (BitVec.ofNat 8 n) = if 128 ≤ n ∧ n < 192 then 2 else 1 := by
  have hn := lead_ne n (by omega)
  have hf := fun lo w => field_ofNat n lo w (by omega)
  simp only [chunkLength, if_neg hn.1, if_neg hn.2, hf, Nat.reducePow]
  split <;> split <;> omega

theorem chunkPixels_tagged (h : n < 254) :
    chunkPixels (BitVec.ofNat 8 n) = if 192 ≤ n then n - 191 else 1 := by
  have hn := lead_ne n (by omega)
  have hf := fun lo w => field_ofNat n lo w (by omega)
  simp only [chunkPixels, if_neg hn.1, if_neg hn.2, hf, Nat.reducePow]
  split <;> split <;> omega

end

/-- A chunk's own bytes read back as the chunk, whatever follows. -/
theorem decodeChunk_bytes (c : Chunk) (rest : List Byte) (h : c.toInstr.wellFormed = true) :
    decodeChunk (c.bytes ++ rest) = .ok (c, rest) := by
  cases c with
  | index slot =>
    rw [Chunk.bytes, indexBytes, List.cons_append, List.nil_append, decodeChunk_index _ _ slot.isLt]
    simp
  | diff dr dg db =>
    simp only [Chunk.toInstr, Instr.wellFormed, diffRange, inRange, Bool.and_eq_true,
      decide_eq_true_eq] at h
    rw [Chunk.bytes, diffBytes, List.cons_append, List.nil_append,
      decodeChunk_diff _ _ (by omega) (by omega)]
    simp only [Except.ok.injEq, Prod.mk.injEq, Chunk.diff.injEq, and_true]
    omega
  | luma dg drDg dbDg =>
    simp only [Chunk.toInstr, Instr.wellFormed, lumaRange, inRange, Bool.and_eq_true,
      decide_eq_true_eq] at h
    rw [Chunk.bytes, lumaBytes, List.cons_append, List.cons_append, List.nil_append,
      decodeChunk_luma _ _ _ (by omega) (by omega)]
    simp only [BitVec.toNat_ofNat, Except.ok.injEq, Prod.mk.injEq, Chunk.luma.injEq, and_true]
    omega
  | run length =>
    simp only [Chunk.toInstr, Instr.wellFormed, Bool.and_eq_true, decide_eq_true_eq] at h
    rw [Chunk.bytes, runBytes, List.cons_append, List.nil_append,
      decodeChunk_run _ _ (by omega) (by omega)]
    simp only [Except.ok.injEq, Prod.mk.injEq, Chunk.run.injEq, and_true]
    omega
  | rgb r g b => rfl
  | rgba r g b a => rfl

theorem Chunk.bytes_length (c : Chunk) : c.bytes.length = c.size := by cases c <;> rfl

theorem Chunk.size_pos (c : Chunk) : 1 ≤ c.size := by cases c <;> simp [Chunk.size]

theorem Chunk.pixels_pos (c : Chunk) (h : c.toInstr.wellFormed = true) : 1 ≤ c.pixels := by
  cases c <;> simp_all [Chunk.pixels, Chunk.toInstr, Instr.wellFormed]

end Sys2Proof
end

