-- ==== Sys2Proof/Laws/Memory.lean ====
section
/-! SUPPORT. Laws/Memory.lean: reading after writing, and that every operation keeps the canonical form;
reading a cache slot after a write. -/

namespace Sys2Proof.Machine

/-! ### One byte -/

@[simp] theorem Memory.read_nil (addr : Nat) : Memory.read [] addr = none := rfl

@[simp] theorem Memory.read_write_same (m : Memory) (addr : Nat) (v : Byte) :
    (m.write addr v).read addr = some v := by
  induction m with
  | nil => simp [Memory.write, Memory.read]
  | cons c m ih =>
    obtain ⟨x, w⟩ := c
    simp only [Memory.write]
    split
    · simp [Memory.read]
    · split
      · simp [Memory.read]
      · rename_i h
        simpa [Memory.read, Ne.symm h] using ih

theorem Memory.read_write_other (m : Memory) (addr other : Nat) (v : Byte) (h : other ≠ addr) :
    (m.write addr v).read other = m.read other := by
  induction m with
  | nil => simp [Memory.write, Memory.read, Ne.symm h]
  | cons c m ih =>
    obtain ⟨x, w⟩ := c
    simp only [Memory.write]
    split
    · simp [Memory.read, Ne.symm h]
    · split
      · rename_i hx
        subst hx
        simp [Memory.read, Ne.symm h]
      · simp only [Memory.read, ih]

/-- Reading any byte after writing one. -/
theorem Memory.read_write (m : Memory) (addr other : Nat) (v : Byte) :
    (m.write addr v).read other = if other = addr then some v else m.read other := by
  split
  · rename_i h; subst h; simp
  · exact m.read_write_other addr other v ‹_›

/-! ### The canonical form -/

/-- An address written or already listed is the only one a write can list. -/
theorem Memory.mem_write {m : Memory} {addr : Nat} {v : Byte} {c : Host.Cell}
    (h : c ∈ m.write addr v) : c = (addr, v) ∨ c ∈ m := by
  induction m with
  | nil => simpa [Memory.write] using h
  | cons d m ih =>
    obtain ⟨x, w⟩ := d
    simp only [Memory.write] at h
    split at h
    · simpa using h
    · split at h
      · rcases List.mem_cons.1 h with h | h
        · exact .inl h
        · exact .inr (List.mem_cons_of_mem _ h)
      · rcases List.mem_cons.1 h with h | h
        · exact .inr (h ▸ List.mem_cons_self)
        · exact (ih h).imp_right (List.mem_cons_of_mem _)

theorem Memory.wf_iff (m : Memory) : m.wf = true ↔ m.Pairwise (fun c d => c.1 < d.1) := by
  simp [Memory.wf]

theorem Memory.wf_write (m : Memory) (addr : Nat) (v : Byte) (h : m.wf = true) :
    (m.write addr v).wf = true := by
  rw [Memory.wf_iff] at *
  induction m with
  | nil => simp [Memory.write]
  | cons c m ih =>
    obtain ⟨x, w⟩ := c
    rw [List.pairwise_cons] at h
    obtain ⟨hx, hm⟩ := h
    simp only [Memory.write]
    split
    · rename_i hlt
      refine List.pairwise_cons.2 ⟨fun d hd => ?_, List.pairwise_cons.2 ⟨hx, hm⟩⟩
      rcases List.mem_cons.1 hd with rfl | hd
      · exact hlt
      · exact Nat.lt_trans hlt (hx d hd)
    · split
      · rename_i heq
        subst heq
        exact List.pairwise_cons.2 ⟨hx, hm⟩
      · refine List.pairwise_cons.2 ⟨fun d hd => ?_, ih hm⟩
        rcases Memory.mem_write hd with rfl | hd
        · show x < addr
          omega
        · exact hx d hd

theorem Memory.wf_writeBytes (vs : List Byte) : ∀ (m : Memory) (addr : Nat), m.wf = true →
    (m.writeBytes addr vs).wf = true := by
  induction vs with
  | nil => exact fun _ _ h => h
  | cons v vs ih => exact fun m addr h => ih _ _ (m.wf_write addr v h)

theorem Memory.wf_writePixel (m : Memory) (pos : Nat) (p : Pixel) (h : m.wf = true) :
    (m.writePixel pos p).wf = true := Memory.wf_writeBytes _ _ _ h

theorem Memory.wf_writeCopies (n : Nat) : ∀ (m : Memory) (pos : Nat) (p : Pixel), m.wf = true →
    (m.writeCopies pos n p).wf = true := by
  induction n with
  | zero => exact fun _ _ _ h => h
  | succ n ih => exact fun m pos p h => ih _ _ _ (m.wf_writePixel pos p h)

/-! ### Several bytes, one pixel, several copies -/

/-- A byte outside the bytes written reads as before. -/
theorem Memory.read_writeBytes_other (vs : List Byte) : ∀ (m : Memory) (addr other : Nat),
    (other < addr ∨ addr + vs.length ≤ other) → (m.writeBytes addr vs).read other = m.read other := by
  induction vs with
  | nil => exact fun _ _ _ _ => rfl
  | cons v vs ih =>
    intro m addr other h
    rw [List.length_cons] at h
    rw [Memory.writeBytes, ih _ _ _ (by omega), Memory.read_write_other _ _ _ _ (by omega)]

/-- A byte inside the bytes written reads as written. -/
theorem Memory.read_writeBytes_same (vs : List Byte) : ∀ (m : Memory) (addr i : Nat) (h : i < vs.length),
    (m.writeBytes addr vs).read (addr + i) = some vs[i] := by
  induction vs with
  | nil => intro _ _ i h; simp at h
  | cons v vs ih =>
    intro m addr i h
    rw [Memory.writeBytes]
    cases i with
    | zero =>
      rw [Memory.read_writeBytes_other _ _ _ _ (by omega)]
      simp
    | succ i =>
      have := ih (m.write addr v) (addr + 1) i (by simpa using h)
      rw [show addr + (i + 1) = addr + 1 + i by omega, this]
      simp

theorem Memory.read_writePixel_other (m : Memory) (pos : Nat) (p : Pixel) (addr : Nat)
    (h : addr < 4 * pos ∨ 4 * pos + 4 ≤ addr) : (m.writePixel pos p).read addr = m.read addr :=
  Memory.read_writeBytes_other _ _ _ _ (by simpa [Pixel.flat] using h)

@[simp] theorem Memory.readPixel_writePixel_same (m : Memory) (pos : Nat) (p : Pixel) :
    (m.writePixel pos p).readPixel pos = some p := by
  have h := fun i (hi : i < 4) => Memory.read_writeBytes_same p.flat m (4 * pos) i hi
  have h0 := h 0 (by omega)
  have h1 := h 1 (by omega)
  have h2 := h 2 (by omega)
  have h3 := h 3 (by omega)
  simp only [Memory.writePixel, Memory.readPixel, Nat.add_zero] at *
  rw [h0, h1, h2, h3]
  rfl

theorem Memory.readPixel_writePixel_other (m : Memory) (pos other : Nat) (p : Pixel) (h : other ≠ pos) :
    (m.writePixel pos p).readPixel other = m.readPixel other := by
  simp only [Memory.readPixel]
  rw [Memory.read_writePixel_other _ _ _ _ (by omega), Memory.read_writePixel_other _ _ _ _ (by omega),
    Memory.read_writePixel_other _ _ _ _ (by omega), Memory.read_writePixel_other _ _ _ _ (by omega)]

/-- Everything a write of copies leaves alone. -/
theorem Memory.read_writeCopies_other (n : Nat) : ∀ (m : Memory) (pos : Nat) (p : Pixel) (addr : Nat),
    (addr < 4 * pos ∨ 4 * (pos + n) ≤ addr) → (m.writeCopies pos n p).read addr = m.read addr := by
  induction n with
  | zero => exact fun _ _ _ _ _ => rfl
  | succ n ih =>
    intro m pos p addr h
    rw [Memory.writeCopies, ih _ _ _ _ (by omega), Memory.read_writePixel_other _ _ _ _ (by omega)]

theorem Memory.readPixel_writeCopies_other (n : Nat) (m : Memory) (pos other : Nat) (p : Pixel)
    (h : other < pos ∨ pos + n ≤ other) : (m.writeCopies pos n p).readPixel other = m.readPixel other := by
  simp only [Memory.readPixel]
  rw [Memory.read_writeCopies_other _ _ _ _ _ (by omega), Memory.read_writeCopies_other _ _ _ _ _ (by omega),
    Memory.read_writeCopies_other _ _ _ _ _ (by omega), Memory.read_writeCopies_other _ _ _ _ _ (by omega)]

/-- Every position a write of copies covers reads as the pixel. -/
theorem Memory.readPixel_writeCopies_same (n : Nat) : ∀ (m : Memory) (pos k : Nat) (p : Pixel), k < n →
    (m.writeCopies pos n p).readPixel (pos + k) = some p := by
  induction n with
  | zero => intro _ _ _ _ h; omega
  | succ n ih =>
    intro m pos k p h
    rw [Memory.writeCopies]
    cases k with
    | zero =>
      rw [Memory.readPixel_writeCopies_other _ _ _ _ _ (by omega)]
      simp
    | succ k =>
      rw [show pos + (k + 1) = pos + 1 + k by omega]
      exact ih _ _ _ _ (by omega)

theorem Memory.isSome_writeBytes (vs : List Byte) : ∀ (m : Memory) (addr other : Nat),
    ((m.writeBytes addr vs).read other).isSome = true ↔
      (m.read other).isSome = true ∨ (addr ≤ other ∧ other < addr + vs.length) := by
  induction vs with
  | nil =>
    intro m addr other
    simp only [Memory.writeBytes, List.length_nil]
    exact ⟨.inl, fun h => h.elim id (fun h => by omega)⟩
  | cons v vs ih =>
    intro m addr other
    rw [Memory.writeBytes, ih, Memory.read_write]
    simp only [List.length_cons]
    split
    · rename_i h
      subst h
      exact ⟨fun _ => .inr (by omega), fun _ => .inl rfl⟩
    · exact or_congr_right (by omega)

/-- Which bytes hold a value after a write of copies. -/
theorem Memory.isSome_writeCopies (n : Nat) : ∀ (m : Memory) (pos : Nat) (p : Pixel) (addr : Nat),
    ((m.writeCopies pos n p).read addr).isSome = true ↔
      (m.read addr).isSome = true ∨ (4 * pos ≤ addr ∧ addr < 4 * (pos + n)) := by
  induction n with
  | zero =>
    intro m pos p addr
    simp only [Memory.writeCopies]
    exact ⟨.inl, fun h => h.elim id (fun h => by omega)⟩
  | succ n ih =>
    intro m pos p addr
    rw [Memory.writeCopies, ih, Memory.writePixel, Memory.isSome_writeBytes]
    simp only [Pixel.flat, List.length_cons, List.length_nil]
    rw [or_assoc]
    exact or_congr_right (by omega)

/-! ### The color cache -/

@[simp] theorem Cache.read_clear (slot : BitVec 6) : Cache.clear.read slot = Pixel.zero := by
  simp [Cache.read, Cache.clear]

@[simp] theorem Cache.read_write_same (c : Cache) (slot : BitVec 6) (p : Pixel) :
    (c.write slot p).read slot = p := by
  simp [Cache.read, Cache.write]

theorem Cache.read_write_other (c : Cache) (slot other : BitVec 6) (p : Pixel) (h : other ≠ slot) :
    (c.write slot p).read other = c.read other := by
  have hne : slot.toNat ≠ other.toNat := fun e => h (BitVec.eq_of_toNat_eq e.symm)
  exact Vector.getElem_set_ne slot.isLt other.isLt hne

end Sys2Proof.Machine
end

