-- ==== Sys2Proof/Laws/State.lean ====
section
/-! SUPPORT. Laws/State.lean: one lemma for each field under each update, true by rfl, so that no later
proof unfolds a record update. -/

namespace Sys2Proof.Machine

/-! ### State -/

@[simp] theorem State.setEnc_cfg (s : State) (e : Enc) : (s.setEnc e).cfg = s.cfg := rfl
@[simp] theorem State.setEnc_enc (s : State) (e : Enc) : (s.setEnc e).enc = e := rfl
@[simp] theorem State.setEnc_dec (s : State) (e : Enc) : (s.setEnc e).dec = s.dec := rfl
@[simp] theorem State.setEnc_hdr (s : State) (e : Enc) : (s.setEnc e).hdr = s.hdr := rfl
@[simp] theorem State.setEnc_utilCause (s : State) (e : Enc) : (s.setEnc e).utilCause = s.utilCause := rfl
@[simp] theorem State.setEnc_response (s : State) (e : Enc) : (s.setEnc e).response = s.response := rfl
@[simp] theorem State.setEnc_port (s : State) (e : Enc) : (s.setEnc e).port = s.port := rfl

@[simp] theorem State.setDec_cfg (s : State) (d : Dec) : (s.setDec d).cfg = s.cfg := rfl
@[simp] theorem State.setDec_enc (s : State) (d : Dec) : (s.setDec d).enc = s.enc := rfl
@[simp] theorem State.setDec_dec (s : State) (d : Dec) : (s.setDec d).dec = d := rfl
@[simp] theorem State.setDec_hdr (s : State) (d : Dec) : (s.setDec d).hdr = s.hdr := rfl
@[simp] theorem State.setDec_utilCause (s : State) (d : Dec) : (s.setDec d).utilCause = s.utilCause := rfl
@[simp] theorem State.setDec_response (s : State) (d : Dec) : (s.setDec d).response = s.response := rfl
@[simp] theorem State.setDec_port (s : State) (d : Dec) : (s.setDec d).port = s.port := rfl

@[simp] theorem State.setHdr_cfg (s : State) (h : Hdr) : (s.setHdr h).cfg = s.cfg := rfl
@[simp] theorem State.setHdr_enc (s : State) (h : Hdr) : (s.setHdr h).enc = s.enc := rfl
@[simp] theorem State.setHdr_dec (s : State) (h : Hdr) : (s.setHdr h).dec = s.dec := rfl
@[simp] theorem State.setHdr_hdr (s : State) (h : Hdr) : (s.setHdr h).hdr = h := rfl
@[simp] theorem State.setHdr_utilCause (s : State) (h : Hdr) : (s.setHdr h).utilCause = s.utilCause := rfl
@[simp] theorem State.setHdr_response (s : State) (h : Hdr) : (s.setHdr h).response = s.response := rfl
@[simp] theorem State.setHdr_port (s : State) (h : Hdr) : (s.setHdr h).port = s.port := rfl

@[simp] theorem State.setUtilCause_cfg (s : State) (c : Cause) : (s.setUtilCause c).cfg = s.cfg := rfl
@[simp] theorem State.setUtilCause_enc (s : State) (c : Cause) : (s.setUtilCause c).enc = s.enc := rfl
@[simp] theorem State.setUtilCause_dec (s : State) (c : Cause) : (s.setUtilCause c).dec = s.dec := rfl
@[simp] theorem State.setUtilCause_hdr (s : State) (c : Cause) : (s.setUtilCause c).hdr = s.hdr := rfl
@[simp] theorem State.setUtilCause_utilCause (s : State) (c : Cause) : (s.setUtilCause c).utilCause = c := rfl
@[simp] theorem State.setUtilCause_response (s : State) (c : Cause) : (s.setUtilCause c).response = s.response := rfl
@[simp] theorem State.setUtilCause_port (s : State) (c : Cause) : (s.setUtilCause c).port = s.port := rfl

@[simp] theorem State.respond_cfg (s : State) (r : Response) : (s.respond r).cfg = s.cfg := rfl
@[simp] theorem State.respond_enc (s : State) (r : Response) : (s.respond r).enc = s.enc := rfl
@[simp] theorem State.respond_dec (s : State) (r : Response) : (s.respond r).dec = s.dec := rfl
@[simp] theorem State.respond_hdr (s : State) (r : Response) : (s.respond r).hdr = s.hdr := rfl
@[simp] theorem State.respond_utilCause (s : State) (r : Response) : (s.respond r).utilCause = s.utilCause := rfl
@[simp] theorem State.respond_response (s : State) (r : Response) : (s.respond r).response = r := rfl
@[simp] theorem State.respond_port (s : State) (r : Response) : (s.respond r).port = s.port := rfl

/-! ### ENC -/

@[simp] theorem Enc.emit_prev (e : Enc) (bs : List Byte) : (e.emit bs).prev = e.prev := rfl
@[simp] theorem Enc.emit_cache (e : Enc) (bs : List Byte) : (e.emit bs).cache = e.cache := rfl
@[simp] theorem Enc.emit_run (e : Enc) (bs : List Byte) : (e.emit bs).run = e.run := rfl
@[simp] theorem Enc.emit_mode (e : Enc) (bs : List Byte) : (e.emit bs).mode = e.mode := rfl
@[simp] theorem Enc.emit_pi (e : Enc) (bs : List Byte) : (e.emit bs).pi = e.pi := rfl
@[simp] theorem Enc.emit_out (e : Enc) (bs : List Byte) : (e.emit bs).out = e.out ++ bs := rfl
@[simp] theorem Enc.emit_cause (e : Enc) (bs : List Byte) : (e.emit bs).cause = e.cause := rfl

@[simp] theorem Enc.cacheUpdate_prev (e : Enc) (px : Pixel) : (e.cacheUpdate px).prev = e.prev := rfl
@[simp] theorem Enc.cacheUpdate_cache (e : Enc) (px : Pixel) : (e.cacheUpdate px).cache = e.cache.write (hash px) px := rfl
@[simp] theorem Enc.cacheUpdate_run (e : Enc) (px : Pixel) : (e.cacheUpdate px).run = e.run := rfl
@[simp] theorem Enc.cacheUpdate_mode (e : Enc) (px : Pixel) : (e.cacheUpdate px).mode = e.mode := rfl
@[simp] theorem Enc.cacheUpdate_pi (e : Enc) (px : Pixel) : (e.cacheUpdate px).pi = e.pi := rfl
@[simp] theorem Enc.cacheUpdate_out (e : Enc) (px : Pixel) : (e.cacheUpdate px).out = e.out := rfl
@[simp] theorem Enc.cacheUpdate_cause (e : Enc) (px : Pixel) : (e.cacheUpdate px).cause = e.cause := rfl

@[simp] theorem Enc.prevAdvance_prev (e : Enc) (px : Pixel) : (e.prevAdvance px).prev = px := rfl
@[simp] theorem Enc.prevAdvance_cache (e : Enc) (px : Pixel) : (e.prevAdvance px).cache = e.cache := rfl
@[simp] theorem Enc.prevAdvance_run (e : Enc) (px : Pixel) : (e.prevAdvance px).run = e.run := rfl
@[simp] theorem Enc.prevAdvance_mode (e : Enc) (px : Pixel) : (e.prevAdvance px).mode = e.mode := rfl
@[simp] theorem Enc.prevAdvance_pi (e : Enc) (px : Pixel) : (e.prevAdvance px).pi = e.pi := rfl
@[simp] theorem Enc.prevAdvance_out (e : Enc) (px : Pixel) : (e.prevAdvance px).out = e.out := rfl
@[simp] theorem Enc.prevAdvance_cause (e : Enc) (px : Pixel) : (e.prevAdvance px).cause = e.cause := rfl

@[simp] theorem Enc.emitRgb_prev (e : Enc) (r g b : Byte) : (e.emitRgb r g b).prev = e.prev := rfl
@[simp] theorem Enc.emitRgb_cache (e : Enc) (r g b : Byte) : (e.emitRgb r g b).cache = e.cache := rfl
@[simp] theorem Enc.emitRgb_run (e : Enc) (r g b : Byte) : (e.emitRgb r g b).run = e.run := rfl
@[simp] theorem Enc.emitRgb_mode (e : Enc) (r g b : Byte) : (e.emitRgb r g b).mode = e.mode := rfl
@[simp] theorem Enc.emitRgb_pi (e : Enc) (r g b : Byte) : (e.emitRgb r g b).pi = e.pi := rfl
@[simp] theorem Enc.emitRgb_out (e : Enc) (r g b : Byte) : (e.emitRgb r g b).out = e.out ++ rgbBytes r g b := rfl
@[simp] theorem Enc.emitRgb_cause (e : Enc) (r g b : Byte) : (e.emitRgb r g b).cause = e.cause := rfl

@[simp] theorem Enc.emitRgba_prev (e : Enc) (px : Pixel) : (e.emitRgba px).prev = e.prev := rfl
@[simp] theorem Enc.emitRgba_cache (e : Enc) (px : Pixel) : (e.emitRgba px).cache = e.cache := rfl
@[simp] theorem Enc.emitRgba_run (e : Enc) (px : Pixel) : (e.emitRgba px).run = e.run := rfl
@[simp] theorem Enc.emitRgba_mode (e : Enc) (px : Pixel) : (e.emitRgba px).mode = e.mode := rfl
@[simp] theorem Enc.emitRgba_pi (e : Enc) (px : Pixel) : (e.emitRgba px).pi = e.pi := rfl
@[simp] theorem Enc.emitRgba_out (e : Enc) (px : Pixel) : (e.emitRgba px).out = e.out ++ rgbaBytes px.r px.g px.b px.a := rfl
@[simp] theorem Enc.emitRgba_cause (e : Enc) (px : Pixel) : (e.emitRgba px).cause = e.cause := rfl

@[simp] theorem Enc.start_prev (cfg : Config) : (Enc.start cfg).prev = cfg.prevInit := rfl
@[simp] theorem Enc.start_cache (cfg : Config) : (Enc.start cfg).cache = Cache.clear := rfl
@[simp] theorem Enc.start_run (cfg : Config) : (Enc.start cfg).run = 0 := rfl
@[simp] theorem Enc.start_mode (cfg : Config) : (Enc.start cfg).mode = .active := rfl
@[simp] theorem Enc.start_pi (cfg : Config) : (Enc.start cfg).pi = 0 := rfl
@[simp] theorem Enc.start_out (cfg : Config) : (Enc.start cfg).out = [] := rfl
@[simp] theorem Enc.start_cause (cfg : Config) : (Enc.start cfg).cause = .none := rfl

/-! ### DEC -/

@[simp] theorem Dec.start_prev (cfg : Config) (bs : List Byte) (w h : Word) :
    (Dec.start cfg bs w h).prev = cfg.prevInit := rfl
@[simp] theorem Dec.start_cache (cfg : Config) (bs : List Byte) (w h : Word) :
    (Dec.start cfg bs w h).cache = Cache.clear := rfl
@[simp] theorem Dec.start_ip (cfg : Config) (bs : List Byte) (w h : Word) :
    (Dec.start cfg bs w h).ip = 0 := rfl
@[simp] theorem Dec.start_op (cfg : Config) (bs : List Byte) (w h : Word) :
    (Dec.start cfg bs w h).op = 0 := rfl
@[simp] theorem Dec.start_npix (cfg : Config) (bs : List Byte) (w h : Word) :
    (Dec.start cfg bs w h).npix = w.toNat * h.toNat := rfl
@[simp] theorem Dec.start_mode (cfg : Config) (bs : List Byte) (w h : Word) :
    (Dec.start cfg bs w h).mode = .active := rfl
@[simp] theorem Dec.start_input (cfg : Config) (bs : List Byte) (w h : Word) :
    (Dec.start cfg bs w h).input = bs := rfl
@[simp] theorem Dec.start_out (cfg : Config) (bs : List Byte) (w h : Word) :
    (Dec.start cfg bs w h).out = [] := rfl
@[simp] theorem Dec.start_cause (cfg : Config) (bs : List Byte) (w h : Word) :
    (Dec.start cfg bs w h).cause = .none := rfl

@[simp] theorem Dec.commit_prev (d : Dec) (cw : Bool) (px : Pixel) (n len : Nat) :
    (d.commit cw px n len).prev = px := rfl
@[simp] theorem Dec.commit_cache (d : Dec) (cw : Bool) (px : Pixel) (n len : Nat) :
    (d.commit cw px n len).cache = if cw then d.cache.write (hash px) px else d.cache := rfl
@[simp] theorem Dec.commit_ip (d : Dec) (cw : Bool) (px : Pixel) (n len : Nat) :
    (d.commit cw px n len).ip = d.ip + len := rfl
@[simp] theorem Dec.commit_op (d : Dec) (cw : Bool) (px : Pixel) (n len : Nat) :
    (d.commit cw px n len).op = d.op + n := rfl
@[simp] theorem Dec.commit_npix (d : Dec) (cw : Bool) (px : Pixel) (n len : Nat) :
    (d.commit cw px n len).npix = d.npix := rfl
@[simp] theorem Dec.commit_mode (d : Dec) (cw : Bool) (px : Pixel) (n len : Nat) :
    (d.commit cw px n len).mode = d.mode := rfl
@[simp] theorem Dec.commit_input (d : Dec) (cw : Bool) (px : Pixel) (n len : Nat) :
    (d.commit cw px n len).input = d.input := rfl
@[simp] theorem Dec.commit_out (d : Dec) (cw : Bool) (px : Pixel) (n len : Nat) :
    (d.commit cw px n len).out = d.out.writeCopies d.op n px := rfl
@[simp] theorem Dec.commit_cause (d : Dec) (cw : Bool) (px : Pixel) (n len : Nat) :
    (d.commit cw px n len).cause = d.cause := rfl

end Sys2Proof.Machine
end

