-- ==== Sys2Proof/Laws/Ops.lean ====
section
/-! SUPPORT. Laws/Ops.lean: for each shared operation, once, everything it can do. -/

namespace Sys2Proof.Machine

/-! ### Taking a fault (60_exceptions.md R254) -/

section
variable (s : State) (u : UnitId) (c : Cause)

@[simp] theorem State.takeFault_cfg : (s.takeFault u c).cfg = s.cfg := by
  unfold State.takeFault; split <;> (try split) <;> rfl

@[simp] theorem State.takeFault_hdr : (s.takeFault u c).hdr = s.hdr := by
  unfold State.takeFault; split <;> (try split) <;> rfl

@[simp] theorem State.takeFault_port : (s.takeFault u c).port = s.port := by
  unfold State.takeFault; split <;> (try split) <;> rfl

@[simp] theorem State.takeFault_response : (s.takeFault u c).response = .fault c := by
  unfold State.takeFault; split <;> (try split) <;> rfl

@[simp] theorem State.takeFault_util : s.takeFault .util c = (s.setUtilCause c).respond (.fault c) := rfl

@[simp] theorem State.takeFault_enc_dec : (s.takeFault .enc c).dec = s.dec := by
  unfold State.takeFault; dsimp only; split <;> rfl

@[simp] theorem State.takeFault_enc_utilCause : (s.takeFault .enc c).utilCause = s.utilCause := by
  unfold State.takeFault; dsimp only; split <;> rfl

@[simp] theorem State.takeFault_dec_enc : (s.takeFault .dec c).enc = s.enc := by
  unfold State.takeFault; dsimp only; split <;> rfl

@[simp] theorem State.takeFault_dec_utilCause : (s.takeFault .dec c).utilCause = s.utilCause := by
  unfold State.takeFault; dsimp only; split <;> rfl

/-- ENC's registers after a fault of ENC: mode FAULT, the cause, nothing else; a PROTOCOL fault in mode
FAULT leaves the first cause. -/
theorem State.takeFault_enc_enc : (s.takeFault .enc c).enc =
    { s.enc with mode := .fault, cause := if s.enc.mode = .fault ∧ c = .protocol then s.enc.cause else c } := by
  unfold State.takeFault
  dsimp only
  split
  · rename_i h; simp [← h.1]
  · rfl

/-- DEC's registers after a fault of DEC. -/
theorem State.takeFault_dec_dec : (s.takeFault .dec c).dec =
    { s.dec with mode := .fault, cause := if s.dec.mode = .fault ∧ c = .protocol then s.dec.cause else c } := by
  unfold State.takeFault
  dsimp only
  split
  · rename_i h; simp [← h.1]
  · rfl

@[simp] theorem State.takeFault_enc_mode : (s.takeFault .enc c).enc.mode = .fault := by
  rw [State.takeFault_enc_enc]

@[simp] theorem State.takeFault_dec_mode : (s.takeFault .dec c).dec.mode = .fault := by
  rw [State.takeFault_dec_dec]

end

/-! ### A stateless command -/

@[simp] theorem State.answer_ok (s : State) (r : Response) : s.answer (.ok r) = s.respond r := rfl

@[simp] theorem State.answer_error (s : State) (c : Cause) :
    s.answer (.error c) = (s.setUtilCause c).respond (.fault c) := rfl

/-- A stateless command writes the response, and `util.cause` when it faults (40_byte_utilities.md R117). -/
theorem State.answer_frame (s : State) (r : Except Cause Response) :
    (s.answer r).cfg = s.cfg ∧ (s.answer r).enc = s.enc ∧ (s.answer r).dec = s.dec ∧
      (s.answer r).hdr = s.hdr ∧ (s.answer r).port = s.port := by
  cases r <;> exact ⟨rfl, rfl, rfl, rfl, rfl⟩

/-! ### An encoder step -/

/-- Everything an encoder step can do. -/
theorem State.encStep_cases (s : State) (f : Enc → Except Cause Enc) :
    (∃ e, s.enc.mode = .active ∧ f s.enc = .ok e ∧ s.encStep f = (s.setEnc e).respond .done) ∨
    (∃ c, s.enc.mode = .active ∧ f s.enc = .error c ∧ s.encStep f = s.takeFault .enc c) ∨
    (s.enc.mode ≠ .active ∧ s.encStep f = s.takeFault .enc .protocol) := by
  unfold State.encStep
  split
  · rename_i hm
    cases hf : f s.enc with
    | ok e => exact .inl ⟨e, hm, rfl, rfl⟩
    | error c => exact .inr (.inl ⟨c, hm, rfl, rfl⟩)
  · exact .inr (.inr ⟨‹_›, rfl⟩)

/-- An encoder step in mode ACTIVE whose function succeeds. -/
theorem State.encStep_ok {s : State} {f : Enc → Except Cause Enc} {e : Enc} (hm : s.enc.mode = .active)
    (hf : f s.enc = .ok e) : s.encStep f = (s.setEnc e).respond .done := by
  simp [State.encStep, hm, hf]

/-- What no encoder step writes. -/
theorem State.encStep_frame (s : State) (f : Enc → Except Cause Enc) :
    (s.encStep f).cfg = s.cfg ∧ (s.encStep f).dec = s.dec ∧ (s.encStep f).hdr = s.hdr ∧
      (s.encStep f).utilCause = s.utilCause ∧ (s.encStep f).port = s.port := by
  obtain ⟨e, -, -, h⟩ | ⟨c, -, -, h⟩ | ⟨-, h⟩ := s.encStep_cases f <;> rw [h] <;> simp

/-! ### A chunk -/

/-- Everything a chunk can do (44_decoder_fsm.md R202). -/
theorem State.chunkStep_cases (s : State) (cw : Bool) (px : Pixel) (n len : Nat) :
    (s.dec.mode = .active ∧ s.dec.ip < s.dec.input.length ∧ s.dec.ip + len ≤ s.dec.input.length ∧
      s.dec.op + n ≤ s.dec.npix ∧
      s.chunkStep cw px n len = (s.setDec (s.dec.commit cw px n len)).respond .done) ∨
    ∃ c, s.chunkStep cw px n len = s.takeFault .dec c := by
  unfold State.chunkStep
  split
  · exact .inr ⟨_, rfl⟩
  · rename_i h1
    split
    · exact .inr ⟨_, rfl⟩
    · split
      · exact .inr ⟨_, rfl⟩
      · exact .inl ⟨(not_not.1 h1).1, (not_not.1 h1).2, not_not.1 ‹_›, not_not.1 ‹_›, rfl⟩

/-- A chunk that passes the checks commits. -/
theorem State.chunkStep_ok {s : State} {cw : Bool} {px : Pixel} {n len : Nat} (hm : s.dec.mode = .active)
    (hi : s.dec.ip < s.dec.input.length) (hl : s.dec.ip + len ≤ s.dec.input.length)
    (hn : s.dec.op + n ≤ s.dec.npix) :
    s.chunkStep cw px n len = (s.setDec (s.dec.commit cw px n len)).respond .done := by
  simp [State.chunkStep, hm, hi, hl, hn]

/-- What no chunk writes. -/
theorem State.chunkStep_frame (s : State) (cw : Bool) (px : Pixel) (n len : Nat) :
    (s.chunkStep cw px n len).cfg = s.cfg ∧ (s.chunkStep cw px n len).enc = s.enc ∧
      (s.chunkStep cw px n len).hdr = s.hdr ∧ (s.chunkStep cw px n len).utilCause = s.utilCause ∧
      (s.chunkStep cw px n len).port = s.port := by
  obtain ⟨-, -, -, -, h⟩ | ⟨c, h⟩ := s.chunkStep_cases cw px n len <;> rw [h] <;> simp

end Sys2Proof.Machine
end

