-- ==== Sys2Proof/Laws/Encoder.lean ====
section
/-! SUPPORT. Laws/Encoder.lean: what one pixel and the end of the stream do to ENC's registers, the chunk
the selector chooses, and the bytes of the chunk encoders in the rules' own bit form. -/

namespace Sys2Proof.Machine

/-- The signed reading of a byte is Lean's own. -/
theorem s8_toInt (u : Byte) : s8 u = u.toInt := by
  simp only [s8, BitVec.toInt]
  split <;> split <;> omega

theorem delta_toInt (x y : Byte) : delta x y = (x - y).toInt := s8_toInt _

theorem runBytes_bits : ∀ n : Fin 62,
    BitVec.ofNat 8 (0xC0 + n.val) = (0xC0#8 ||| BitVec.ofNat 8 n.val) := by decide +kernel

/-- A run chunk in the form R145 writes it. -/
theorem encodeRun_ok (n : Nat) (h : 1 ≤ n) (h' : n ≤ 62) : encodeRun n = .ok (pendingBytes n) := by
  have := runBytes_bits ⟨n - 1, by omega⟩
  simp only [encodeRun, runBytes, pendingBytes]
  rw [if_pos ⟨h, h'⟩, if_pos (by omega)]
  simpa using this

theorem pendingBytes_full : pendingBytes 62 = [0xFD] := by decide

/-- A pixel equal to the previous one (43_encoder_fsm.md R173, R174). -/
theorem Enc.pixel_run (e : Enc) : Enc.pixel e.prev e =
    if e.run + 1 = 62 then .ok { e with run := 0, pi := e.pi + 1, out := e.out ++ [0xFD] }
    else .ok { e with run := e.run + 1, pi := e.pi + 1 } := by
  simp only [Enc.pixel, eqPrev, decide_true, if_true, Enc.runExtend, Enc.runFlushFull, runMax]
  rw [encodeRun_ok 62 (by omega) (by omega), pendingBytes_full]
  rfl

theorem Enc.flushIfPending_ok (e : Enc) (h : e.run ≤ 62) :
    Enc.flushIfPending e = .ok { e with run := 0, out := e.out ++ pendingBytes e.run } := by
  unfold Enc.flushIfPending
  split
  · rename_i h0
    rw [Enc.runFlushPending, encodeRun_ok _ (by omega) h]; rfl
  · have : e.run = 0 := by omega
    cases e; simp_all [pendingBytes]

theorem Enc.flushIfPending_error (e : Enc) (h : 62 < e.run) :
    Enc.flushIfPending e = .error .paramRange := by
  unfold Enc.flushIfPending
  rw [if_pos (by omega), Enc.runFlushPending, encodeRun, if_neg (by omega)]; rfl

/-- The chunk the selector picks for a differing pixel. -/
def Enc.chosen (e : Enc) (px : Pixel) : Chunk :=
  if hit e px then .index (hash px)
  else if alphaSame e px then
    if diffOk e px then .diff (delta px.r e.prev.r) (delta px.g e.prev.g) (delta px.b e.prev.b)
    else if lumaOk e px then
      .luma (delta px.g e.prev.g) (delta px.r e.prev.r - delta px.g e.prev.g)
        (delta px.b e.prev.b - delta px.g e.prev.g)
    else .rgb px.r px.g px.b
  else .rgba px.r px.g px.b px.a

/-- The chunk encoders never fault on what the selector hands them (43_encoder_fsm.md R170). -/
theorem Enc.emitPixel_eq (e : Enc) (px : Pixel) : e.emitPixel px = .ok
    { e with
      out := e.out ++ (e.chosen px).bytes
      cache := if hit e px then e.cache else e.cache.write (hash px) px } := by
  unfold Enc.emitPixel Enc.chosen
  split
  · simp only [Enc.emitIndex, encodeIndex]
    rw [if_pos (by have := (hash px).isLt; omega)]
    simp [Enc.emitChecked, Enc.emit, Chunk.bytes]
  · split
    · split
      · rename_i h
        simp only [Enc.emitDiff, encodeDiff]
        have h' : diffRange (delta px.r e.prev.r) (delta px.g e.prev.g) (delta px.b e.prev.b) = true := h
        rw [if_pos h']; rfl
      · split
        · rename_i h
          simp only [Enc.emitLuma, encodeLuma]
          have h' : lumaRange (delta px.g e.prev.g) (delta px.r e.prev.r - delta px.g e.prev.g)
            (delta px.b e.prev.b - delta px.g e.prev.g) = true := h
          rw [if_pos h']; rfl
        · rfl
    · rfl

/-- A pixel that differs from the previous one (43_encoder_fsm.md R172). -/
theorem Enc.pixel_ne (e : Enc) (px : Pixel) (h : px ≠ e.prev) (hr : e.run ≤ 62) :
    Enc.pixel px e = .ok { e with
      prev := px, run := 0, pi := e.pi + 1
      out := e.out ++ pendingBytes e.run ++ (e.chosen px).bytes
      cache := if hit e px then e.cache else e.cache.write (hash px) px } := by
  unfold Enc.pixel
  rw [if_neg (by simpa [eqPrev] using h), Enc.flushIfPending_ok { e with pi := e.pi + 1 } hr]
  dsimp only
  rw [Enc.emitPixel_eq]
  rfl

theorem Enc.pixel_ne_error (e : Enc) (px : Pixel) (h : px ≠ e.prev) (hr : 62 < e.run) :
    Enc.pixel px e = .error .paramRange := by
  unfold Enc.pixel
  rw [if_neg (by simpa [eqPrev] using h), Enc.flushIfPending_error { e with pi := e.pi + 1 } hr]

/-- The end of the stream (43_encoder_fsm.md R183). -/
theorem Enc.finish_ok (e : Enc) (h : e.run ≤ 62) : Enc.finish e = .ok
    { e with mode := .done, run := 0, out := e.out ++ pendingBytes e.run } := by
  unfold Enc.finish
  by_cases h0 : 0 < e.run
  · rw [if_pos h0, Enc.finalFlush, encodeRun_ok _ (by omega) h]; rfl
  · rw [if_neg h0]
    have : e.run = 0 := by omega
    cases e; simp_all [pendingBytes]

theorem Enc.finish_error (e : Enc) (h : 62 < e.run) : Enc.finish e = .error .paramRange := by
  unfold Enc.finish
  rw [if_pos (by omega), Enc.finalFlush, encodeRun, if_neg (by omega)]; rfl

theorem encFault_eq (s : State) (c : Cause) : encFault s c = s.takeFault .enc c := by
  unfold encFault State.takeFault
  dsimp only
  split
  · rename_i h; cases s; simp_all [State.respond]; rename_i e _ _ _ _ _; cases e; simp_all
  · rename_i h; cases s; simp_all [State.respond, State.setEnc]

theorem decFault_eq (s : State) (c : Cause) : decFault s c = s.takeFault .dec c := by
  unfold decFault State.takeFault
  dsimp only
  split
  · rename_i h; cases s; simp_all [State.respond]; rename_i e _ _ _ _; cases e; simp_all
  · rename_i h; cases s; simp_all [State.respond, State.setDec]

theorem utilFault_eq (s : State) (c : Cause) : utilFault s c = s.takeFault .util c := rfl

/-! ### Deltas as 8-bit patterns -/

/-- The wrapping sum is the sum of 8-bit patterns. -/
theorem add8_ofInt (x : Byte) (d : Int) : add8 x d = x + BitVec.ofInt 8 d := by
  have hx := x.isLt
  rw [add8]
  apply BitVec.eq_of_toInt_eq
  rw [BitVec.toInt_ofInt, BitVec.toInt_add, BitVec.toInt_ofInt, BitVec.toInt_eq_toNat_cond]
  simp only [Int.bmod]
  split <;> omega

/-- Adding a channel's delta back gives the channel (00_scope.md R8, R9). -/
theorem add8_delta (cur prev : Byte) : add8 prev (delta cur prev) = cur := by
  rw [add8_ofInt, delta_toInt, BitVec.ofInt_toInt, BitVec.add_comm, BitVec.sub_add_cancel]

theorem diffBytes_bits : ∀ a b c : Fin 4,
    diffBytes ((a.val : Int) - 2) ((b.val : Int) - 2) ((c.val : Int) - 2) =
      [diffByte (BitVec.ofNat 8 a.val - 2) (BitVec.ofNat 8 b.val - 2) (BitVec.ofNat 8 c.val - 2)] := by
  decide +kernel

theorem lumaByte0_bits : ∀ n : Fin 64,
    BitVec.ofNat 8 (0x80 + n.val) = 0x80#8 ||| BitVec.ofNat 8 n.val := by decide +kernel

theorem lumaByte1_bits : ∀ n m : Fin 16,
    BitVec.ofNat 8 (16 * n.val + m.val) = (BitVec.ofNat 8 n.val <<< 4) ||| BitVec.ofNat 8 m.val := by
  decide +kernel

/-- A delta of at least -k is a number minus the bias k, also as an 8-bit pattern. -/
theorem biased_toInt (d : Byte) (k : Nat) (h : 0 ≤ d.toInt + k) :
    ∃ n : Nat, d.toInt = (n : Int) - k ∧ d = BitVec.ofNat 8 n - BitVec.ofNat 8 k := by
  refine ⟨(d.toInt + k).toNat, by omega, ?_⟩
  have e : BitVec.ofNat 8 (d.toInt + k).toNat = d + BitVec.ofNat 8 k := by
    apply BitVec.eq_of_toNat_eq
    have := d.isLt
    rw [BitVec.toInt_eq_toNat_cond] at *
    simp only [BitVec.toNat_add, BitVec.toNat_ofNat]
    split at h <;> split <;> omega
  rw [e]; simp

/-- A Diff chunk in the form R143 writes it. -/
theorem diffBytes_eq (dr dg db : Byte) (h : diffRange dr.toInt dg.toInt db.toInt = true) :
    diffBytes dr.toInt dg.toInt db.toInt = [diffByte dr dg db] := by
  simp only [diffRange, inRange, Bool.and_eq_true, decide_eq_true_eq] at h
  obtain ⟨n, e1, f1⟩ := biased_toInt dr 2 (by omega)
  obtain ⟨m, e2, f2⟩ := biased_toInt dg 2 (by omega)
  obtain ⟨k, e3, f3⟩ := biased_toInt db 2 (by omega)
  have := diffBytes_bits ⟨n, by omega⟩ ⟨m, by omega⟩ ⟨k, by omega⟩
  rw [e1, e2, e3, f1, f2, f3]
  exact this

/-- A Luma chunk in the form R144 writes it. -/
theorem lumaBytes_eq (dr dg db : Byte)
    (h : lumaRange dg.toInt (dr.toInt - dg.toInt) (db.toInt - dg.toInt) = true) :
    lumaBytes dg.toInt (dr.toInt - dg.toInt) (db.toInt - dg.toInt) =
      [lumaByte0 dg, lumaByte1 dr dg db] := by
  simp only [lumaRange, inRange, Bool.and_eq_true, decide_eq_true_eq] at h
  obtain ⟨n, e1, f1⟩ := biased_toInt dg 32 (by omega)
  obtain ⟨m, e2, f2⟩ := biased_toInt dr 40 (by omega)
  obtain ⟨k, e3, f3⟩ := biased_toInt db 40 (by omega)
  rw [e1, e2, e3] at h ⊢
  have l0 := lumaByte0_bits ⟨n, by omega⟩
  have l1 := lumaByte1_bits ⟨m - n, by omega⟩ ⟨k - n, by omega⟩
  dsimp only at l0 l1
  have g1 : ((m : Int) - (40 : Nat) - ((n : Int) - (32 : Nat)) + 8).toNat = m - n := by omega
  have g2 : ((k : Int) - (40 : Nat) - ((n : Int) - (32 : Nat)) + 8).toNat = k - n := by omega
  have g3 : ((n : Int) - (32 : Nat) + 32).toNat = n := by omega
  simp only [lumaBytes, g1, g2, g3, lumaByte0, lumaByte1]
  have q1 : dr - dg + 8 = BitVec.ofNat 8 (m - n) := by
    rw [f1, f2]; apply BitVec.eq_of_toNat_eq; simp; omega
  have q2 : db - dg + 8 = BitVec.ofNat 8 (k - n) := by
    rw [f1, f3]; apply BitVec.eq_of_toNat_eq; simp; omega
  rw [q1, q2, l1, f1]
  have q3 : (BitVec.ofNat 8 n - BitVec.ofNat 8 32 + 32 : Byte) = BitVec.ofNat 8 n := by simp
  rw [q3, l0]
  rfl

end Sys2Proof.Machine
end

