-- ==== Sys2Proof/Laws/Frames.lean ====
section
/-! SUPPORT. Laws/Frames.lean: what each command of ENC, DEC and FRAME leaves as it is, one lemma for each
operation of the machine, and that an encode call's pixels keep the call active. -/

namespace Sys2Proof.Machine

/-- `exec` of a chunk is the chunk's own operation, the one DEC.STEP runs. -/
theorem exec_chunk (c : Chunk) (s : State) : exec c.toInstr s = .next (execChunk c s) := by
  cases c <;> rfl

theorem execChunk_frame (c : Chunk) (s : State) :
    (execChunk c s).cfg = s.cfg ∧ (execChunk c s).enc = s.enc ∧ (execChunk c s).hdr = s.hdr ∧
      (execChunk c s).utilCause = s.utilCause ∧ (execChunk c s).port = s.port := by
  cases c <;> exact State.chunkStep_frame _ _ _ _ _

theorem State.encEnd_frame (s : State) :
    s.encEnd.cfg = s.cfg ∧ s.encEnd.dec = s.dec ∧ s.encEnd.hdr = s.hdr ∧
      s.encEnd.utilCause = s.utilCause ∧ s.encEnd.port = s.port := by
  unfold State.encEnd
  dsimp only
  split <;> exact s.encStep_frame _

theorem State.decStart_frame (s : State) (b : Seq) (w h : Word) :
    (s.decStart b w h).cfg = s.cfg ∧ (s.decStart b w h).enc = s.enc ∧ (s.decStart b w h).hdr = s.hdr ∧
      (s.decStart b w h).utilCause = s.utilCause ∧ (s.decStart b w h).port = s.port := by
  cases b <;> simp [State.decStart]

theorem State.decStep_frame (s : State) :
    s.decStep.cfg = s.cfg ∧ s.decStep.enc = s.enc ∧ s.decStep.hdr = s.hdr ∧
      s.decStep.utilCause = s.utilCause ∧ s.decStep.port = s.port := by
  unfold State.decStep
  split
  · simp
  · split
    · simp
    · exact execChunk_frame _ _

theorem State.decFinish_frame (s : State) :
    s.decFinish.cfg = s.cfg ∧ s.decFinish.enc = s.enc ∧ s.decFinish.hdr = s.hdr ∧
      s.decFinish.utilCause = s.utilCause ∧ s.decFinish.port = s.port := by
  unfold State.decFinish
  split
  · simp
  · split <;> simp

theorem State.hdrParse_frame (s : State) (h : Seq) :
    (s.hdrParse h).cfg = s.cfg ∧ (s.hdrParse h).enc = s.enc ∧ (s.hdrParse h).dec = s.dec ∧
      ((s.hdrParse h).utilCause = s.utilCause ∨
        (s.hdrParse h).response = .fault (s.hdrParse h).utilCause) ∧
      (s.hdrParse h).port = s.port := by
  unfold State.hdrParse
  split <;> simp

/-! ### The file-level compositions -/

theorem State.encPixels_frame (ps : List Pixel) : ∀ s : State,
    (State.encPixels ps s).cfg = s.cfg ∧ (State.encPixels ps s).dec = s.dec ∧
      (State.encPixels ps s).hdr = s.hdr ∧ (State.encPixels ps s).utilCause = s.utilCause ∧
      (State.encPixels ps s).port = s.port := by
  induction ps with
  | nil => exact fun s => ⟨rfl, rfl, rfl, rfl, rfl⟩
  | cons p ps ih =>
    intro s
    obtain ⟨a, b, c, d, e⟩ := ih (s.encPixel p)
    obtain ⟨a', b', c', d', e'⟩ := s.encStep_frame (Enc.pixel p)
    exact ⟨a.trans a', b.trans b', c.trans c', d.trans d', e.trans e'⟩

/-- In a call, with the run counter in its range, ENC.PIXEL of any pixel is a step of the call. -/
theorem State.encPixel_ok (s : State) (p : Pixel) (hm : s.enc.mode = .active) (hr : s.enc.run ≤ 61) :
    ∃ e, Enc.pixel p s.enc = .ok e ∧ s.encPixel p = (s.setEnc e).respond .done ∧ e.mode = .active ∧
      e.run ≤ 61 ∧ e.pi = s.enc.pi + 1 ∧ e.cause = s.enc.cause := by
  by_cases h : p = s.enc.prev
  · subst h
    have hp := Enc.pixel_run s.enc
    split at hp
    · exact ⟨_, hp, State.encStep_ok hm hp, hm, by simp, rfl, rfl⟩
    · exact ⟨_, hp, State.encStep_ok hm hp, hm, by dsimp only; omega, rfl, rfl⟩
  · have hp := Enc.pixel_ne s.enc p h (by omega)
    exact ⟨_, hp, State.encStep_ok hm hp, hm, by simp, rfl, rfl⟩

theorem State.encPixels_active (ps : List Pixel) : ∀ s : State, s.enc.mode = .active → s.enc.run ≤ 61 →
    (State.encPixels ps s).enc.mode = .active ∧ (State.encPixels ps s).enc.run ≤ 61 ∧
      (State.encPixels ps s).enc.pi = s.enc.pi + ps.length := by
  induction ps with
  | nil => exact fun s h h' => ⟨h, h', rfl⟩
  | cons p ps ih =>
    intro s hm hr
    obtain ⟨e, -, h2, h3, h4, h5, -⟩ := s.encPixel_ok p hm hr
    obtain ⟨a, b, c⟩ := ih (s.encPixel p) (by simpa [h2] using h3) (by simpa [h2] using h4)
    refine ⟨a, b, c.trans ?_⟩
    simp only [h2, State.respond_enc, State.setEnc_enc, h5, List.length_cons]
    omega

theorem State.encEnd_done (s : State) (hm : s.enc.mode = .active) (hr : s.enc.run ≤ 61) :
    s.encEnd.enc.mode = .done := by
  simp [State.encEnd, State.encStep, hm, Enc.finish_ok _ (show s.enc.run ≤ 62 by omega)]

theorem State.fileEncode_frame (s : State) (h : Hdr) (ps : Option (List Pixel)) :
    (s.fileEncode h ps).cfg = s.cfg ∧ (s.fileEncode h ps).dec = s.dec ∧ (s.fileEncode h ps).hdr = s.hdr ∧
      ((s.fileEncode h ps).utilCause = s.utilCause ∨
        (s.fileEncode h ps).response = .fault (s.fileEncode h ps).utilCause) ∧
      (s.fileEncode h ps).port = s.port := by
  unfold State.fileEncode
  cases ps with
  | none => simp
  | some ps =>
    dsimp only
    split
    · simp
    · split
      · simp
      · obtain ⟨a, b, c, d, e⟩ := State.encPixels_frame ps s.encStart
        obtain ⟨a', b', c', d', e'⟩ := (State.encPixels ps s.encStart).encEnd_frame
        split
        · simp_all [State.encStart]
        · exact ⟨a'.trans a, b'.trans b, c'.trans c, Or.inl (d'.trans d), e'.trans e⟩

theorem State.decLoop_frame (n : Nat) : ∀ s : State,
    (State.decLoop n s).cfg = s.cfg ∧ (State.decLoop n s).enc = s.enc ∧
      (State.decLoop n s).hdr = s.hdr ∧ (State.decLoop n s).utilCause = s.utilCause ∧
      (State.decLoop n s).port = s.port := by
  induction n with
  | zero => exact fun s => ⟨rfl, rfl, rfl, rfl, rfl⟩
  | succ n ih =>
    intro s
    unfold State.decLoop
    split
    · obtain ⟨a, b, c, d, e⟩ := ih s.decStep
      obtain ⟨a', b', c', d', e'⟩ := s.decStep_frame
      exact ⟨a.trans a', b.trans b', c.trans c', d.trans d', e.trans e'⟩
    · exact ⟨rfl, rfl, rfl, rfl, rfl⟩

theorem State.fileDecode_frame (s : State) (file : Seq) :
    (s.fileDecode file).cfg = s.cfg ∧ (s.fileDecode file).enc = s.enc ∧
      ((s.fileDecode file).utilCause = s.utilCause ∨
        (s.fileDecode file).response = .fault (s.fileDecode file).utilCause) ∧
      (s.fileDecode file).port = s.port := by
  unfold State.fileDecode
  cases file with
  | none => simp
  | some f =>
    dsimp only
    split
    · simp
    · split
      · simp
      · split
        · simp
        · split
          · simp
          · rename_i hd _
            generalize (f.drop headerLen).take (f.length - endLen - headerLen) = body
            obtain ⟨a, b, c, d, e⟩ :=
              State.decLoop_frame body.length ((s.setHdr hd).decStart (some body) hd.width hd.height)
            generalize State.decLoop body.length _ = t at *
            obtain ⟨a', b', c', d', e'⟩ := t.decFinish_frame
            split
            · split <;> simp_all [State.decStart]
            · exact ⟨a, b, Or.inl d, e⟩

end Sys2Proof.Machine
end

