-- ==== Sys2Proof/Laws/PerInstr.lean ====
section
/-! SUPPORT. Laws/PerInstr.lean: facts about every instruction as syntax, one lemma per constructor. -/

namespace Sys2Proof.Laws.LeadByte

/-- The lead byte of a command's record is the command's 5-bit code (30_encoding.md R95). -/
def Statement (i : Instr) : Prop := ∀ c, i.cmd = some c → (encode i).head? = some (c.setWidth 8)

theorem index (slot : BitVec 6) : Statement (.index slot) := nofun

theorem diff (dr dg db : Int) : Statement (.diff dr dg db) := nofun

theorem luma (dg drDg dbDg : Int) : Statement (.luma dg drDg dbDg) := nofun

theorem run (length : Nat) : Statement (.run length) := nofun

theorem rgb (r g b : Byte) : Statement (.rgb r g b) := nofun

theorem rgba (r g b a : Byte) : Statement (.rgba r g b a) := nofun

theorem header (magic : Vector Byte 4) (width height : Word) (channels colorspace : Byte) :
    Statement (.header magic width height channels colorspace) := nofun

theorem endMarker (bytes : Vector Byte 8) : Statement (.endMarker bytes) := nofun

theorem runExtend : Statement .runExtend := nofun

theorem runFlushFull : Statement .runFlushFull := nofun

theorem runFlushPending : Statement .runFlushPending := nofun

theorem emitIndex (slot : BitVec 6) : Statement (.emitIndex slot) := nofun

theorem cacheUpdate (px : Pixel) : Statement (.cacheUpdate px) := nofun

theorem emitDiff (dr dg db : Int) : Statement (.emitDiff dr dg db) := nofun

theorem emitLuma (dr dg db : Int) : Statement (.emitLuma dr dg db) := nofun

theorem emitRgb (r g b : Byte) : Statement (.emitRgb r g b) := nofun

theorem emitRgba (px : Pixel) : Statement (.emitRgba px) := nofun

theorem prevAdvance (px : Pixel) : Statement (.prevAdvance px) := nofun

theorem finalFlush : Statement .finalFlush := nofun

theorem utilEq (a b : Seq) : Statement (.utilEq a b) := by
  intro c h; cases h; rfl

theorem utilBe32Unpack (s : Seq) : Statement (.utilBe32Unpack s) := by
  intro c h; cases h; rfl

theorem utilBe32Pack (x : Word) : Statement (.utilBe32Pack x) := by
  intro c h; cases h; rfl

theorem utilConcat (args : ConcatArgs) : Statement (.utilConcat args) := by
  intro c h; cases h; rfl

theorem utilExtract (input : Seq) (start length : Int) :
    Statement (.utilExtract input start length) := by
  intro c h; cases h; rfl

theorem utilPartition (input : Seq) (sizes : List Int) :
    Statement (.utilPartition input sizes) := by
  intro c h; cases h; rfl

theorem hash (px : Pixel) : Statement (.hash px) := by
  intro c h; cases h; rfl

theorem encRgb (px : Option Pixel) : Statement (.encRgb px) := by
  intro c h; cases h; rfl

theorem encRgba (px : Option Pixel) : Statement (.encRgba px) := by
  intro c h; cases h; rfl

theorem encIndex (slot : Byte) : Statement (.encIndex slot) := by
  intro c h; cases h; rfl

theorem encDiff (dr dg db : Byte) : Statement (.encDiff dr dg db) := by
  intro c h; cases h; rfl

theorem encLuma (dr dg db : Byte) : Statement (.encLuma dr dg db) := by
  intro c h; cases h; rfl

theorem encRun (count : Byte) : Statement (.encRun count) := by
  intro c h; cases h; rfl

theorem decRgb (prev : Option Pixel) (payload : Seq) : Statement (.decRgb prev payload) := by
  intro c h; cases h; rfl

theorem decRgba (payload : Seq) : Statement (.decRgba payload) := by
  intro c h; cases h; rfl

theorem decDiff (prev : Option Pixel) (b : Byte) : Statement (.decDiff prev b) := by
  intro c h; cases h; rfl

theorem decLuma (prev : Option Pixel) (bytes : Seq) : Statement (.decLuma prev bytes) := by
  intro c h; cases h; rfl

theorem decRun (prev : Option Pixel) (b : Byte) (pos : Nat) : Statement (.decRun prev b pos) := by
  intro c h; cases h; rfl

theorem encStart : Statement .encStart := by
  intro c h; cases h; rfl

theorem encPixel (px : Pixel) : Statement (.encPixel px) := by
  intro c h; cases h; rfl

theorem encEnd : Statement .encEnd := by
  intro c h; cases h; rfl

theorem decStart (bytes : Seq) (width height : Word) :
    Statement (.decStart bytes width height) := by
  intro c h; cases h; rfl

theorem decStep : Statement .decStep := by
  intro c h; cases h; rfl

theorem decFinish : Statement .decFinish := by
  intro c h; cases h; rfl

theorem hdrBuild : Statement .hdrBuild := by
  intro c h; cases h; rfl

theorem hdrParse (h : Seq) : Statement (.hdrParse h) := by
  intro c h; cases h; rfl

theorem fileEncode (width height : Word) (channels colorspace : Byte) (pixels : Option (List Pixel)) :
    Statement (.fileEncode width height channels colorspace pixels) := by
  intro c h; cases h; rfl

theorem fileDecode (file : Seq) : Statement (.fileDecode file) := by
  intro c h; cases h; rfl

theorem unassigned (code : BitVec 2) : Statement (.unassigned code) := nofun

end Sys2Proof.Laws.LeadByte
end

