-- ==== Sys2Proof/Laws/Port.lean ====
section
/-! SUPPORT. Laws/Port.lean: what a step does with the record at the head of the port, and that the port
carries commands and nothing else. -/

namespace Sys2Proof

/-- What a bind that succeeds went through. -/
theorem bind_eq_ok {ε α β : Type} {x : Except ε α} {f : α → Except ε β} {y : β} (h : x >>= f = .ok y) :
    ∃ a, x = .ok a ∧ f a = .ok y := by
  cases x with
  | error e => cases h
  | ok a => exact ⟨a, rfl, h⟩

/-- The command decoder answers commands only. -/
theorem decodeCommand_space {bs rest : List Byte} {i : Instr} (h : decodeCommand bs = .ok (i, rest)) :
    i.space = .command := by
  cases bs with
  | nil => cases h
  | cons c bs =>
    unfold decodeCommand at h
    dsimp only at h
    split at h
    all_goals first
      | (cases h; done)
      | (cases h; rfl)
      | (obtain ⟨_, -, h⟩ := bind_eq_ok h; cases h; rfl)
      | (obtain ⟨_, -, h⟩ := bind_eq_ok h; obtain ⟨_, -, h⟩ := bind_eq_ok h; cases h; rfl)
      | (obtain ⟨_, -, h⟩ := bind_eq_ok h; obtain ⟨_, -, h⟩ := bind_eq_ok h
         obtain ⟨_, -, h⟩ := bind_eq_ok h; cases h; rfl)
      | (obtain ⟨_, -, h⟩ := bind_eq_ok h; obtain ⟨_, -, h⟩ := bind_eq_ok h
         obtain ⟨_, -, h⟩ := bind_eq_ok h; obtain ⟨_, -, h⟩ := bind_eq_ok h
         obtain ⟨_, -, h⟩ := bind_eq_ok h; cases h; rfl)

namespace Machine

theorem fetchCommand_space {cfg : Config} {record : List Byte} {i : Instr}
    (h : fetchCommand cfg record = .ok i) : i.space = .command := by
  unfold fetchCommand decodeRecord at h
  split at h
  · cases h
  · rename_i j hj
    split at h
    · cases h
      split at hj <;> cases hj
      rename_i h'
      exact decodeCommand_space h'
    · cases h

/-- A step with a command record at the head of the port. -/
theorem step_record (s : State) (record : List Byte) (rest : List HostInput)
    (hp : s.port = .command record :: rest) :
    step s = match fetchCommand s.cfg record with
      | .ok i => carry (exec i { s with port := rest })
      | .error r => .refused r := by
  simp only [step, nextInput, hp]
  cases fetchCommand s.cfg record <;> rfl

/-- What a sequence operand's check says. -/
theorem seqWithin_iff (n : Nat) (x : Seq) : seqWithin n x = true ↔ ∀ bs, some bs = x → bs.length ≤ n := by
  cases x <;> simp [seqWithin]

/-- The check of a command's operands is the bound on each of its sequences. -/
theorem operandsWithin_iff (n : Nat) (i : Instr) : operandsWithin n i = true ↔ i.OperandsFit n := by
  unfold operandsWithin Instr.OperandsFit
  split <;> simp [Instr.byteOperands, Instr.pixelOperands, seqWithin_iff]
  · constructor
    · rintro ⟨ha, hb⟩ bs (h | h)
      exacts [ha bs h, hb bs h]
    · exact fun h => ⟨fun bs hb => h bs (.inl hb), fun bs hb => h bs (.inr hb)⟩
  · rename_i args
    cases args with
    | bytes bs => simp [concatWithin]
    | seqs ss =>
      simp only [concatWithin, List.all_eq_true, seqWithin_iff]
      exact ⟨fun h bs hb => h _ hb bs rfl, fun h x hx bs hb => h bs (hb ▸ hx)⟩
  · rename_i pixels
    cases pixels <;> simp [pixelsWithin]

/-- The check of an answer is the bound on its byte sequences. -/
theorem responseWithin_iff (n : Nat) (r : Response) : responseWithin n r = true ↔ r.Fits n := by
  cases r <;> simp [responseWithin, Response.Fits]

/-- The check of a command's results is the bound on `enc.out` and on the answer. -/
theorem resultsWithin_iff (s : State) : resultsWithin s = true ↔
    s.enc.out.length ≤ s.cfg.maxLen ∧ s.response.Fits s.cfg.maxLen := by
  simp [resultsWithin, responseWithin_iff]

/-- All that carrying a command's results out can do. -/
theorem carry_next {o : Host.Outcome State Fault Refusal} {t : State} :
    carry o = .next t ↔ o = .next t ∧ t.enc.out.length ≤ t.cfg.maxLen ∧ t.response.Fits t.cfg.maxLen := by
  cases o with
  | next u =>
    rw [← resultsWithin_iff]
    by_cases h : resultsWithin u = true
    · simp only [carry, h, if_true]
      exact ⟨fun e => by cases e; exact ⟨rfl, h⟩, And.left⟩
    · simp only [carry, h]
      exact ⟨nofun, fun e => by cases e.1; exact absurd e.2 h⟩
  | fault r => exact ⟨nofun, nofun⟩
  | refused r => exact ⟨nofun, nofun⟩

/-- A command's own refusal passes through. -/
@[simp] theorem carry_refused (r : Refusal) : carry (.refused r) = .refused r := rfl

end Machine

end Sys2Proof
end

