-- ==== Sys2Proof/Tests/Slice0.lean ====
section
/-! SUPPORT. Tests/Slice0.lean: the ill-formed terms each check of WellFormed refuses, words written out from
the spec's encodings, one-step tests whose expected values are the vectors of 95_test_vectors.md
(U, H, K, E, D, P) or worked by hand from the rules, and a witness for the hypotheses of every statement. -/

namespace Sys2Proof.Tests

open Sys2Proof.Machine

/-! ### Helpers -/

/-- The state a next outcome holds. -/
def nextOf : Host.Outcome State Fault Refusal → Option State
  | .next t => some t
  | .fault _ => none
  | .refused _ => none

/-- What the host is answered when an instruction is executed. -/
def answer (i : Instr) (s : State) : Option Response := (nextOf (exec i s)).map State.response

/-- ENC's registers after an instruction. -/
def encAfter (i : Instr) (s : State) : Option Enc := (nextOf (exec i s)).map State.enc

/-- DEC's registers after an instruction. -/
def decAfter (i : Instr) (s : State) : Option Dec := (nextOf (exec i s)).map State.dec

/-- The reset state with an encode call in progress. -/
def inCall (prev : Pixel) (run : Nat) (cache : Cache) : State :=
  { State.reset with enc := { Enc.start Config.default with prev := prev, run := run, cache := cache } }

/-- The reset state with a decode call in progress. -/
def decoding (input : List Byte) (npix : Nat) : State :=
  { State.reset with dec := { Dec.start Config.default input 0 0 with npix := npix } }

/-- The reset state with one record on the port. -/
def withRecord (record : List Byte) : State := { State.reset with port := [.command record] }

/-- The reset state with another MAX_LEN and one record on the port. -/
def narrow (maxLen : Nat) (record : List Byte) : State :=
  { State.reset with cfg := { Config.default with maxLen := maxLen }, port := [.command record] }

/-- The default `PREV_INIT`. -/
def black : Pixel := ⟨0, 0, 0, 255⟩

/-- The pixel (10, 20, 30, 255), whose slot is 9. -/
def p9 : Pixel := ⟨10, 20, 30, 255⟩

/-! ### WellFormed refuses -/

theorem test_wf_diff_red_low : (Instr.diff (-3) 0 0).wellFormed = false := by decide
theorem test_wf_diff_green_high : (Instr.diff 0 2 0).wellFormed = false := by decide
theorem test_wf_diff_blue_high : (Instr.diff 0 0 2).wellFormed = false := by decide
theorem test_wf_luma_green_low : (Instr.luma (-33) 0 0).wellFormed = false := by decide
theorem test_wf_luma_red_high : (Instr.luma 0 8 0).wellFormed = false := by decide
theorem test_wf_luma_blue_low : (Instr.luma 0 0 (-9)).wellFormed = false := by decide
theorem test_wf_run_zero : (Instr.run 0).wellFormed = false := by decide
theorem test_wf_run_long : (Instr.run 63).wellFormed = false := by decide
theorem test_wf_emitDiff : (Instr.emitDiff 2 0 0).wellFormed = false := by decide
theorem test_wf_emitLuma : (Instr.emitLuma 8 0 0).wellFormed = false := by decide
theorem test_wf_decRun_position : (Instr.decRun none 0xC0 (2 ^ 64)).wellFormed = false := by decide
theorem test_wf_extract_start : (Instr.utilExtract none (2 ^ 63) 0).wellFormed = false := by decide
theorem test_wf_extract_length : (Instr.utilExtract none 0 (-(2 ^ 63) - 1)).wellFormed = false := by decide
theorem test_wf_partition_size : (Instr.utilPartition none [2 ^ 63]).wellFormed = false := by decide

theorem seqFits_long : seqFits (some (List.replicate (2 ^ 64) 0)) = false := by
  simp only [seqFits, countFits, List.length_replicate]; rfl

theorem test_wf_long_sequences :
    (Instr.utilEq (some (List.replicate (2 ^ 64) 0)) none).wellFormed = false ∧
    (Instr.utilEq none (some (List.replicate (2 ^ 64) 0))).wellFormed = false ∧
    (Instr.utilBe32Unpack (some (List.replicate (2 ^ 64) 0))).wellFormed = false ∧
    (Instr.utilExtract (some (List.replicate (2 ^ 64) 0)) 0 0).wellFormed = false ∧
    (Instr.utilPartition (some (List.replicate (2 ^ 64) 0)) []).wellFormed = false ∧
    (Instr.decRgb none (some (List.replicate (2 ^ 64) 0))).wellFormed = false ∧
    (Instr.decRgba (some (List.replicate (2 ^ 64) 0))).wellFormed = false ∧
    (Instr.decLuma none (some (List.replicate (2 ^ 64) 0))).wellFormed = false ∧
    (Instr.decStart (some (List.replicate (2 ^ 64) 0)) 0 0).wellFormed = false ∧
    (Instr.hdrParse (some (List.replicate (2 ^ 64) 0))).wellFormed = false ∧
    (Instr.fileDecode (some (List.replicate (2 ^ 64) 0))).wellFormed = false := by
  simp only [Instr.wellFormed, seqFits_long, Bool.and_false, Bool.false_and, and_self]

theorem test_wf_long_lists :
    (Instr.utilConcat (.bytes (List.replicate (2 ^ 64) 0))).wellFormed = false ∧
    (Instr.utilConcat (.seqs (List.replicate (2 ^ 64) none))).wellFormed = false ∧
    (Instr.utilConcat (.seqs [some (List.replicate (2 ^ 64) 0)])).wellFormed = false ∧
    (Instr.utilPartition none (List.replicate (2 ^ 64) 0)).wellFormed = false ∧
    (Instr.fileEncode 0 0 3 0 (some (List.replicate (2 ^ 64) black))).wellFormed = false := by
  refine ⟨?_, ?_, ?_, ?_, ?_⟩ <;>
    simp only [Instr.wellFormed, concatFits, pixelsFit, countFits, List.length_replicate, seqFits_long,
      List.all_cons, List.all_nil, Bool.false_and, Bool.and_false, lt_self_iff_false, decide_false,
      Bool.and_true]

/-! ### Words written out from the spec -/

/-- Formats of R81 to R86: tag bits first, the fields in order, biased as the rules say. -/
theorem test_words_chunks :
    decode .chunk [0b00111111] = .ok (.index 63, []) ∧
    decode .chunk [0b01001101] = .ok (.diff (-2) 1 (-1), []) ∧
    decode .chunk [0b10111111, 0b11110000] = .ok (.luma 31 7 (-8), []) ∧
    decode .chunk [0b11000000] = .ok (.run 1, []) ∧
    decode .chunk [0b11111110, 1, 2, 3] = .ok (.rgb 1 2 3, []) ∧
    decode .chunk [0b11111111, 1, 2, 3, 4] = .ok (.rgba 1 2 3 4, []) := by and_intros <;> decide

/-- R87 and R88. -/
theorem test_words_file_records :
    decode .fileHead [0x71, 0x6F, 0x69, 0x66, 1, 2, 3, 4, 0xFF, 0xFF, 0xFF, 0xFF, 4, 1] =
      .ok (.header #v[0x71, 0x6F, 0x69, 0x66] 0x01020304 0xFFFFFFFF 4 1, []) ∧
    decode .fileTail [0, 0, 0, 0, 0, 0, 0, 1] = .ok (.endMarker #v[0, 0, 0, 0, 0, 0, 0, 1], []) := by and_intros <;> decide

/-- The labels of log entry 11, each before the chunk the action emits or the pixel it takes. -/
theorem test_words_actions :
    decode .action [0] = .ok (.runExtend, []) ∧
    decode .action [1] = .ok (.runFlushFull, []) ∧
    decode .action [2] = .ok (.runFlushPending, []) ∧
    decode .action [3, 0x09] = .ok (.emitIndex 9, []) ∧
    decode .action [4, 255, 10, 20, 30] = .ok (.cacheUpdate p9, []) ∧
    decode .action [5, 0x5B] = .ok (.emitDiff (-1) 0 1, []) ∧
    decode .action [6, 0xAB, 0x65] = .ok (.emitLuma 9 11 8, []) ∧
    decode .action [7, 0xFE, 10, 20, 30] = .ok (.emitRgb 10 20 30, []) ∧
    decode .action [8, 0xFF, 10, 20, 30, 255] = .ok (.emitRgba p9, []) ∧
    decode .action [9, 255, 10, 20, 30] = .ok (.prevAdvance p9, []) ∧
    decode .action [10] = .ok (.finalFlush, []) := by and_intros <;> decide

/-- The codes of R95 for UTIL and HASH; the operands in the records of log entry 3. -/
theorem test_words_util :
    decodeRecord [0x00, 1, 0, 0, 0, 0, 0, 0, 0, 1, 0xAA, 0] = .ok (.utilEq (some [0xAA]) none) ∧
    decodeRecord [0x01, 1, 0, 0, 0, 0, 0, 0, 0, 2, 3, 4] = .ok (.utilBe32Unpack (some [3, 4])) ∧
    decodeRecord [0x02, 0x12, 0x34, 0x56, 0x78] = .ok (.utilBe32Pack 0x12345678) ∧
    decodeRecord [0x03, 0, 0, 0, 0, 0, 0, 0, 0, 1, 7] = .ok (.utilConcat (.bytes [7])) ∧
    decodeRecord [0x03, 1, 0, 0, 0, 0, 0, 0, 0, 1, 0] = .ok (.utilConcat (.seqs [none])) ∧
    decodeRecord [0x04, 0, 0, 0, 0, 0, 0, 0, 0, 5, 0xFF, 0xFF, 0xFF, 0xFF, 0xFF, 0xFF, 0xFF, 0xFF] =
      .ok (.utilExtract none 5 (-1)) ∧
    decodeRecord [0x05, 0, 0, 0, 0, 0, 0, 0, 0, 1, 0, 0, 0, 0, 0, 0, 1, 0] =
      .ok (.utilPartition none [256]) ∧
    decodeRecord [0x06, 255, 10, 20, 30] = .ok (.hash p9) := by and_intros <;> decide +kernel

/-- The codes of R95 for CODEC. -/
theorem test_words_codec :
    decodeRecord [0x07, 1, 255, 10, 20, 30] = .ok (.encRgb (some p9)) ∧
    decodeRecord [0x08, 0] = .ok (.encRgba none) ∧
    decodeRecord [0x09, 64] = .ok (.encIndex 64) ∧
    decodeRecord [0x0A, 0xFF, 0, 1] = .ok (.encDiff 0xFF 0 1) ∧
    decodeRecord [0x0B, 9, 11, 8] = .ok (.encLuma 9 11 8) ∧
    decodeRecord [0x0C, 62] = .ok (.encRun 62) ∧
    decodeRecord [0x0D, 1, 255, 10, 20, 30, 0] = .ok (.decRgb (some p9) none) ∧
    decodeRecord [0x0E, 1, 0, 0, 0, 0, 0, 0, 0, 0] = .ok (.decRgba (some [])) ∧
    decodeRecord [0x0F, 0, 0x7F] = .ok (.decDiff none 0x7F) ∧
    decodeRecord [0x10, 0, 0] = .ok (.decLuma none none) ∧
    decodeRecord [0x11, 0, 0xC1, 0, 0, 0, 0, 0, 0, 1, 0] = .ok (.decRun none 0xC1 256) := by and_intros <;> decide +kernel

/-- The codes of R95 for ENC, DEC and FRAME, and the four that R95 leaves unassigned. -/
theorem test_words_machines :
    decodeRecord [0x12] = .ok .encStart ∧
    decodeRecord [0x13, 255, 10, 20, 30] = .ok (.encPixel p9) ∧
    decodeRecord [0x14] = .ok .encEnd ∧
    decodeRecord [0x15, 1, 0, 0, 0, 0, 0, 0, 0, 1, 0xC1, 0, 0, 0, 2, 0, 0, 0, 1] =
      .ok (.decStart (some [0xC1]) 2 1) ∧
    decodeRecord [0x16] = .ok .decStep ∧
    decodeRecord [0x17] = .ok .decFinish ∧
    decodeRecord [0x18] = .ok .hdrBuild ∧
    decodeRecord [0x19, 0] = .ok (.hdrParse none) ∧
    decodeRecord [0x1A, 0, 0, 0, 1, 0, 0, 0, 1, 3, 0, 1, 0, 0, 0, 0, 0, 0, 0, 1, 255, 10, 20, 30] =
      .ok (.fileEncode 1 1 3 0 (some [p9])) ∧
    decodeRecord [0x1B, 0] = .ok (.fileDecode none) ∧
    decodeRecord [0x1C] = .ok (.unassigned 0) ∧
    decodeRecord [0x1D] = .ok (.unassigned 1) ∧
    decodeRecord [0x1E] = .ok (.unassigned 2) ∧
    decodeRecord [0x1F] = .ok (.unassigned 3) := by and_intros <;> decide

/-- What is no instruction is refused by name. -/
theorem test_words_refused :
    decode .chunk [] = .error .truncated ∧
    decode .chunk [0xAB] = .error .truncated ∧
    decode .chunk [0xFE, 1, 2] = .error .truncated ∧
    decode .chunk [0xFF, 1, 2, 3] = .error .truncated ∧
    decodeRecord [0x20] = .error .badCommand ∧
    decodeRecord [0x12, 0] = .error .trailing ∧
    decodeRecord [0x0E, 2] = .error .badPresent ∧
    decodeRecord [0x03, 2] = .error .badVariant ∧
    decodeRecord [0x02, 0, 0] = .error .truncated ∧
    decode .action [11] = .error .badAction ∧
    decode .action [3, 0x40] = .error .badAction := by and_intros <;> decide

/-- Words as spec/opcode_table.json numbers its rows, and the step that runs them. -/
theorem test_table_words :
    decodeTableWord 8 0x12 = some .encStart ∧
    decodeTableWord 8 0xC1 = some (.run 2) ∧
    decodeTableWord 16 0x8000 = some (.emitLuma (-40) (-32) (-40)) ∧
    decodeTableWord 32 0xFE0A141E = some (.emitRgb 10 20 30) ∧
    decodeTableWord 40 0xFF0A141E80 = some (.emitRgba ⟨10, 20, 30, 128⟩) ∧
    decodeTableWord 64 1 = some (.endMarker #v[0, 0, 0, 0, 0, 0, 0, 1]) ∧
    decodeTableWord 112 0x716F696600000002000000010300 =
      some (.header #v[0x71, 0x6F, 0x69, 0x66] 2 1 3 0) := by and_intros <;> decide

theorem test_fetched_words_run :
    (nextOf (step (State.reset.withFetchWord 8 0x12))).map (fun t => t.enc.mode) = some .active ∧
    (nextOf (step (State.reset.withFetchWord 8 0xC1))).map (fun t => t.dec.op) = some 2 ∧
    (nextOf (step (State.reset.withFetchWord 32 0xFE0A141E))).map (fun t => t.enc.out) =
      some [0xFE, 10, 20, 30] ∧
    (nextOf (step (State.reset.withFetchWord 112 0x716F696600000002000000010300))).map State.hdr =
      some ⟨2, 1, 3, 0⟩ := by and_intros <;> decide

/-- Why a step is refused. -/
def refusalOf : Host.Outcome State Fault Refusal → Option Refusal
  | .refused r => some r
  | .next _ => none
  | .fault _ => none

/-- MAX_LEN (R67, R114, U6): two sequences of one byte each fit MAX_LEN = 1, their concatenation does not;
neither do two single bytes. -/
theorem test_concat_max_len :
    refusalOf (step (narrow 1 (encode (.utilConcat (.seqs [some [7], some [8]]))))) = some .resultTooLong ∧
    refusalOf (step (narrow 1 (encode (.utilConcat (.bytes [7, 8]))))) = some .resultTooLong ∧
    (nextOf (step (narrow 2 (encode (.utilConcat (.bytes [7, 8])))))).map State.response =
      some (.bytes [7, 8]) := by and_intros <;> decide +kernel

/-- A pixel sequence longer than MAX_LEN, and a file longer than MAX_LEN from one that is not. -/
theorem test_fileEncode_max_len :
    refusalOf (step (narrow 1 (encode (.fileEncode 2 1 3 0 (some [black, black]))))) = some .operandTooLong ∧
    refusalOf (step (narrow 22 (encode (.fileEncode 2 1 3 0 (some [black, black]))))) = some .resultTooLong ∧
    refusalOf (step (narrow 23 (encode (.fileEncode 2 1 3 0 (some [black, black]))))) = none := by
  and_intros <;> decide +kernel

/-! ### One step each: UTIL and HASH (vectors U and the hash table) -/

theorem test_eq : answer (.utilEq (some [0, 0, 0, 255]) (some [0, 0, 0, 0])) State.reset =
    some (.bool false) := by decide
theorem test_eq_lengths : answer (.utilEq (some [1]) (some [1, 2])) State.reset =
    some (.fault .lenMismatch) := by decide
theorem test_be32_unpack : answer (.utilBe32Unpack (some [0, 0, 0, 0x80])) State.reset =
    some (.word 128) := by decide
theorem test_be32_pack : answer (.utilBe32Pack 0x12345678) State.reset =
    some (.bytes [0x12, 0x34, 0x56, 0x78]) := by decide
theorem test_concat : answer (.utilConcat (.seqs [some [], some [1], some []])) State.reset =
    some (.bytes [1]) := by decide
theorem test_concat_absent : answer (.utilConcat (.seqs [some [1], none])) State.reset =
    some (.fault .nullOperand) := by decide
theorem test_extract : answer (.utilExtract (some [0x71, 0x6F, 0x69, 0x66, 0, 0, 0, 2]) 4 4) State.reset =
    some (.bytes [0, 0, 0, 2]) := by decide
theorem test_extract_range : answer (.utilExtract (some [1, 2, 3]) (-1) 1) State.reset =
    some (.fault .sliceRange) := by decide
theorem test_partition : answer (.utilPartition (some [1, 2, 3]) [0, 3, 0]) State.reset =
    some (.pieces [[], [1, 2, 3], []]) := by decide
theorem test_partition_negative : answer (.utilPartition (some [1, 2, 3]) [4, -1]) State.reset =
    some (.fault .sliceRange) := by decide
theorem test_hash : answer (.hash ⟨255, 0, 0, 255⟩) State.reset = some (.slot 50) := by decide
theorem test_hash_collision : answer (.hash ⟨74, 20, 30, 255⟩) State.reset = some (.slot 9) := by decide

/-! ### CODEC (vectors K) -/

theorem test_encRgb : answer (.encRgb (some ⟨254, 255, 0, 7⟩)) State.reset =
    some (.bytes [0xFE, 0xFE, 0xFF, 0x00]) := by decide
theorem test_encRgba : answer (.encRgba (some ⟨10, 20, 30, 128⟩)) State.reset =
    some (.bytes [0xFF, 0x0A, 0x14, 0x1E, 0x80]) := by decide
theorem test_encIndex : answer (.encIndex 63) State.reset = some (.bytes [0x3F]) := by decide
theorem test_encIndex_range : answer (.encIndex 64) State.reset = some (.fault .paramRange) := by decide
theorem test_encDiff : answer (.encDiff 0xFF 0 1) State.reset = some (.bytes [0x5B]) := by decide
theorem test_encDiff_range : answer (.encDiff 0 0xFD 0) State.reset = some (.fault .paramRange) := by decide
theorem test_encLuma : answer (.encLuma 9 11 8) State.reset = some (.bytes [0xAB, 0x65]) := by decide
theorem test_encLuma_range : answer (.encLuma 0 0 0xF7) State.reset = some (.fault .paramRange) := by decide
theorem test_encRun : answer (.encRun 62) State.reset = some (.bytes [0xFD]) := by decide
theorem test_encRun_range : answer (.encRun 63) State.reset = some (.fault .paramRange) := by decide
theorem test_decRgb : answer (.decRgb (some ⟨1, 2, 3, 9⟩) (some [0xFF, 0xFE, 0])) State.reset =
    some (.pixel ⟨255, 254, 0, 9⟩) := by decide
theorem test_decRgba : answer (.decRgba (some [0x0A, 0x14, 0x1E, 0x80])) State.reset =
    some (.pixel ⟨10, 20, 30, 128⟩) := by decide
theorem test_decDiff : answer (.decDiff (some ⟨255, 0, 1, 255⟩) 0x74) State.reset =
    some (.pixel ⟨0, 255, 255, 255⟩) := by decide
theorem test_decDiff_tag : answer (.decDiff (some black) 0x3F) State.reset = some (.fault .badTag) := by decide
theorem test_decLuma : answer (.decLuma (some ⟨1, 1, 1, 255⟩) (some [0xAB, 0x65])) State.reset =
    some (.pixel ⟨10, 12, 9, 255⟩) := by decide
theorem test_decLuma_low : answer (.decLuma (some ⟨100, 100, 100, 255⟩) (some [0x80, 0x00])) State.reset =
    some (.pixel ⟨60, 68, 60, 255⟩) := by decide
theorem test_decRun : answer (.decRun (some black) 0xC1 7) State.reset =
    some (.placed 7 [black, black]) := by decide
theorem test_decRun_tag : answer (.decRun (some black) 0xFE 0) State.reset = some (.fault .badTag) := by decide

/-! ### ENC (vectors E and the examples of R171 to R183) -/

/-- E10, protocol note: ENC.START after a fault. -/
theorem test_encStart : (encAfter .encStart { State.reset with
      enc := { State.reset.enc with mode := .fault, cause := .protocol, prev := p9, run := 5 } }).map
    (fun e => (e.mode, e.cause, e.prev, e.run)) = some (.active, .none, black, 0) := by decide

/-- P2, step 4: Luma after a miss at slot 14. -/
theorem test_encPixel_luma : (encAfter (.encPixel ⟨10, 12, 9, 255⟩) (inCall ⟨1, 1, 1, 255⟩ 0 Cache.clear)).map
    (fun e => (e.out, e.cache.read 14, e.prev)) =
      some ([0xAB, 0x65], ⟨10, 12, 9, 255⟩, ⟨10, 12, 9, 255⟩) := by decide

/-- P2, step 3: the pending run first, then Diff. -/
theorem test_encPixel_flush_diff : (encAfter (.encPixel ⟨1, 1, 1, 255⟩) (inCall black 2 Cache.clear)).map
    (fun e => (e.out, e.run)) = some ([0xC1, 0x7F], 0) := by decide

theorem test_encEnd : answer .encEnd (inCall black 2 Cache.clear) = some (.bytes [0xC1]) := by decide
theorem test_encEnd_protocol : answer .encEnd State.reset = some (.fault .protocol) := by decide

theorem test_runExtend : (encAfter .runExtend (inCall black 3 Cache.clear)).map (fun e => (e.run, e.out)) =
    some (4, []) := by decide
theorem test_runExtend_full : (encAfter .runExtend (inCall black 61 Cache.clear)).map
    (fun e => (e.run, e.out)) = some (0, [0xFD]) := by decide
theorem test_runFlushFull : (encAfter .runFlushFull (inCall black 62 Cache.clear)).map
    (fun e => (e.run, e.out)) = some (0, [0xFD]) := by decide
theorem test_runFlushPending : (encAfter .runFlushPending (inCall black 2 Cache.clear)).map
    (fun e => (e.run, e.out)) = some (0, [0xC1]) := by decide
theorem test_emitIndex : (encAfter (.emitIndex 9) (inCall black 0 Cache.clear)).map Enc.out =
    some [0x09] := by decide
theorem test_cacheUpdate : (encAfter (.cacheUpdate p9) (inCall black 0 Cache.clear)).map
    (fun e => (e.cache.read 9, e.cache.read 10, e.out)) = some (p9, Pixel.zero, []) := by decide
theorem test_emitDiff : (encAfter (.emitDiff 1 1 1) (inCall black 0 Cache.clear)).map Enc.out =
    some [0x7F] := by decide
theorem test_emitLuma : (encAfter (.emitLuma 2 0 0) (inCall black 0 Cache.clear)).map Enc.out =
    some [0xA0, 0xA8] := by decide
theorem test_emitRgb : (encAfter (.emitRgb 10 20 30) (inCall black 0 Cache.clear)).map Enc.out =
    some [0xFE, 0x0A, 0x14, 0x1E] := by decide
theorem test_emitRgba : (encAfter (.emitRgba ⟨10, 20, 30, 128⟩) (inCall p9 0 Cache.clear)).map Enc.out =
    some [0xFF, 0x0A, 0x14, 0x1E, 0x80] := by decide
theorem test_prevAdvance : (encAfter (.prevAdvance p9) (inCall black 0 Cache.clear)).map Enc.prev =
    some p9 := by decide
theorem test_finalFlush : (encAfter .finalFlush (inCall black 2 Cache.clear)).map
    (fun e => (e.run, e.out)) = some (0, [0xC1]) := by decide

/-! ### DEC (vectors D) -/

/-- The lock-step example of R287: Run writes no slot, so Index 0 is still ZERO. -/
theorem test_run : (decAfter (.run 2) (decoding [0xC1] 2)).map
    (fun d => (d.ip, d.op, d.out.readPixel 1, d.cache.read 53)) =
      some (1, 2, some black, Pixel.zero) := by decide
/-- D17. -/
theorem test_run_overflow : (decAfter .decStep (decoding [0xC1] 1)).map
    (fun d => (d.cause, d.ip, d.op, d.out)) = some (.pixelOverflow, 0, 0, []) := by decide
/-- D6. -/
theorem test_index : (decAfter (.index 9) (decoding [0x09] 1)).map
    (fun d => (d.prev, d.out.readPixel 0)) = some (Pixel.zero, some Pixel.zero) := by decide
/-- D5: a Diff writes the cache even when it changes nothing. -/
theorem test_diff : (decAfter (.diff 0 0 0) (decoding [0x6A] 1)).map
    (fun d => (d.prev, d.cache.read 53)) = some (black, black) := by decide
/-- P6: Luma(7,0,0). -/
theorem test_luma : (decAfter (.luma 7 0 0) (decoding [0xA7, 0x88] 1)).map
    (fun d => (d.prev, d.cache.read 30, d.ip)) = some (⟨7, 7, 7, 255⟩, ⟨7, 7, 7, 255⟩, 2) := by decide
/-- D8, first chunk: flat order a, r, g, b. -/
theorem test_rgb : (decAfter (.rgb 10 20 30) (decoding [0xFE, 10, 20, 30] 1)).map Dec.out =
    some [(0, 255), (1, 10), (2, 20), (3, 30)] := by decide
/-- D3. -/
theorem test_rgba : (decAfter (.rgba 0 0 0 255) (decoding [0xFF, 0, 0, 0, 0xFF] 1)).map
    (fun d => (d.ip, d.cache.read 53)) = some (5, black) := by decide
/-- P1. -/
theorem test_decStart : (decAfter (.decStart (some [0xC1]) 2 1) State.reset).map
    (fun d => (d.npix, d.prev, d.mode)) = some (2, black, .active) := by decide
/-- D20: TRUNCATED_CHUNK before PIXEL_OVERFLOW. -/
theorem test_decStep_priority : (decAfter .decStep (decoding [0xFE, 0x0A] 0)).map Dec.cause =
    some .truncatedChunk := by decide
/-- D11 and D12. -/
theorem test_decFinish : (decAfter .decFinish (decoding [] 0)).map Dec.mode = some .done := by decide
theorem test_decFinish_underflow : answer .decFinish (decoding [] 1) =
    some (.fault .pixelUnderflow) := by decide

/-! ### FRAME (vectors H and P1) -/

theorem test_hdrBuild : answer .hdrBuild { State.reset with hdr := ⟨0x01020304, 0xFFFFFFFF, 4, 1⟩ } =
    some (.bytes [0x71, 0x6F, 0x69, 0x66, 1, 2, 3, 4, 0xFF, 0xFF, 0xFF, 0xFF, 4, 1]) := by decide
/-- H4. -/
theorem test_hdrBuild_order : answer .hdrBuild { State.reset with hdr := ⟨2, 1, 5, 2⟩ } =
    some (.fault .badChannels) := by decide
/-- H1. -/
theorem test_hdrParse : answer
    (.hdrParse (some [0x71, 0x6F, 0x69, 0x66, 0, 0, 0, 2, 0, 0, 0, 1, 3, 0])) State.reset =
      some (.header ⟨2, 1, 3, 0⟩) := by decide
/-- H8. -/
theorem test_hdrParse_order : answer
    (.hdrParse (some [0, 0x6F, 0x69, 0x66, 0, 0, 0, 2, 0, 0, 0, 1, 5, 0])) State.reset =
      some (.fault .badMagic) := by decide
theorem test_header : answer (.header #v[0x71, 0x6F, 0x69, 0x66] 2 1 4 2) State.reset =
    some (.fault .badColorspace) := by decide
theorem test_endMarker : answer (.endMarker #v[0, 0, 0, 0, 0, 0, 0, 0]) State.reset =
    some (.fault .badEndMarker) := by decide

/-- P1's file. -/
theorem test_fileEncode : answer (.fileEncode 2 1 3 0 (some [black, black])) State.reset =
    some (.bytes [0x71, 0x6F, 0x69, 0x66, 0, 0, 0, 2, 0, 0, 0, 1, 3, 0, 0xC1, 0, 0, 0, 0, 0, 0, 0, 1]) := by
  decide
theorem test_fileEncode_pixels : answer (.fileEncode 2 2 3 0 (some [black, black])) State.reset =
    some (.fault .dimMismatchEnc) := by decide
/-- P1, FILE.DECODE: `dec.out` as flat bytes, and the four header fields. -/
theorem test_fileDecode : answer (.fileDecode
      (some [0x71, 0x6F, 0x69, 0x66, 0, 0, 0, 2, 0, 0, 0, 1, 3, 0, 0xC1, 0, 0, 0, 0, 0, 0, 0, 1])) State.reset =
    some (.image [(0, 255), (1, 0), (2, 0), (3, 0), (4, 255), (5, 0), (6, 0), (7, 0)] ⟨2, 1, 3, 0⟩) := by
  decide
/-- P1, mutation: `C1` replaced by `FE 0A`; DEC never reads into the end marker. -/
theorem test_fileDecode_truncated : answer (.fileDecode
      (some [0x71, 0x6F, 0x69, 0x66, 0, 0, 0, 2, 0, 0, 0, 1, 3, 0, 0xFE, 0x0A, 0, 0, 0, 0, 0, 0, 0, 1]))
      State.reset = some (.fault .truncatedChunk) := by
  decide
theorem test_unassigned : nextOf (exec (.unassigned 3) State.reset) = none := by decide

/-! ### Witnesses: for every statement with hypotheses, states and operands that meet them together -/

/-- `witness_X` meets the hypotheses of `Obligations.X`; one conjunct or one theorem for each clause. -/
theorem witness_DecodeInvertsEncode :
    (Instr.diff (-2) 1 (-2)).wellFormed = true ∧ (Instr.luma (-32) 7 (-8)).wellFormed = true ∧
    (Instr.run 1).wellFormed = true ∧ (Instr.run 62).wellFormed = true ∧
    (Instr.emitLuma 38 31 23).wellFormed = true ∧
    (Instr.decRun (some black) 0xFF (2 ^ 64 - 1)).wellFormed = true ∧
    (Instr.utilExtract (some [1]) (-(2 ^ 63)) (2 ^ 63 - 1)).wellFormed = true ∧
    (Instr.fileEncode 1 1 3 0 (some [p9])).wellFormed = true := by and_intros <;> decide

/-- Both ends of every range of lead bytes, with a payload byte too few and with just enough. -/
theorem witness_LeadByteSelectsOneChunk :
    (0x00 : Byte).toNat ≤ 0x3F ∧ (0x3F : Byte).toNat ≤ 0x3F ∧
    0x40 ≤ (0x40 : Byte).toNat ∧ (0x7F : Byte).toNat ≤ 0x7F ∧
    0x80 ≤ (0x80 : Byte).toNat ∧ (0xBF : Byte).toNat ≤ 0xBF ∧
    0xC0 ≤ (0xC0 : Byte).toNat ∧ (0xFD : Byte).toNat ≤ 0xFD ∧
    ([] : List Byte).length + 1 < chunkLength 0x80 ∧ chunkLength 0xBF ≤ ([7] : List Byte).length + 1 ∧
    ([1, 2] : List Byte).length + 1 < chunkLength 0xFE ∧
    chunkLength 0xFF ≤ ([1, 2, 3, 4] : List Byte).length + 1 ∧
    chunkLength 0x3F ≤ ([] : List Byte).length + 1 ∧ chunkLength 0xFD ≤ ([] : List Byte).length + 1 := by
  and_intros <;> decide

theorem witness_UnassignedCodesAreRefused :
    (withRecord [0x1C]).port = .command [0x1C + (0 : BitVec 2).setWidth 8] :: [] ∧
    (withRecord [0x1F]).port = .command [0x1C + (3 : BitVec 2).setWidth 8] :: [] := by and_intros <;> decide

/-- The second record runs into MAX_LEN = 3: its operand fits, its 4-byte result does not. -/
theorem witness_StepRunsDecodedCommand :
    (withRecord [0x0E, 1, 0, 0, 0, 0, 0, 0, 0, 4, 10, 20, 30, 128]).port =
      .command [0x0E, 1, 0, 0, 0, 0, 0, 0, 0, 4, 10, 20, 30, 128] :: [] ∧
    decodeRecord [0x0E, 1, 0, 0, 0, 0, 0, 0, 0, 4, 10, 20, 30, 128] = .ok (.decRgba (some [10, 20, 30, 128])) ∧
    (Instr.decRgba (some [10, 20, 30, 128])).OperandsFit Config.default.maxLen ∧
    (narrow 3 [0x02, 0, 0, 0, 1]).port = .command [0x02, 0, 0, 0, 1] :: [] ∧
    decodeRecord [0x02, 0, 0, 0, 1] = .ok (.utilBe32Pack 1) ∧
    (Instr.utilBe32Pack 1).OperandsFit 3 ∧
    (nextOf (exec (.utilBe32Pack 1) (narrow 3 []))).map (responseWithin 3 ·.response) = some false := by
  refine ⟨?_, ?_, (operandsWithin_iff _ _).1 ?_, ?_, ?_, (operandsWithin_iff _ _).1 ?_, ?_⟩ <;> decide +kernel

theorem witness_DecStepRunsDecodedChunk :
    (decoding [0xFE, 10, 20, 30] 1).dec.mode = .active ∧
    (decoding [0xFE, 10, 20, 30] 1).dec.ip < (decoding [0xFE, 10, 20, 30] 1).dec.input.length ∧
    decode .chunk ((decoding [0xFE, 10, 20, 30] 1).dec.input.drop (decoding [0xFE, 10, 20, 30] 1).dec.ip) =
      .ok (.rgb 10 20 30, []) := by and_intros <;> decide

theorem witness_StepWithoutCommand :
    State.reset.port = [] ∧
    { State.reset with port := [.writeWidth 7] }.port = HostInput.writeWidth 7 :: [] ∧
    { State.reset with port := [.writeHeight 7] }.port = HostInput.writeHeight 7 :: [] ∧
    { State.reset with port := [.writeChannels 4] }.port = HostInput.writeChannels 4 :: [] ∧
    { State.reset with port := [.writeColorspace 1] }.port = HostInput.writeColorspace 1 :: [] :=
  ⟨rfl, rfl, rfl, rfl, rfl⟩

/-- An operand one byte and one pixel above MAX_LEN = 1, and one at the bound. -/
theorem witness_OverlongOperandIsRefused :
    (narrow 1 [0x0E, 1, 0, 0, 0, 0, 0, 0, 0, 2, 7, 7]).port =
      .command [0x0E, 1, 0, 0, 0, 0, 0, 0, 0, 2, 7, 7] :: [] ∧
    decodeRecord [0x0E, 1, 0, 0, 0, 0, 0, 0, 0, 2, 7, 7] = .ok (.decRgba (some [7, 7])) ∧
    some [7, 7] ∈ (Instr.decRgba (some [7, 7])).byteOperands ∧
    (narrow 1 [0x0E, 1, 0, 0, 0, 0, 0, 0, 0, 2, 7, 7]).cfg.maxLen < ([7, 7] : List Byte).length ∧
    decodeRecord [0x1A, 0, 0, 0, 1, 0, 0, 0, 2, 3, 0, 1, 0, 0, 0, 0, 0, 0, 0, 2, 255, 0, 0, 0, 255, 0, 0, 0] =
      .ok (.fileEncode 1 2 3 0 (some [black, black])) ∧ 1 < [black, black].length ∧
    decodeRecord [0x0E, 1, 0, 0, 0, 0, 0, 0, 0, 1, 7] = .ok (.decRgba (some [7])) := by
  refine ⟨rfl, ?_, .head _, ?_, ?_, ?_, ?_⟩ <;> decide +kernel

/-- The invariant with a command on the port, in a call of ENC with a pending run. -/
def running : State := { State.reset with
  enc := { Enc.start Config.default with run := 2, pi := 2 }
  port := [.command [0x13, 255, 10, 20, 30]] }

theorem witness_StepKeepsInvariant : running.Inv ∧ ∃ t, step running = .next t := by
  refine ⟨⟨⟨by decide, fun slot => .inl (Cache.read_clear slot), .inl rfl, by decide, by decide, by decide⟩,
    ⟨fun slot => .inl (Cache.read_clear slot), by decide, by decide, by decide, fun addr => ?_, by decide,
      by decide⟩, by decide, by decide, ⟨nofun, nofun⟩⟩, _, rfl⟩
  exact ⟨nofun, fun h => absurd h (Nat.not_lt_zero addr)⟩

theorem witness_OnlyTheirWritersChangeRegisters :
    (∃ t, exec (.hash p9) State.reset = .next t) ∧ (Instr.hash p9).isEncoder = false ∧
    (Instr.hash p9).isDecoder = false ∧ (∃ t, exec .encEnd State.reset = .next t) ∧
    Instr.encEnd.isDecoder = false ∧ (∃ t, exec .decStep State.reset = .next t) ∧
    Instr.decStep.isEncoder = false :=
  ⟨⟨_, rfl⟩, rfl, rfl, ⟨_, rfl⟩, rfl, ⟨_, rfl⟩, rfl⟩

/-- A fault of each of the three units, and one that leaves the first cause. -/
theorem witness_FaultEntryWritesNothingElse :
    (∃ t, exec (.encRun 63) State.reset = .next t ∧ t.response = .fault .paramRange) ∧
    (∃ t, exec .encEnd State.reset = .next t ∧ t.response = .fault .protocol) ∧
    (∃ t, exec (.run 2) (decoding [0xC1] 1) = .next t ∧ t.response = .fault .pixelOverflow) ∧
    (∃ t, exec .decStep { State.reset with dec := { State.reset.dec with
        mode := .fault, cause := .truncatedChunk } } = .next t ∧ t.response = .fault .protocol) :=
  ⟨⟨_, rfl, rfl⟩, ⟨_, rfl, rfl⟩, ⟨_, rfl, rfl⟩, ⟨_, rfl, rfl⟩⟩

/-- ENC in mode FAULT, DEC in mode FAULT. -/
def faulted : State := { State.reset with
  enc := { State.reset.enc with mode := .fault, cause := .protocol }
  dec := { State.reset.dec with mode := .fault, cause := .truncatedChunk } }

theorem witness_OnlyStartLeavesFault :
    faulted.enc.mode = .fault ∧ faulted.dec.mode = .fault ∧ (∃ t, exec .encEnd faulted = .next t) ∧
    (∃ t, exec .decStep faulted = .next t) ∧ (∃ t, exec (.decStart none 1 1) faulted = .next t) :=
  ⟨rfl, rfl, ⟨_, rfl⟩, ⟨_, rfl⟩, ⟨_, rfl⟩⟩

theorem witness_PureCommandsDependOnOperandsAlone :
    (Instr.hash p9).isPure = true ∧ (Instr.decRun none 0 0).isPure = true := ⟨rfl, rfl⟩

theorem witness_EncoderFrame :
    (Instr.encPixel p9).isEncoder = true ∧ (∃ t, exec (.encPixel p9) (inCall black 2 Cache.clear) = .next t) ∧
    Instr.encPixel p9 ≠ .encStart := ⟨rfl, ⟨_, rfl⟩, nofun⟩

theorem witness_ChunkFrame :
    (∃ t, exec (Chunk.rgb 10 20 30).toInstr (decoding [0xFE, 10, 20, 30] 1) = .next t) ∧
    (∃ t, exec (Chunk.index 9).toInstr (decoding [9] 1) = .next t) ∧
    (∃ t, exec (Chunk.run 62).toInstr (decoding [0xFD] 62) = .next t) :=
  ⟨⟨_, rfl⟩, ⟨_, rfl⟩, ⟨_, rfl⟩⟩

/-- Two states that agree on one machine and not on the other. -/
theorem witness_EncoderAndDecoderShareNothing :
    (∃ t t', exec .encEnd (inCall black 2 Cache.clear) = .next t ∧
      exec .encEnd { inCall black 2 Cache.clear with dec := (decoding [0xC1] 2).dec } = .next t') ∧
    Instr.encEnd.isEncoder = true ∧
    (∃ t t', exec .decStep (decoding [0xC1] 2) = .next t ∧
      exec .decStep { decoding [0xC1] 2 with enc := (inCall p9 2 Cache.clear).enc } = .next t') ∧
    Instr.decStep.isDecoder = true :=
  ⟨⟨_, _, rfl, rfl⟩, rfl, ⟨_, _, rfl, rfl⟩, rfl⟩

/-- One chunk that just fits its input and one position left. -/
theorem witness_IndexChunkResult : (decoding [9] 1).dec.mode = .active ∧
    (decoding [9] 1).dec.ip + 1 ≤ (decoding [9] 1).dec.input.length ∧
    (decoding [9] 1).dec.op + 1 ≤ (decoding [9] 1).dec.npix := by and_intros <;> decide

theorem witness_DiffChunkResult : (decoding [0x4B] 1).dec.mode = .active ∧
    (decoding [0x4B] 1).dec.ip + 1 ≤ (decoding [0x4B] 1).dec.input.length ∧
    (decoding [0x4B] 1).dec.op + 1 ≤ (decoding [0x4B] 1).dec.npix ∧
    (⟨254, 0, 1, 255⟩ : Pixel) = ⟨(decoding [0x4B] 1).dec.prev.r + BitVec.ofInt 8 (-2),
      (decoding [0x4B] 1).dec.prev.g + BitVec.ofInt 8 0, (decoding [0x4B] 1).dec.prev.b + BitVec.ofInt 8 1,
      (decoding [0x4B] 1).dec.prev.a⟩ := by and_intros <;> decide

theorem witness_LumaChunkResult : (decoding [0x80, 0x00] 1).dec.mode = .active ∧
    (decoding [0x80, 0x00] 1).dec.ip + 2 ≤ (decoding [0x80, 0x00] 1).dec.input.length ∧
    (decoding [0x80, 0x00] 1).dec.op + 1 ≤ (decoding [0x80, 0x00] 1).dec.npix ∧
    (⟨216, 224, 216, 255⟩ : Pixel) =
      ⟨(decoding [0x80, 0x00] 1).dec.prev.r + BitVec.ofInt 8 (-32) + BitVec.ofInt 8 (-8),
        (decoding [0x80, 0x00] 1).dec.prev.g + BitVec.ofInt 8 (-32),
        (decoding [0x80, 0x00] 1).dec.prev.b + BitVec.ofInt 8 (-32) + BitVec.ofInt 8 (-8),
        (decoding [0x80, 0x00] 1).dec.prev.a⟩ := by and_intros <;> decide

/-- The shortest and the longest run, each filling the buffer. -/
theorem witness_RunChunkResult : (decoding [0xC0] 1).dec.mode = .active ∧
    (decoding [0xC0] 1).dec.ip + 1 ≤ (decoding [0xC0] 1).dec.input.length ∧
    (decoding [0xC0] 1).dec.op + 1 ≤ (decoding [0xC0] 1).dec.npix ∧
    (decoding [0xFD] 62).dec.mode = .active ∧
    (decoding [0xFD] 62).dec.ip + 1 ≤ (decoding [0xFD] 62).dec.input.length ∧
    (decoding [0xFD] 62).dec.op + 62 ≤ (decoding [0xFD] 62).dec.npix := by and_intros <;> decide

theorem witness_RgbAndRgbaChunkResult : (decoding [0xFF, 1, 2, 3, 4] 1).dec.mode = .active ∧
    (decoding [0xFF, 1, 2, 3, 4] 1).dec.op + 1 ≤ (decoding [0xFF, 1, 2, 3, 4] 1).dec.npix ∧
    (decoding [0xFF, 1, 2, 3, 4] 1).dec.ip + 5 ≤ (decoding [0xFF, 1, 2, 3, 4] 1).dec.input.length ∧
    (decoding [0xFE, 1, 2, 3] 1).dec.ip + 4 ≤ (decoding [0xFE, 1, 2, 3] 1).dec.input.length ∧
    (⟨1, 2, 3, 255⟩ : Pixel) = ⟨1, 2, 3, (decoding [0xFE, 1, 2, 3] 1).dec.prev.a⟩ := by and_intros <;> decide

theorem witness_DecStartResult : State.reset.dec.mode ≠ .fault := by decide

/-- D22, D13, D17 and D2: one state for each clause. -/
theorem witness_DecStepResult :
    (decoding [] 1).dec.input.length ≤ (decoding [] 1).dec.ip ∧ State.reset.dec.mode ≠ .active ∧
    (decoding [0xFE, 0x0A] 1).dec.input[(decoding [0xFE, 0x0A] 1).dec.ip]? = some 0xFE ∧
    (decoding [0xFE, 0x0A] 1).dec.input.length < (decoding [0xFE, 0x0A] 1).dec.ip + chunkLength 0xFE ∧
    (decoding [0xC1] 1).dec.mode = .active ∧
    (decoding [0xC1] 1).dec.input[(decoding [0xC1] 1).dec.ip]? = some 0xC1 ∧
    (decoding [0xC1] 1).dec.ip + chunkLength 0xC1 ≤ (decoding [0xC1] 1).dec.input.length ∧
    (decoding [0xC1] 1).dec.npix < (decoding [0xC1] 1).dec.op + chunkPixels 0xC1 ∧
    (decoding [0xC1] 2).dec.op + chunkPixels 0xC1 ≤ (decoding [0xC1] 2).dec.npix := by and_intros <;> decide

/-- D11, D12 and D21. -/
theorem witness_DecFinishResult :
    (decoding [] 0).dec.mode = .active ∧ (decoding [] 0).dec.ip = (decoding [] 0).dec.input.length ∧
    (decoding [] 0).dec.op = (decoding [] 0).dec.npix ∧ (decoding [] 1).dec.op ≠ (decoding [] 1).dec.npix ∧
    (decoding [0xC1] 2).dec.ip ≠ (decoding [0xC1] 2).dec.input.length := by and_intros <;> decide

/-- A stream the encoder would not emit: Index(0), then a Run of 62. -/
theorem witness_EveryValidStreamDecodes :
    (∀ c ∈ [Chunk.index 0, .run 62], c.toInstr.wellFormed = true) ∧
    ([Chunk.index 0, .run 62].map Chunk.pixels).sum = (63 : Word).toNat * (1 : Word).toNat := by
  and_intros <;> decide

/-- A completed decode of one pixel. -/
def decoded : State := { State.reset with
  dec := { State.reset.dec with
    mode := .done, input := [0], ip := 1, op := 1, npix := 1
    out := [(0, 0), (1, 0), (2, 0), (3, 0)] } }

theorem witness_ResultsOnlyInDone :
    decoded.dec.mode = .done ∧ decoded.dec.Inv ∧ 0 < decoded.dec.npix ∧ decoded.dec.npix ≤ 1 ∧
    State.reset.enc.mode ≠ .done ∧ State.reset.dec.mode ≠ .done ∧
    { State.reset with enc := { State.reset.enc with mode := .done } }.enc.mode = .done := by
  refine ⟨rfl, ⟨fun slot => .inl (Cache.read_clear slot), by decide, by decide, by decide, fun addr => ?_,
    by decide, by decide⟩, by decide, by decide, by decide, by decide, rfl⟩
  simp only [decoded, Memory.read]
  split
  · simp; omega
  · split
    · simp; omega
    · split
      · simp; omega
      · split
        · simp; omega
        · simp; omega

theorem witness_EqualPixelExtendsTheRun : (inCall black 60 Cache.clear).enc.mode = .active ∧
    (inCall black 60 Cache.clear).enc.run + 1 < 62 ∧ (inCall black 61 Cache.clear).enc.mode = .active ∧
    (inCall black 61 Cache.clear).enc.run + 1 = 62 := by and_intros <;> decide

/-- A hit at slot 9, with the longest pending run. -/
theorem witness_CacheHitEmitsIndex :
    (inCall black 61 (Cache.clear.write 9 p9)).enc.mode = .active ∧
    (inCall black 61 (Cache.clear.write 9 p9)).enc.run ≤ 61 ∧
    p9 ≠ (inCall black 61 (Cache.clear.write 9 p9)).enc.prev ∧
    (inCall black 61 (Cache.clear.write 9 p9)).enc.cache.read (hash p9) = p9 := by and_intros <;> decide

/-- E8: wrap-around deltas (1, -1, -2). -/
theorem witness_SmallDeltasEmitDiff : (inCall ⟨255, 0, 1, 255⟩ 0 Cache.clear).enc.mode = .active ∧
    (inCall ⟨255, 0, 1, 255⟩ 0 Cache.clear).enc.run ≤ 61 ∧
    (⟨0, 255, 255, 255⟩ : Pixel) ≠ (inCall ⟨255, 0, 1, 255⟩ 0 Cache.clear).enc.prev ∧
    (inCall ⟨255, 0, 1, 255⟩ 0 Cache.clear).enc.cache.read (hash ⟨0, 255, 255, 255⟩) ≠ ⟨0, 255, 255, 255⟩ ∧
    (255 : Byte) = (inCall ⟨255, 0, 1, 255⟩ 0 Cache.clear).enc.prev.a ∧
    (1 : Byte) = 0 - (inCall ⟨255, 0, 1, 255⟩ 0 Cache.clear).enc.prev.r ∧
    (255 : Byte) = 255 - (inCall ⟨255, 0, 1, 255⟩ 0 Cache.clear).enc.prev.g ∧
    (254 : Byte) = 255 - (inCall ⟨255, 0, 1, 255⟩ 0 Cache.clear).enc.prev.b ∧
    (-2 ≤ (1 : Byte).toInt ∧ (1 : Byte).toInt ≤ 1 ∧ -2 ≤ (255 : Byte).toInt ∧ (255 : Byte).toInt ≤ 1 ∧
      -2 ≤ (254 : Byte).toInt ∧ (254 : Byte).toInt ≤ 1) := by and_intros <;> decide

/-- E13, second pixel: the lower Luma limits, deltas (-40, -32, -40). -/
theorem witness_MediumDeltasEmitLuma : (inCall ⟨100, 100, 100, 255⟩ 61 Cache.clear).enc.mode = .active ∧
    (inCall ⟨100, 100, 100, 255⟩ 61 Cache.clear).enc.run ≤ 61 ∧
    (⟨60, 68, 60, 255⟩ : Pixel) ≠ (inCall ⟨100, 100, 100, 255⟩ 61 Cache.clear).enc.prev ∧
    (inCall ⟨100, 100, 100, 255⟩ 61 Cache.clear).enc.cache.read (hash ⟨60, 68, 60, 255⟩) ≠
      ⟨60, 68, 60, 255⟩ ∧
    (255 : Byte) = (inCall ⟨100, 100, 100, 255⟩ 61 Cache.clear).enc.prev.a ∧
    (216 : Byte) = 60 - (inCall ⟨100, 100, 100, 255⟩ 61 Cache.clear).enc.prev.r ∧
    (224 : Byte) = 68 - (inCall ⟨100, 100, 100, 255⟩ 61 Cache.clear).enc.prev.g ∧
    (216 : Byte) = 60 - (inCall ⟨100, 100, 100, 255⟩ 61 Cache.clear).enc.prev.b ∧
    ¬(-2 ≤ (216 : Byte).toInt ∧ (216 : Byte).toInt ≤ 1 ∧ -2 ≤ (224 : Byte).toInt ∧ (224 : Byte).toInt ≤ 1 ∧
      -2 ≤ (216 : Byte).toInt ∧ (216 : Byte).toInt ≤ 1) ∧
    (-32 ≤ (224 : Byte).toInt ∧ (224 : Byte).toInt ≤ 31 ∧
      -8 ≤ (216 : Byte).toInt - (224 : Byte).toInt ∧ (216 : Byte).toInt - (224 : Byte).toInt ≤ 7 ∧
      -8 ≤ (216 : Byte).toInt - (224 : Byte).toInt ∧ (216 : Byte).toInt - (224 : Byte).toInt ≤ 7) := by
  and_intros <;> decide

/-- E13, last pixel: green delta 32, one above the Luma limit. -/
theorem witness_LargeDeltasEmitRgb : (inCall ⟨60, 68, 60, 255⟩ 0 Cache.clear).enc.mode = .active ∧
    (inCall ⟨60, 68, 60, 255⟩ 0 Cache.clear).enc.run ≤ 61 ∧
    (⟨61, 100, 61, 255⟩ : Pixel) ≠ (inCall ⟨60, 68, 60, 255⟩ 0 Cache.clear).enc.prev ∧
    (inCall ⟨60, 68, 60, 255⟩ 0 Cache.clear).enc.cache.read (hash ⟨61, 100, 61, 255⟩) ≠ ⟨61, 100, 61, 255⟩ ∧
    (255 : Byte) = (inCall ⟨60, 68, 60, 255⟩ 0 Cache.clear).enc.prev.a ∧
    (1 : Byte) = 61 - (inCall ⟨60, 68, 60, 255⟩ 0 Cache.clear).enc.prev.r ∧
    (32 : Byte) = 100 - (inCall ⟨60, 68, 60, 255⟩ 0 Cache.clear).enc.prev.g ∧
    (1 : Byte) = 61 - (inCall ⟨60, 68, 60, 255⟩ 0 Cache.clear).enc.prev.b ∧
    ¬(-2 ≤ (1 : Byte).toInt ∧ (1 : Byte).toInt ≤ 1 ∧ -2 ≤ (32 : Byte).toInt ∧ (32 : Byte).toInt ≤ 1 ∧
      -2 ≤ (1 : Byte).toInt ∧ (1 : Byte).toInt ≤ 1) ∧
    ¬(-32 ≤ (32 : Byte).toInt ∧ (32 : Byte).toInt ≤ 31 ∧
      -8 ≤ (1 : Byte).toInt - (32 : Byte).toInt ∧ (1 : Byte).toInt - (32 : Byte).toInt ≤ 7 ∧
      -8 ≤ (1 : Byte).toInt - (32 : Byte).toInt ∧ (1 : Byte).toInt - (32 : Byte).toInt ≤ 7) := by
  and_intros <;> decide

/-- E12, second pixel. -/
theorem witness_AlphaChangeEmitsRgba : (inCall p9 0 Cache.clear).enc.mode = .active ∧
    (inCall p9 0 Cache.clear).enc.run ≤ 61 ∧
    (⟨10, 20, 30, 128⟩ : Pixel) ≠ (inCall p9 0 Cache.clear).enc.prev ∧
    (inCall p9 0 Cache.clear).enc.cache.read (hash ⟨10, 20, 30, 128⟩) ≠ ⟨10, 20, 30, 128⟩ ∧
    (128 : Byte) ≠ (inCall p9 0 Cache.clear).enc.prev.a := by and_intros <;> decide

theorem witness_EncEndResult : (inCall black 61 Cache.clear).enc.mode = .active ∧
    (inCall black 61 Cache.clear).enc.run ≤ 61 ∧ (inCall black 0 Cache.clear).enc.run ≤ 61 ∧
    State.reset.enc.mode ≠ .active := by and_intros <;> decide

theorem witness_RunActionsResult : (inCall black 60 Cache.clear).enc.mode = .active ∧
    (inCall black 60 Cache.clear).enc.run + 1 ≠ 62 ∧ (inCall black 61 Cache.clear).enc.run + 1 = 62 ∧
    1 ≤ (inCall black 1 Cache.clear).enc.run ∧ (inCall black 62 Cache.clear).enc.run ≤ 62 := by
  and_intros <;> decide

theorem witness_ChunkAndRegisterActionsResult : (inCall black 0 Cache.clear).enc.mode = .active ∧
    diffRange (-2) 1 (-2) = true ∧ diffRange 2 0 0 = false ∧
    lumaRange 31 (38 - 31) (23 - 31) = true ∧ lumaRange 32 (32 - 32) (32 - 32) = false := by
  and_intros <;> decide

theorem witness_BytesEqualResult : ([1] : List Byte).length = ([2] : List Byte).length ∧
    ([1] : List Byte).length ≠ ([1, 2] : List Byte).length := by and_intros <;> decide

theorem witness_Be32Result : ([0, 0, 1] : List Byte).length ≠ 4 := by decide

theorem witness_Be32RoundTrip : ([0x80, 0, 0, 0] : List Byte).length = 4 := by decide

theorem witness_ConcatResult : (none : Seq) ∈ [some [1], none] := by decide

/-- U15 and U16. -/
theorem witness_ExtractResult :
    ((0 : Int) ≤ 3 ∧ (0 : Int) ≤ 0 ∧ (3 : Int) + 0 ≤ ([1, 2, 3] : List Byte).length) ∧
    (-1 : Int) < 0 ∧ (([1, 2, 3] : List Byte).length : Int) < 2 + 2 := by and_intros <;> decide

/-- U18, U20 and U19. -/
theorem witness_PartitionResult :
    ((∀ n ∈ [0, 3, (0 : Int)], 0 ≤ n) ∧ [0, 3, (0 : Int)].sum = (([1, 2, 3] : List Byte).length : Int)) ∧
    (∃ n ∈ [4, (-1 : Int)], n < 0) ∧
    ((∀ n ∈ [1, (1 : Int)], 0 ≤ n) ∧ [1, (1 : Int)].sum ≠ (([1, 2, 3] : List Byte).length : Int)) := by
  and_intros <;> decide

theorem witness_PlainChunkEncodersResult : (63 : Byte).toNat ≤ 63 ∧ 63 < (64 : Byte).toNat ∧
    1 ≤ (1 : Byte).toNat ∧ (62 : Byte).toNat ≤ 62 ∧ (0 : Byte).toNat = 0 ∧ 62 < (63 : Byte).toNat := by
  and_intros <;> decide

/-- The limits (-2, 1, -2) and (-40, -32, -40), and one step beyond: (2, 0, 0) and (0, 32, 0). -/
theorem witness_DeltaChunkEncodersResult :
    ((-2 ≤ (0xFE : Byte).toInt ∧ (0xFE : Byte).toInt ≤ 1) ∧ (-2 ≤ (1 : Byte).toInt ∧ (1 : Byte).toInt ≤ 1) ∧
      (-2 ≤ (0xFE : Byte).toInt ∧ (0xFE : Byte).toInt ≤ 1)) ∧
    ¬((-2 ≤ (2 : Byte).toInt ∧ (2 : Byte).toInt ≤ 1) ∧ (-2 ≤ (0 : Byte).toInt ∧ (0 : Byte).toInt ≤ 1) ∧
      (-2 ≤ (0 : Byte).toInt ∧ (0 : Byte).toInt ≤ 1)) ∧
    ((-32 ≤ (0xE0 : Byte).toInt ∧ (0xE0 : Byte).toInt ≤ 31) ∧
      (-8 ≤ (0xD8 : Byte).toInt - (0xE0 : Byte).toInt ∧ (0xD8 : Byte).toInt - (0xE0 : Byte).toInt ≤ 7) ∧
      (-8 ≤ (0xD8 : Byte).toInt - (0xE0 : Byte).toInt ∧ (0xD8 : Byte).toInt - (0xE0 : Byte).toInt ≤ 7)) ∧
    ¬((-32 ≤ (32 : Byte).toInt ∧ (32 : Byte).toInt ≤ 31) ∧
      (-8 ≤ (0 : Byte).toInt - (32 : Byte).toInt ∧ (0 : Byte).toInt - (32 : Byte).toInt ≤ 7) ∧
      (-8 ≤ (0 : Byte).toInt - (32 : Byte).toInt ∧ (0 : Byte).toInt - (32 : Byte).toInt ≤ 7)) := by
  and_intros <;> decide

theorem witness_RawChunkDecodersResult : ([1, 2] : List Byte).length ≠ 3 ∧
    ([1, 2, 3] : List Byte).length ≠ 4 := by and_intros <;> decide

theorem witness_TaggedChunkDecodersResult :
    (0x7F : Byte) >>> 6 = 1 ∧ (0x3F : Byte) >>> 6 ≠ 1 ∧ (0xBF : Byte) >>> 6 = 2 ∧ (0x7F : Byte) >>> 6 ≠ 2 ∧
    ([] : List Byte).length ≠ 2 ∧ (0xFD : Byte) >>> 6 = 3 ∧ (0xFD : Byte) ≠ 0xFE ∧ (0xFD : Byte) ≠ 0xFF ∧
    (0xBF : Byte) >>> 6 ≠ 3 := by and_intros <;> decide

/-- K19 for Diff, K13 for Luma. -/
theorem witness_ChunkCodecsAreInverse :
    ((⟨0, 255, 255, 255⟩ : Pixel).a = (⟨255, 0, 1, 255⟩ : Pixel).a ∧
      diffRange (delta 0 255) (delta 255 0) (delta 255 1) = true) ∧
    lumaRange (delta 68 100) (delta 60 100 - delta 68 100) (delta 60 100 - delta 68 100) = true ∧
    1 ≤ (1 : Byte).toNat ∧ (62 : Byte).toNat ≤ 62 := by and_intros <;> decide

/-- H1, H3 and H5. -/
theorem witness_HdrBuildResult : ∃ s t u : State,
    ((s.hdr.channels = 3 ∨ s.hdr.channels = 4) ∧ (s.hdr.colorspace = 0 ∨ s.hdr.colorspace = 1)) ∧
    (t.hdr.channels ≠ 3 ∧ t.hdr.channels ≠ 4) ∧
    ((u.hdr.channels = 3 ∨ u.hdr.channels = 4) ∧ u.hdr.colorspace ≠ 0 ∧ u.hdr.colorspace ≠ 1) :=
  ⟨{ State.reset with hdr := ⟨2, 1, 3, 0⟩ }, { State.reset with hdr := ⟨2, 1, 5, 0⟩ },
    { State.reset with hdr := ⟨2, 1, 3, 2⟩ }, by decide, by decide, by decide⟩

/-- H1, H7 to H10. -/
theorem witness_HdrParseResult :
    ([0x71, 0x6F, 0x69, 0x66] : List Byte).length = 4 ∧
    ([0x71, 0x6F, 0x69, 0x66] : List Byte) = State.reset.cfg.magic.toList ∧
    ([0, 0x6F, 0x69, 0x66] : List Byte) ≠ State.reset.cfg.magic.toList ∧
    ((3 : Byte) = 3 ∨ (3 : Byte) = 4) ∧ ((1 : Byte) = 0 ∨ (1 : Byte) = 1) ∧ ((2 : Byte) ≠ 3 ∧ (2 : Byte) ≠ 4) ∧
    ((2 : Byte) ≠ 0 ∧ (2 : Byte) ≠ 1) ∧ (List.replicate 13 (0 : Byte)).length ≠ 14 := by
  and_intros <;> decide

/-- H2, both ways. -/
theorem witness_HeaderRoundTrip : ∃ s t : State, s.cfg = t.cfg ∧
    (∃ bs, exec .hdrBuild s = .next { s with response := .bytes bs }) ∧
    ∃ bs u h, exec (.hdrParse (some bs)) t = .next u ∧ u.response = .header h :=
  ⟨{ State.reset with hdr := ⟨0x01020304, 0xFFFFFFFF, 4, 1⟩ }, State.reset, rfl, ⟨_, rfl⟩,
    [0x71, 0x6F, 0x69, 0x66, 1, 2, 3, 4, 0xFF, 0xFF, 0xFF, 0xFF, 4, 1], _,
    ⟨0x01020304, 0xFFFFFFFF, 4, 1⟩, rfl, by decide⟩

theorem witness_FileRecordsResult :
    (#v[0, 0, 0, 0, 0, 0, 0, 0] : Vector Byte 8) ≠ State.reset.cfg.endMarker ∧
    (#v[0, 0, 0, 0] : Vector Byte 4) ≠ State.reset.cfg.magic ∧ ((4 : Byte) = 3 ∨ (4 : Byte) = 4) ∧
    ((0 : Byte) = 0 ∨ (0 : Byte) = 1) ∧ ((0 : Byte) ≠ 3 ∧ (0 : Byte) ≠ 4) ∧
    ((2 : Byte) ≠ 0 ∧ (2 : Byte) ≠ 1) := by and_intros <;> decide

/-- P1, and one pixel too few for a 2 by 2 image. -/
theorem witness_FileEncodeResult : [black, black].length = (2 : Word).toNat * (1 : Word).toNat ∧
    [black, black].length ≠ (2 : Word).toNat * (2 : Word).toNat ∧ ((3 : Byte) = 3 ∨ (3 : Byte) = 4) ∧
    ((0 : Byte) = 0 ∨ (0 : Byte) = 1) := by and_intros <;> decide

/-- The frame checks of P1's mutations, one body for each clause. -/
theorem witness_FileDecodeChecksTheFrame :
    ([0, 0, 0, 0, 0, 0, 0] : List Byte).length < 8 ∧ ([0, 0, 0, 0, 0, 0, 0, 0] : List Byte).length = 8 ∧
    ([0, 0, 0, 0, 0, 0, 0, 0] : List Byte) ≠ State.reset.cfg.endMarker.toList ∧
    ([] : List Byte).length < 14 ∧
    (∃ body : List Byte, 14 ≤ body.length ∧ body.take 4 ≠ State.reset.cfg.magic.toList) ∧
    (∃ body : List Byte, 14 ≤ body.length ∧ body.take 4 = State.reset.cfg.magic.toList ∧
      body[12]? ≠ some 3 ∧ body[12]? ≠ some 4) ∧
    (∃ body : List Byte, 14 ≤ body.length ∧ body.take 4 = State.reset.cfg.magic.toList ∧
      (body[12]? = some 3 ∨ body[12]? = some 4) ∧ body[13]? ≠ some 0 ∧ body[13]? ≠ some 1) := by
  refine ⟨by decide, by decide, by decide, by decide, ⟨List.replicate 14 0, by decide⟩,
    ⟨[0x71, 0x6F, 0x69, 0x66, 0, 0, 0, 2, 0, 0, 0, 1, 5, 0, 0xC1], by decide⟩,
    ⟨[0x71, 0x6F, 0x69, 0x66, 0, 0, 0, 2, 0, 0, 0, 1, 3, 2], by decide⟩⟩

/-- P1 and its mutations `C0`, `C2` and `FE 0A`. -/
theorem witness_FileDecodeResult : ((3 : Byte) = 3 ∨ (3 : Byte) = 4) ∧ ((0 : Byte) = 0 ∨ (0 : Byte) = 1) ∧
    (∀ c ∈ [Chunk.run 2], c.toInstr.wellFormed = true) ∧ (∀ c ∈ [Chunk.run 1], c.toInstr.wellFormed = true) ∧
    (∀ c ∈ [Chunk.run 3], c.toInstr.wellFormed = true) ∧
    ([Chunk.run 2].map Chunk.pixels).sum = (2 : Word).toNat * (1 : Word).toNat ∧
    ([Chunk.run 1].map Chunk.pixels).sum < (2 : Word).toNat * (1 : Word).toNat ∧
    (2 : Word).toNat * (1 : Word).toNat < ([Chunk.run 3].map Chunk.pixels).sum ∧
    ([0x0A] : List Byte).length + 1 < chunkLength 0xFE ∧
    (([] : List Chunk).map Chunk.pixels).sum ≤ (2 : Word).toNat * (1 : Word).toNat := by and_intros <;> decide

theorem witness_StreamRoundTrip : [black, p9].length = (1 : Word).toNat * (2 : Word).toNat := by decide

theorem witness_FileRoundTrip : ((4 : Byte) = 3 ∨ (4 : Byte) = 4) ∧ ((1 : Byte) = 0 ∨ (1 : Byte) = 1) ∧
    [black, p9].length = (1 : Word).toNat * (2 : Word).toNat := by and_intros <;> decide

end Sys2Proof.Tests
end

section
/-! The frame of `exec` over all instructions, and the step of a record whose operands fit. -/

namespace Sys2Proof.Machine

/-- No instruction writes the parameters (10_state.md R39) or the port: each ends in one of the shared
operations, and the frame of that operation says so. -/
theorem exec_next_cfg_port {i : Instr} {s t : State} (h : exec i s = .next t) :
    t.cfg = s.cfg ∧ t.port = s.port := by
  cases i with
  | index | diff | luma | run | rgb | rgba =>
    cases h
    exact (s.chunkStep_frame _ _ _ _).imp_right fun ⟨_, _, _, hport⟩ => hport
  | runExtend | runFlushFull | runFlushPending | emitIndex | cacheUpdate | emitDiff | emitLuma | emitRgb
  | emitRgba | prevAdvance | finalFlush | encPixel =>
    cases h
    exact (s.encStep_frame _).imp_right fun ⟨_, _, _, hport⟩ => hport
  | utilEq | utilBe32Unpack | utilBe32Pack | utilConcat | utilExtract | utilPartition | hash | encRgb
  | encRgba | encIndex | encDiff | encLuma | encRun | decRgb | decRgba | decDiff | decLuma | decRun
  | hdrBuild | endMarker =>
    cases h
    exact (s.answer_frame _).imp_right fun ⟨_, _, _, hport⟩ => hport
  | encStart => cases h; exact ⟨rfl, rfl⟩
  | encEnd => cases h; exact s.encEnd_frame.imp_right fun ⟨_, _, _, hport⟩ => hport
  | decStart b w n => cases h; exact (s.decStart_frame b w n).imp_right fun ⟨_, _, _, hport⟩ => hport
  | decStep => cases h; exact s.decStep_frame.imp_right fun ⟨_, _, _, hport⟩ => hport
  | decFinish => cases h; exact s.decFinish_frame.imp_right fun ⟨_, _, _, hport⟩ => hport
  | hdrParse | header => cases h; exact (s.hdrParse_frame _).imp_right fun ⟨_, _, _, hport⟩ => hport
  | fileEncode => cases h; exact (s.fileEncode_frame _ _).imp_right fun ⟨_, _, _, hport⟩ => hport
  | fileDecode file => cases h; exact (s.fileDecode_frame file).imp_right fun ⟨_, _, hport⟩ => hport
  | unassigned => cases h

/-- A record is fetched as the command it decodes to where the command's sequences fit. -/
theorem fetchCommand_ok {cfg : Config} {record : List Byte} {i : Instr} (hd : decodeRecord record = .ok i)
    (hf : i.OperandsFit cfg.maxLen) : fetchCommand cfg record = .ok i := by
  simp [fetchCommand, hd, (operandsWithin_iff _ _).2 hf]

/-- The step of a record that decodes to a command whose sequences fit. -/
theorem step_eq_carry_exec {s : State} {record : List Byte} {rest : List HostInput} {i : Instr}
    (hp : s.port = .command record :: rest) (hd : decodeRecord record = .ok i)
    (hf : i.OperandsFit s.cfg.maxLen) : step s = carry (exec i { s with port := rest }) := by
  rw [step_record s record rest hp, fetchCommand_ok hd hf]

/-- A next state whose results do not fit is refused. -/
theorem carry_next_of_not_fits {t : State}
    (h : ¬(t.enc.out.length ≤ t.cfg.maxLen ∧ t.response.Fits t.cfg.maxLen)) :
    carry (.next t) = .refused .resultTooLong :=
  if_neg (mt (resultsWithin_iff t).1 h)

/-- Settles O5. The step bounds the results by the next state's own MAX_LEN, which is the one of the state
before, since no instruction writes the parameters. -/
theorem stepRunsDecodedCommand : Obligations.StepRunsDecodedCommand := by
  intro s record rest i hp hd hf
  have hstep := step_eq_carry_exec hp hd hf
  refine ⟨fun t ht => ?_, fun r hr => by rw [hstep, hr, carry_refused]⟩
  obtain ⟨hcfg, -⟩ := exec_next_cfg_port ht
  have hmax : s.cfg.maxLen = t.cfg.maxLen := congrArg Config.maxLen hcfg.symm
  rw [hstep, ht, hmax]
  exact ⟨fun hfits => carry_next.2 ⟨rfl, hfits⟩, carry_next_of_not_fits⟩

end Sys2Proof.Machine
end

section
/-! Which operation of the machine each instruction of ENC and DEC runs, and what that leaves unchanged. -/

namespace Sys2Proof.Machine

/-- An instruction of ENC is ENC.START, ENC.END or one encoder step whose function the instruction alone
decides. -/
theorem exec_encoder_cases {i : Instr} (hi : i.isEncoder = true) :
    i = .encStart ∨ i = .encEnd ∨ ∃ f, ∀ s, exec i s = .next (s.encStep f) := by
  cases i with
  | encStart => exact .inl rfl
  | encEnd => exact .inr (.inl rfl)
  | runExtend | runFlushFull | runFlushPending | emitIndex | cacheUpdate | emitDiff | emitLuma | emitRgb
  | emitRgba | prevAdvance | finalFlush | encPixel => exact .inr (.inr ⟨_, fun _ => rfl⟩)
  | _ => cases hi

/-- An instruction of DEC is one of its three commands or a chunk. -/
theorem isDecoder_cases {i : Instr} (hi : i.isDecoder = true) :
    (∃ bytes w h, i = .decStart bytes w h) ∨ i = .decStep ∨ i = .decFinish ∨
      ∃ c : Chunk, i = c.toInstr := by
  cases i with
  | decStart bytes w h => exact .inl ⟨bytes, w, h, rfl⟩
  | decStep => exact .inr (.inl rfl)
  | decFinish => exact .inr (.inr (.inl rfl))
  | index slot => exact .inr (.inr (.inr ⟨.index slot, rfl⟩))
  | diff dr dg db => exact .inr (.inr (.inr ⟨.diff dr dg db, rfl⟩))
  | luma dg drDg dbDg => exact .inr (.inr (.inr ⟨.luma dg drDg dbDg, rfl⟩))
  | run length => exact .inr (.inr (.inr ⟨.run length, rfl⟩))
  | rgb r g b => exact .inr (.inr (.inr ⟨.rgb r g b, rfl⟩))
  | rgba r g b a => exact .inr (.inr (.inr ⟨.rgba r g b a, rfl⟩))
  | _ => cases hi

/-- What no instruction of ENC writes. -/
theorem exec_encoder_frame {i : Instr} {s t : State} (hi : i.isEncoder = true) (h : exec i s = .next t) :
    t.cfg = s.cfg ∧ t.dec = s.dec ∧ t.hdr = s.hdr ∧ t.utilCause = s.utilCause ∧ t.port = s.port := by
  obtain rfl | rfl | ⟨f, hf⟩ := exec_encoder_cases hi
  · cases h; exact ⟨rfl, rfl, rfl, rfl, rfl⟩
  · cases h; exact s.encEnd_frame
  · rw [hf] at h; cases h; exact s.encStep_frame f

/-- What no instruction of DEC writes. -/
theorem exec_decoder_frame {i : Instr} {s t : State} (hi : i.isDecoder = true) (h : exec i s = .next t) :
    t.cfg = s.cfg ∧ t.enc = s.enc ∧ t.hdr = s.hdr ∧ t.utilCause = s.utilCause ∧ t.port = s.port := by
  obtain ⟨bytes, w, n, rfl⟩ | rfl | rfl | ⟨c, rfl⟩ := isDecoder_cases hi
  · cases h; exact s.decStart_frame bytes w n
  · cases h; exact s.decStep_frame
  · cases h; exact s.decFinish_frame
  · rw [exec_chunk] at h; cases h; exact execChunk_frame c s

/-- A stateless command that writes `util.cause` answers with that fault. -/
theorem State.answer_utilCause (s : State) (r : Except Cause Response) :
    (s.answer r).utilCause = s.utilCause ∨ (s.answer r).response = .fault (s.answer r).utilCause := by
  cases r with
  | ok r => exact .inl rfl
  | error c => exact .inr rfl

/-- Settles O11: each instruction is one of ENC, one of DEC, an answer of a stateless unit, HDR.PARSE or a
file-level composition, and the frame of each says what it leaves. -/
theorem onlyTheirWritersChangeRegisters : Obligations.OnlyTheirWritersChangeRegisters := by
  intro i s t h
  cases i with
  | runExtend | runFlushFull | runFlushPending | emitIndex | cacheUpdate | emitDiff | emitLuma | emitRgb
  | emitRgba | prevAdvance | finalFlush | encStart | encPixel | encEnd =>
    obtain ⟨hcfg, hdec, hhdr, hutil, hport⟩ := exec_encoder_frame rfl h
    exact ⟨hcfg, hport, nofun, fun _ _ => hdec, fun _ _ _ => hhdr, .inl hutil⟩
  | index | diff | luma | run | rgb | rgba | decStart | decStep | decFinish =>
    obtain ⟨hcfg, henc, hhdr, hutil, hport⟩ := exec_decoder_frame rfl h
    exact ⟨hcfg, hport, fun _ _ => henc, nofun, fun _ _ _ => hhdr, .inl hutil⟩
  | utilEq | utilBe32Unpack | utilBe32Pack | utilConcat | utilExtract | utilPartition | hash | encRgb
  | encRgba | encIndex | encDiff | encLuma | encRun | decRgb | decRgba | decDiff | decLuma | decRun
  | hdrBuild | endMarker =>
    obtain ⟨r, rfl⟩ : ∃ r, t = s.answer r := by cases h; exact ⟨_, rfl⟩
    obtain ⟨hcfg, henc, hdec, hhdr, hport⟩ := s.answer_frame r
    exact ⟨hcfg, hport, fun _ _ => henc, fun _ _ => hdec, fun _ _ _ => hhdr, s.answer_utilCause r⟩
  | hdrParse bytes =>
    cases h
    obtain ⟨hcfg, henc, hdec, hutil, hport⟩ := s.hdrParse_frame bytes
    exact ⟨hcfg, hport, fun _ _ => henc, fun _ _ => hdec, fun hne => absurd rfl (hne _), hutil⟩
  | header m w n c k =>
    cases h
    obtain ⟨hcfg, henc, hdec, hutil, hport⟩ := s.hdrParse_frame (some (headerBytes m w n c k))
    exact ⟨hcfg, hport, fun _ _ => henc, fun _ _ => hdec,
      fun _ hne => absurd rfl (hne _ _ _ _ _), hutil⟩
  | fileEncode w n c k ps =>
    cases h
    obtain ⟨hcfg, hdec, hhdr, hutil, hport⟩ := s.fileEncode_frame ⟨w, n, c, k⟩ ps
    exact ⟨hcfg, hport, fun _ hne => absurd rfl (hne _ _ _ _ _), fun _ _ => hdec, fun _ _ _ => hhdr,
      hutil⟩
  | fileDecode file =>
    cases h
    obtain ⟨hcfg, henc, hutil, hport⟩ := s.fileDecode_frame file
    exact ⟨hcfg, hport, fun _ _ => henc, fun _ hne => absurd rfl (hne _),
      fun _ _ hne => absurd rfl (hne _), hutil⟩
  | unassigned => cases h

theorem exec_enc_eq {i : Instr} {s t : State} (h : exec i s = .next t) (hi : i.isEncoder = false)
    (hne : ∀ w h c k ps, i ≠ .fileEncode w h c k ps) : t.enc = s.enc := by
  obtain ⟨-, -, henc, -⟩ := onlyTheirWritersChangeRegisters i s t h
  exact henc hi hne

theorem exec_dec_eq {i : Instr} {s t : State} (h : exec i s = .next t) (hi : i.isDecoder = false)
    (hne : ∀ f, i ≠ .fileDecode f) : t.dec = s.dec := by
  obtain ⟨-, -, -, hdec, -⟩ := onlyTheirWritersChangeRegisters i s t h
  exact hdec hi hne

end Sys2Proof.Machine
end

section
/-! The invariant of ENC under every operation that a command runs (10_state.md R42, 43_encoder_fsm.md
R185). -/

namespace Sys2Proof.Machine

/-! ### The color cache (R42 b) -/

theorem Cache.sound_clear : Cache.clear.Sound := fun slot => .inl (Cache.read_clear slot)

/-- A pixel written at its own hash. -/
theorem Cache.Sound.write {c : Cache} (h : c.Sound) (px : Pixel) : (c.write (hash px) px).Sound := by
  intro slot
  by_cases hs : slot = hash px
  · subst hs
    exact .inr (by rw [Cache.read_write_same])
  · rw [Cache.read_write_other _ _ _ _ hs]
    exact h slot

/-! ### ENC's registers -/

/-- The registers START leaves meet the invariant in any mode but FAULT; power-on leaves them in IDLE. -/
theorem Enc.inv_of_start (cfg : Config) {m : Mode} (hm : m ≠ .fault) :
    Enc.Inv cfg { Enc.start cfg with mode := m } where
  run_le := Nat.zero_le _
  cache_sound := Cache.sound_clear
  prev_cached := .inl rfl
  size_le := Nat.le_refl _
  cause_iff := ⟨fun h => absurd rfl h, fun h => absurd h hm⟩
  done_flushed _ := rfl

/-- Outside mode FAULT no cause is set. -/
theorem Enc.Inv.cause_eq_none {cfg : Config} {e : Enc} (h : e.Inv cfg) (hm : e.mode ≠ .fault) :
    e.cause = .none := not_not.1 (mt h.cause_iff.1 hm)

theorem pendingBytes_length (n : Nat) : (pendingBytes n).length = if 0 < n then 1 else 0 := by
  unfold pendingBytes
  split <;> rfl

theorem Chunk.size_le (c : Chunk) : c.size ≤ 5 := by cases c <;> simp [Chunk.size]

/-- A pixel equal to the previous one: the run grows, or its 62nd pixel flushes it with the one byte that the
size bound already counts for a pending run. -/
theorem Enc.Inv.pixel_run {cfg : Config} {e : Enc} (h : e.Inv cfg) (hm : e.mode = .active) :
    ∃ e', Enc.pixel e.prev e = .ok e' ∧ e'.Inv cfg := by
  have hrun := h.run_le
  have hsize := h.size_le
  have hp := Enc.pixel_run e
  split at hp
  · refine ⟨_, hp, { h with run_le := Nat.zero_le _, size_le := ?_, done_flushed := fun _ => rfl }⟩
    rw [if_pos (by omega)] at hsize
    simp only [List.length_append, List.length_singleton, lt_irrefl, if_false]
    omega
  · refine ⟨_, hp, { h with run_le := ?_, size_le := ?_, done_flushed := ?_ }⟩
    · dsimp only
      omega
    · dsimp only
      rw [if_pos (by omega)]
      omega
    · exact fun hd => absurd (hm.symm.trans hd) nofun

/-- A differing pixel: it becomes the previous one, cached at its hash by a hit or by the write on a miss, and
its chunk adds at most 5 bytes. -/
theorem Enc.Inv.pixel_ne {cfg : Config} {e : Enc} (h : e.Inv cfg) {px : Pixel} (hpx : px ≠ e.prev) :
    ∃ e', Enc.pixel px e = .ok e' ∧ e'.Inv cfg := by
  have hrun := h.run_le
  have hsize := h.size_le
  refine ⟨_, Enc.pixel_ne e px hpx (by omega),
    { h with run_le := Nat.zero_le _, cache_sound := ?_, prev_cached := .inr ?_, size_le := ?_
             done_flushed := fun _ => rfl }⟩
  · dsimp only
    split
    · exact h.cache_sound
    · exact h.cache_sound.write px
  · dsimp only
    split
    · exact of_decide_eq_true ‹hit e px = true›
    · exact Cache.read_write_same _ _ _
  · have hchunk := Chunk.size_le (e.chosen px)
    simp only [List.length_append, pendingBytes_length, Chunk.bytes_length, lt_irrefl, if_false]
    omega

/-- In a call, ENC.PIXEL succeeds and keeps the invariant. -/
theorem Enc.Inv.pixel {cfg : Config} {e : Enc} (h : e.Inv cfg) (hm : e.mode = .active) (px : Pixel) :
    ∃ e', Enc.pixel px e = .ok e' ∧ e'.Inv cfg := by
  by_cases hpx : px = e.prev
  · rw [hpx]
    exact h.pixel_run hm
  · exact h.pixel_ne hpx

/-- In a call, the end of the stream succeeds and keeps the invariant. -/
theorem Enc.Inv.finish {cfg : Config} {e : Enc} (h : e.Inv cfg) (hm : e.mode = .active) :
    ∃ e', Enc.finish e = .ok e' ∧ e'.Inv cfg := by
  have hrun := h.run_le
  have hcause := h.cause_eq_none (by rw [hm]; nofun)
  refine ⟨_, Enc.finish_ok e (by omega),
    { h with run_le := Nat.zero_le _, size_le := ?_, cause_iff := ⟨fun hc => absurd hcause hc, nofun⟩
             done_flushed := fun _ => rfl }⟩
  simpa [pendingBytes_length] using h.size_le

/-! ### The operations of the machine on ENC -/

theorem State.takeFault_enc_inv {s : State} {c : Cause} (hc : c ≠ .none) (h : s.enc.Inv s.cfg) :
    (s.takeFault .enc c).enc.Inv (s.takeFault .enc c).cfg := by
  rw [State.takeFault_enc_enc, State.takeFault_cfg]
  refine { h with cause_iff := ⟨fun _ => rfl, fun _ => ?_⟩, done_flushed := nofun }
  dsimp only
  split
  · rename_i hsticky
    exact h.cause_iff.2 hsticky.1
  · exact hc

/-- An encoder step keeps the invariant if its function, in a call, succeeds and keeps it. -/
theorem State.encStep_inv {s : State} {f : Enc → Except Cause Enc} (h : s.enc.Inv s.cfg)
    (hf : s.enc.mode = .active → ∃ e, f s.enc = .ok e ∧ e.Inv s.cfg) :
    (s.encStep f).enc.Inv (s.encStep f).cfg := by
  by_cases hm : s.enc.mode = .active
  · obtain ⟨e, hfe, he⟩ := hf hm
    rw [State.encStep_ok hm hfe]
    exact he
  · rw [State.encStep, if_neg hm]
    exact State.takeFault_enc_inv nofun h

theorem State.encStart_inv (s : State) : s.encStart.enc.Inv s.encStart.cfg :=
  Enc.inv_of_start s.cfg (m := .active) nofun

theorem State.encPixel_inv {s : State} (px : Pixel) (h : s.enc.Inv s.cfg) :
    (s.encPixel px).enc.Inv (s.encPixel px).cfg := State.encStep_inv h fun hm => h.pixel hm px

/-- ENC.END leaves ENC as its encoder step does; its answer is not in ENC's registers. -/
theorem State.encEnd_enc (s : State) : s.encEnd.enc = (s.encStep Enc.finish).enc := by
  unfold State.encEnd
  dsimp only
  split <;> rfl

theorem State.encEnd_inv {s : State} (h : s.enc.Inv s.cfg) : s.encEnd.enc.Inv s.encEnd.cfg := by
  obtain ⟨hcfg, -⟩ := s.encEnd_frame
  obtain ⟨hcfg', -⟩ := s.encStep_frame Enc.finish
  rw [s.encEnd_enc, hcfg, ← hcfg']
  exact State.encStep_inv h h.finish

theorem State.encPixels_inv (ps : List Pixel) : ∀ {s : State}, s.enc.Inv s.cfg →
    (State.encPixels ps s).enc.Inv (State.encPixels ps s).cfg := by
  induction ps with
  | nil => exact fun h => h
  | cons p ps ih => exact fun h => ih (State.encPixel_inv p h)

/-- FILE.ENCODE leaves ENC untouched, or as a whole encode call does. -/
theorem State.fileEncode_enc_cases (s : State) (h : Hdr) (pixels : Option (List Pixel)) :
    (s.fileEncode h pixels).enc = s.enc ∨
      ∃ ps, (s.fileEncode h pixels).enc = (State.encPixels ps s.encStart).encEnd.enc := by
  unfold State.fileEncode
  split
  · exact .inl rfl
  · rename_i ps
    split
    · exact .inl rfl
    · split
      · exact .inl rfl
      · refine .inr ⟨ps, ?_⟩
        dsimp only
        split <;> rfl

theorem State.fileEncode_inv {s : State} (h : Hdr) (pixels : Option (List Pixel)) (hs : s.enc.Inv s.cfg) :
    (s.fileEncode h pixels).enc.Inv (s.fileEncode h pixels).cfg := by
  obtain ⟨hcfg, -⟩ := s.fileEncode_frame h pixels
  rw [hcfg]
  obtain henc | ⟨ps, henc⟩ := s.fileEncode_enc_cases h pixels
  · rw [henc]
    exact hs
  · have hinv := State.encEnd_inv (State.encPixels_inv ps s.encStart_inv)
    obtain ⟨hend, -⟩ := (State.encPixels ps s.encStart).encEnd_frame
    obtain ⟨hpix, -⟩ := State.encPixels_frame ps s.encStart
    rw [hend, hpix] at hinv
    rw [henc]
    exact hinv

/-- Every command keeps ENC's part of the invariant. An action, which is no command, need not: PREV_ADVANCE
alone leaves a previous pixel that is not cached. -/
theorem exec_command_enc_inv {i : Instr} {s t : State} (hi : i.space = .command) (h : exec i s = .next t)
    (hs : s.enc.Inv s.cfg) : t.enc.Inv t.cfg := by
  cases i with
  | encStart => cases h; exact s.encStart_inv
  | encPixel px => cases h; exact State.encPixel_inv px hs
  | encEnd => cases h; exact State.encEnd_inv hs
  | fileEncode w n c k ps => cases h; exact State.fileEncode_inv ⟨w, n, c, k⟩ ps hs
  | runExtend | runFlushFull | runFlushPending | emitIndex | cacheUpdate | emitDiff | emitLuma | emitRgb
  | emitRgba | prevAdvance | finalFlush => cases hi
  | _ =>
    obtain ⟨hcfg, -⟩ := exec_next_cfg_port h
    rw [exec_enc_eq h rfl nofun, hcfg]
    exact hs

end Sys2Proof.Machine
end

section
/-! The invariant of DEC under every operation that a command runs (10_state.md R42, R34; 44_decoder_fsm.md
R210). -/

namespace Sys2Proof.Machine

/-- DEC's part of the machine's invariant: its registers' own, and `dec.in` within `n` bytes. -/
def Dec.InvWithin (n : Nat) (d : Dec) : Prop := d.Inv ∧ d.input.length ≤ n

/-- The registers DEC.START leaves meet the invariant in any mode but FAULT and DONE; power-on leaves them
in IDLE. -/
theorem Dec.inv_of_start (cfg : Config) (bs : List Byte) (w h : Word) {m : Mode} (hf : m ≠ .fault)
    (hd : m ≠ .done) : Dec.Inv { Dec.start cfg bs w h with mode := m } where
  cache_sound := Cache.sound_clear
  op_le := Nat.zero_le _
  ip_le := Nat.zero_le _
  out_wf := rfl
  out_written _ := by simp
  cause_iff := ⟨fun h => absurd rfl h, fun h => absurd h hf⟩
  done_complete h := absurd h hd

/-- Outside mode FAULT no cause is set. -/
theorem Dec.Inv.cause_eq_none {d : Dec} (h : d.Inv) (hm : d.mode ≠ .fault) : d.cause = .none :=
  not_not.1 (mt h.cause_iff.1 hm)

/-- COMMIT within the checks of R202 keeps the invariant: the copies fill the buffer exactly up to the new
`dec.op`. -/
theorem Dec.Inv.commit {d : Dec} {cw : Bool} {px : Pixel} {n len : Nat} (h : d.Inv)
    (hm : d.mode = .active) (hip : d.ip + len ≤ d.input.length) (hop : d.op + n ≤ d.npix) :
    (d.commit cw px n len).Inv where
  cache_sound := by
    rw [Dec.commit_cache]
    split
    · exact h.cache_sound.write px
    · exact h.cache_sound
  op_le := hop
  ip_le := hip
  out_wf := Memory.wf_writeCopies _ _ _ _ h.out_wf
  out_written addr := by
    rw [Dec.commit_out, Memory.isSome_writeCopies, h.out_written, Dec.commit_op]
    omega
  cause_iff := h.cause_iff
  done_complete hd := absurd (hm.symm.trans hd) nofun

section
variable {s : State} {n : Nat}

theorem State.takeFault_dec_inv {c : Cause} (hc : c ≠ .none) (h : s.dec.InvWithin n) :
    (s.takeFault .dec c).dec.InvWithin n := by
  rw [State.takeFault_dec_dec]
  obtain ⟨hinv, hin⟩ := h
  refine ⟨{ hinv with cause_iff := ⟨fun _ => rfl, fun _ => ?_⟩, done_complete := nofun }, hin⟩
  dsimp only
  split
  · rename_i hsticky
    exact hinv.cause_iff.2 hsticky.1
  · exact hc

theorem State.chunkStep_inv (cw : Bool) (px : Pixel) (k len : Nat) (h : s.dec.InvWithin n) :
    (s.chunkStep cw px k len).dec.InvWithin n := by
  unfold State.chunkStep
  split
  · exact State.takeFault_dec_inv nofun h
  · rename_i hactive
    split
    · exact State.takeFault_dec_inv nofun h
    · rename_i hip
      split
      · exact State.takeFault_dec_inv nofun h
      · rename_i hop
        obtain ⟨hmode, -⟩ := not_not.1 hactive
        obtain ⟨hinv, hin⟩ := h
        exact ⟨hinv.commit hmode (not_not.1 hip) (not_not.1 hop), hin⟩

theorem execChunk_inv (c : Chunk) (h : s.dec.InvWithin n) : (execChunk c s).dec.InvWithin n := by
  cases c <;> exact State.chunkStep_inv _ _ _ _ h

theorem State.decStart_inv {bytes : Seq} (w k : Word) (hb : ∀ bs, some bs = bytes → bs.length ≤ n)
    (h : s.dec.InvWithin n) : (s.decStart bytes w k).dec.InvWithin n := by
  cases bytes with
  | none => exact State.takeFault_dec_inv nofun h
  | some bs => exact ⟨Dec.inv_of_start s.cfg bs w k (m := .active) nofun nofun, hb bs rfl⟩

theorem State.decStep_inv (h : s.dec.InvWithin n) : s.decStep.dec.InvWithin n := by
  unfold State.decStep
  split
  · exact State.takeFault_dec_inv nofun h
  · split
    · exact State.takeFault_dec_inv nofun h
    · exact execChunk_inv _ h

theorem State.decFinish_inv (h : s.dec.InvWithin n) : s.decFinish.dec.InvWithin n := by
  unfold State.decFinish
  split
  · exact State.takeFault_dec_inv nofun h
  · rename_i hactive
    obtain ⟨hmode, hip⟩ := not_not.1 hactive
    split
    · exact State.takeFault_dec_inv nofun h
    · rename_i hop
      obtain ⟨hinv, hin⟩ := h
      have hcause := hinv.cause_eq_none (by rw [hmode]; nofun)
      exact ⟨{ hinv with cause_iff := ⟨fun hc => absurd hcause hc, nofun⟩
                         done_complete := fun _ => ⟨not_not.1 hop, hip⟩ }, hin⟩

end

theorem State.decLoop_inv {n : Nat} (turns : Nat) : ∀ {s : State}, s.dec.InvWithin n →
    (State.decLoop turns s).dec.InvWithin n := by
  induction turns with
  | zero => exact fun h => h
  | succ turns ih =>
    intro s h
    unfold State.decLoop
    split
    · exact ih (State.decStep_inv h)
    · exact h

/-- FILE.DECODE leaves DEC untouched, or as a decode call on a part of the file does, up to the command that
ends it (log entry 18). -/
theorem State.fileDecode_dec_cases (s : State) (file : Seq) :
    (s.fileDecode file).dec = s.dec ∨
      ∃ f body hd t, file = some f ∧ body.length ≤ f.length ∧
        t = State.decLoop body.length ((s.setHdr hd).decStart (some body) hd.width hd.height) ∧
        ((s.fileDecode file).dec = t.dec ∨ (s.fileDecode file).dec = t.decFinish.dec) := by
  unfold State.fileDecode
  split
  · exact .inl rfl
  · rename_i f
    split
    · exact .inl rfl
    · split
      · exact .inl rfl
      · split
        · exact .inl rfl
        · split
          · exact .inl rfl
          · rename_i hd _
            refine .inr ⟨f, (f.drop headerLen).take (f.length - endLen - headerLen), hd, _, rfl, ?_, rfl, ?_⟩
            · simp only [List.length_take, List.length_drop]
              omega
            · dsimp only
              split
              · exact .inr (by split <;> rfl)
              · exact .inl rfl

theorem State.fileDecode_inv {s : State} {n : Nat} {file : Seq} (hf : ∀ f, some f = file → f.length ≤ n)
    (h : s.dec.InvWithin n) : (s.fileDecode file).dec.InvWithin n := by
  obtain hdec | ⟨f, body, hd, t, rfl, hbody, ht, hdec⟩ := s.fileDecode_dec_cases file
  · rw [hdec]
    exact h
  · have hbody' : ∀ bs, some bs = some body → bs.length ≤ n := by
      rintro _ ⟨⟩
      exact hbody.trans (hf f rfl)
    have hloop : t.dec.InvWithin n := by
      rw [ht]
      exact State.decLoop_inv _ (State.decStart_inv (s := s.setHdr hd) _ _ hbody' h)
    obtain hdec | hdec := hdec
    · rw [hdec]
      exact hloop
    · rw [hdec]
      exact State.decFinish_inv hloop

/-- Every command whose operands fit keeps DEC's part of the invariant. -/
theorem exec_command_dec_inv {i : Instr} {s t : State} {n : Nat} (hi : i.space = .command)
    (hfit : i.OperandsFit n) (h : exec i s = .next t) (hs : s.dec.InvWithin n) : t.dec.InvWithin n := by
  obtain ⟨hbytes, -⟩ := hfit
  cases i with
  | decStart bytes w k =>
    cases h
    exact State.decStart_inv w k (fun bs hb => hbytes bs (hb ▸ List.mem_singleton_self _)) hs
  | decStep => cases h; exact State.decStep_inv hs
  | decFinish => cases h; exact State.decFinish_inv hs
  | fileDecode file =>
    cases h
    exact State.fileDecode_inv (fun f hf => hbytes f (hf ▸ List.mem_singleton_self _)) hs
  | index | diff | luma | run | rgb | rgba => cases hi
  | _ => rw [exec_dec_eq h rfl nofun]; exact hs

end Sys2Proof.Machine
end

section
/-! What a step takes off the port, and the invariant of the machine over a step. -/

namespace Sys2Proof.Machine

/-- A step that takes no command leaves the state as taking the input does. -/
theorem step_of_no_command {s t : State} (h : nextInput s = .ok (none, t)) : step s = .next t := by
  rw [step, h]

/-- Settles O7: no clause takes a command, so the step is what `nextInput` makes of the port. -/
theorem stepWithoutCommand : Obligations.StepWithoutCommand := by
  refine fun s rest => ⟨fun hp => ?_, fun w hp => ?_, fun h hp => ?_, fun c hp => ?_, fun c hp => ?_⟩
  all_goals exact step_of_no_command (by rw [nextInput, hp])

/-- Everything a step that completes can do: a header write or a wait, or the command of a record. -/
theorem step_next_cases {s t : State} (h : step s = .next t) :
    (∃ hdr port, t = { s with hdr := hdr, port := port }) ∨
      ∃ record rest i, s.port = .command record :: rest ∧ fetchCommand s.cfg record = .ok i ∧
        carry (exec i { s with port := rest }) = .next t := by
  cases hp : s.port with
  | nil => rw [step_of_no_command (by rw [nextInput, hp])] at h; cases h; exact .inl ⟨_, _, rfl⟩
  | cons input rest =>
    cases input with
    | writeWidth | writeHeight | writeChannels | writeColorspace =>
      rw [step_of_no_command (by rw [nextInput, hp])] at h; cases h; exact .inl ⟨_, _, rfl⟩
    | command record =>
      rw [step_record s record rest hp] at h
      cases hi : fetchCommand s.cfg record with
      | error r => rw [hi] at h; cases h
      | ok i => rw [hi] at h; exact .inr ⟨record, rest, i, rfl, hi, h⟩

/-- A fetched command's sequences fit. -/
theorem fetchCommand_fits {cfg : Config} {record : List Byte} {i : Instr}
    (h : fetchCommand cfg record = .ok i) : i.OperandsFit cfg.maxLen := by
  unfold fetchCommand at h
  split at h
  · cases h
  · split at h
    · cases h
      exact (operandsWithin_iff _ _).1 ‹_›
    · cases h

/-- Settles O10. Each command keeps ENC's and DEC's registers in their invariants, and `step` bounds what it
takes in and carries out. -/
theorem stepKeepsInvariant : Obligations.StepKeepsInvariant := by
  intro s t hs h
  obtain ⟨hdr, port, rfl⟩ | ⟨record, rest, i, -, hfetch, hcarry⟩ := step_next_cases h
  · exact ⟨hs.enc, hs.dec, hs.out_fits, hs.in_fits, hs.response_fits⟩
  · obtain ⟨hexec, hout, hresponse⟩ := carry_next.1 hcarry
    have hcommand := fetchCommand_space hfetch
    have henc := exec_command_enc_inv hcommand hexec hs.enc
    obtain ⟨hdec, hin⟩ := exec_command_dec_inv hcommand (fetchCommand_fits hfetch) hexec ⟨hs.dec, hs.in_fits⟩
    obtain ⟨hcfg, -⟩ := exec_next_cfg_port hexec
    exact ⟨henc, hdec, hout, hcfg ▸ hin, hresponse⟩

/-- Settles O9: power-on leaves ENC and DEC as START does, in mode IDLE. -/
theorem powerOnStateMeetsInvariant : Obligations.PowerOnStateMeetsInvariant := by
  refine ⟨⟨?_, ?_, Nat.zero_le _, Nat.zero_le _, nofun, nofun⟩, rfl, rfl, rfl, rfl, rfl, fun _ => rfl⟩
  · exact Enc.inv_of_start Config.default (m := .idle) nofun
  · exact Dec.inv_of_start Config.default [] 0 0 (m := .idle) nofun nofun

end Sys2Proof.Machine
end

section
/-! What an instruction of ENC may write in ENC's registers (10_state.md R25, R26; 43_encoder_fsm.md R185). -/

namespace Sys2Proof.Machine

/-- What an instruction of ENC other than ENC.START may do to the output, the cache and the pixel count. -/
def Enc.Writes (i : Instr) (e e' : Enc) : Prop :=
  (∃ bs, e'.out = e.out ++ bs ∧ bs.length ≤ 6) ∧
    (e'.cache = e.cache ∨
      ∃ px, (i = .encPixel px ∨ i = .cacheUpdate px) ∧ e'.cache.read (hash px) = px ∧
        ∀ slot, slot ≠ hash px → e'.cache.read slot = e.cache.read slot) ∧
    (e'.pi = e.pi ∨ ∃ px, i = .encPixel px ∧ e'.pi = e.pi + 1)

section
variable {i : Instr} {e e' : Enc} {bs : List Byte}

/-- An append of at most 6 bytes that leaves the cache and the count. -/
theorem Enc.writes_of_append (hout : e'.out = e.out ++ bs) (hlen : bs.length ≤ 6)
    (hcache : e'.cache = e.cache) (hpi : e'.pi = e.pi) : Enc.Writes i e e' :=
  ⟨⟨bs, hout, hlen⟩, .inl hcache, .inl hpi⟩

/-- A chunk encoder's bytes, where they are few enough, are an append. -/
theorem Enc.emitChecked_writes {r : Except Cause (List Byte)} (hr : ∀ bs, r = .ok bs → bs.length ≤ 6)
    (h : e.emitChecked r = .ok e') : Enc.Writes i e e' := by
  cases r with
  | error c => cases h
  | ok bs => cases h; exact Enc.writes_of_append rfl (hr bs rfl) rfl rfl

/-- Writing a pixel at its hash touches that slot alone (41_hash_and_cache.md R133). -/
theorem Cache.write_hash (c : Cache) (px : Pixel) : (c.write (hash px) px).read (hash px) = px ∧
    ∀ slot, slot ≠ hash px → (c.write (hash px) px).read slot = c.read slot :=
  ⟨Cache.read_write_same _ _ _, fun _ hs => Cache.read_write_other _ _ _ _ hs⟩

/-! ### The lengths of the chunks the chunk encoders write (30_encoding.md R89) -/

theorem encodeIndex_length {slot : Nat} (h : encodeIndex slot = .ok bs) : bs.length = 1 := by
  unfold encodeIndex at h
  split at h <;> cases h
  rfl

theorem encodeDiff_length {dr dg db : Int} (h : encodeDiff dr dg db = .ok bs) : bs.length = 1 := by
  unfold encodeDiff at h
  split at h <;> cases h
  rfl

theorem encodeLuma_length {dr dg db : Int} (h : encodeLuma dr dg db = .ok bs) : bs.length = 2 := by
  unfold encodeLuma at h
  split at h <;> cases h
  rfl

theorem encodeRun_length {n : Nat} (h : encodeRun n = .ok bs) : bs.length = 1 := by
  unfold encodeRun at h
  split at h <;> cases h
  rfl

/-! ### The functions of the encoder steps -/

/-- The three flushes of a run differ in its length alone; the counter they reset is none of what `Writes`
speaks of. -/
theorem Enc.flush_writes {n : Nat} (h : Enc.emitChecked { e with run := 0 } (encodeRun n) = .ok e') :
    Enc.Writes i e e' :=
  Enc.emitChecked_writes (e := { e with run := 0 }) (fun _ hb => by rw [encodeRun_length hb]; omega) h

theorem Enc.runExtend_writes (h : e.runExtend = .ok e') : Enc.Writes i e e' := by
  unfold Enc.runExtend at h
  split at h
  · exact Enc.flush_writes (e := { e with run := e.run + 1 }) h
  · cases h; exact Enc.writes_of_append (List.append_nil _).symm (Nat.zero_le _) rfl rfl

/-- One pixel appends the pending run's chunk and the chosen one, 1 and at most 5 bytes. -/
theorem Enc.pixel_writes {px : Pixel} (h : Enc.pixel px e = .ok e') : Enc.Writes (.encPixel px) e e' := by
  by_cases hpx : px = e.prev
  · subst hpx
    rw [Enc.pixel_run] at h
    split at h <;> cases h
    · exact ⟨⟨[0xFD], rfl, by decide⟩, .inl rfl, .inr ⟨_, rfl, rfl⟩⟩
    · exact ⟨⟨[], (List.append_nil _).symm, by decide⟩, .inl rfl, .inr ⟨_, rfl, rfl⟩⟩
  · by_cases hrun : e.run ≤ 62
    · rw [Enc.pixel_ne e px hpx hrun] at h
      cases h
      refine ⟨⟨_, List.append_assoc _ _ _, ?_⟩, ?_, .inr ⟨_, rfl, rfl⟩⟩
      · have hchunk := Chunk.size_le (e.chosen px)
        rw [List.length_append, pendingBytes_length, Chunk.bytes_length]
        split <;> omega
      · dsimp only
        split
        · exact .inl rfl
        · exact .inr ⟨px, .inl rfl, e.cache.write_hash px⟩
    · rw [Enc.pixel_ne_error e px hpx (by omega)] at h
      cases h

theorem Enc.finish_writes (h : e.finish = .ok e') : Enc.Writes i e e' := by
  by_cases hrun : e.run ≤ 62
  · rw [Enc.finish_ok e hrun] at h
    cases h
    refine Enc.writes_of_append rfl ?_ rfl rfl
    rw [pendingBytes_length]
    split <;> omega
  · rw [Enc.finish_error e (by omega)] at h
    cases h

end

/-- An encoder step writes what its function writes; a fault writes none of it. -/
theorem State.encStep_writes {i : Instr} {s : State} {f : Enc → Except Cause Enc}
    (hf : ∀ e', f s.enc = .ok e' → Enc.Writes i s.enc e') : Enc.Writes i s.enc (s.encStep f).enc := by
  have hfault : ∀ c, Enc.Writes i s.enc (s.takeFault .enc c).enc := fun c => by
    rw [State.takeFault_enc_enc]
    exact Enc.writes_of_append (List.append_nil _).symm (Nat.zero_le _) rfl rfl
  obtain ⟨e, -, he, h⟩ | ⟨c, -, -, h⟩ | ⟨-, h⟩ := s.encStep_cases f
  · rw [h]
    exact hf e he
  · rw [h]
    exact hfault c
  · rw [h]
    exact hfault .protocol

/-- What each instruction of ENC writes. -/
theorem exec_encoder_writes {i : Instr} {s t : State} (hi : i.isEncoder = true) (hne : i ≠ .encStart)
    (h : exec i s = .next t) : Enc.Writes i s.enc t.enc := by
  cases i with
  | runExtend => cases h; exact State.encStep_writes fun _ => Enc.runExtend_writes
  | runFlushFull | runFlushPending | finalFlush =>
    cases h; exact State.encStep_writes fun _ => Enc.flush_writes
  | emitIndex slot =>
    cases h
    exact State.encStep_writes fun _ =>
      Enc.emitChecked_writes fun _ hb => by rw [encodeIndex_length hb]; omega
  | emitDiff dr dg db =>
    cases h
    exact State.encStep_writes fun _ =>
      Enc.emitChecked_writes fun _ hb => by rw [encodeDiff_length hb]; omega
  | emitLuma dr dg db =>
    cases h
    exact State.encStep_writes fun _ =>
      Enc.emitChecked_writes fun _ hb => by rw [encodeLuma_length hb]; omega
  | emitRgb r g b =>
    cases h
    exact State.encStep_writes fun _ h => by
      cases h; exact Enc.writes_of_append (bs := rgbBytes r g b) rfl (by simp [rgbBytes]) rfl rfl
  | emitRgba px =>
    cases h
    exact State.encStep_writes fun _ h => by
      cases h
      exact Enc.writes_of_append (bs := rgbaBytes px.r px.g px.b px.a) rfl (by simp [rgbaBytes]) rfl rfl
  | cacheUpdate px =>
    cases h
    exact State.encStep_writes fun _ h => by
      cases h
      exact ⟨⟨[], (List.append_nil _).symm, Nat.zero_le _⟩,
        .inr ⟨px, .inr rfl, Cache.write_hash _ px⟩, .inl rfl⟩
  | prevAdvance px =>
    cases h
    exact State.encStep_writes fun _ h => by
      cases h; exact Enc.writes_of_append (List.append_nil _).symm (Nat.zero_le _) rfl rfl
  | encStart => exact absurd rfl hne
  | encPixel px => cases h; exact State.encStep_writes fun _ => Enc.pixel_writes
  | encEnd => cases h; rw [s.encEnd_enc]; exact State.encStep_writes fun _ => Enc.finish_writes
  | _ => cases hi

/-- Settles O15: the frame of ENC's instructions, and what each of them writes in ENC. -/
theorem encoderFrame : Obligations.EncoderFrame := by
  intro i s t hi h
  obtain ⟨hcfg, hdec, hhdr, hutil, hport⟩ := exec_encoder_frame hi h
  exact ⟨hcfg, hdec, hhdr, hutil, hport, fun hne => exec_encoder_writes hi hne h⟩

end Sys2Proof.Machine
end

section
/-! Two states that agree on one unit's registers: that unit's operations leave it the same and answer the
same (10_state.md R20). -/

namespace Sys2Proof.Machine

variable {s s' : State}

/-! ### ENC -/

theorem State.takeFault_enc_congr (h : s.enc = s'.enc) (c : Cause) :
    (s.takeFault .enc c).enc = (s'.takeFault .enc c).enc ∧
      (s.takeFault .enc c).response = (s'.takeFault .enc c).response := by
  simp [State.takeFault_enc_enc, h]

theorem State.encStep_congr (h : s.enc = s'.enc) (f : Enc → Except Cause Enc) :
    (s.encStep f).enc = (s'.encStep f).enc ∧ (s.encStep f).response = (s'.encStep f).response := by
  unfold State.encStep
  rw [← h]
  split
  · split
    · exact ⟨rfl, rfl⟩
    · exact State.takeFault_enc_congr h _
  · exact State.takeFault_enc_congr h _

theorem State.encEnd_congr (h : s.enc = s'.enc) :
    s.encEnd.enc = s'.encEnd.enc ∧ s.encEnd.response = s'.encEnd.response := by
  obtain ⟨henc, hresponse⟩ := State.encStep_congr h Enc.finish
  unfold State.encEnd
  dsimp only
  rw [← henc]
  split
  · exact ⟨henc, rfl⟩
  · exact ⟨henc, hresponse⟩

/-! ### DEC -/

theorem State.takeFault_dec_congr (h : s.dec = s'.dec) (c : Cause) :
    (s.takeFault .dec c).dec = (s'.takeFault .dec c).dec ∧
      (s.takeFault .dec c).response = (s'.takeFault .dec c).response := by
  simp [State.takeFault_dec_dec, h]

theorem State.chunkStep_congr (h : s.dec = s'.dec) (cw : Bool) (px : Pixel) (n len : Nat) :
    (s.chunkStep cw px n len).dec = (s'.chunkStep cw px n len).dec ∧
      (s.chunkStep cw px n len).response = (s'.chunkStep cw px n len).response := by
  unfold State.chunkStep
  rw [← h]
  split
  · exact State.takeFault_dec_congr h _
  · split
    · exact State.takeFault_dec_congr h _
    · split
      · exact State.takeFault_dec_congr h _
      · exact ⟨rfl, rfl⟩

/-- The pixel of a chunk is a function of DEC's registers, so the chunk's checks and writes are too. -/
theorem execChunk_congr (h : s.dec = s'.dec) (c : Chunk) :
    (execChunk c s).dec = (execChunk c s').dec ∧ (execChunk c s).response = (execChunk c s').response := by
  cases c <;> simp only [execChunk, indexChunk, diffChunk, lumaChunk, runChunk, rgbChunk, rgbaChunk, ← h]
  all_goals exact State.chunkStep_congr h _ _ _ _

theorem State.decStart_congr (hcfg : s.cfg = s'.cfg) (h : s.dec = s'.dec) (bytes : Seq) (w n : Word) :
    (s.decStart bytes w n).dec = (s'.decStart bytes w n).dec ∧
      (s.decStart bytes w n).response = (s'.decStart bytes w n).response := by
  cases bytes with
  | none => exact State.takeFault_dec_congr h _
  | some bs => simp [State.decStart, hcfg]

theorem State.decStep_congr (h : s.dec = s'.dec) :
    s.decStep.dec = s'.decStep.dec ∧ s.decStep.response = s'.decStep.response := by
  unfold State.decStep
  rw [← h]
  split
  · exact State.takeFault_dec_congr h _
  · split
    · exact State.takeFault_dec_congr h _
    · exact execChunk_congr h _

theorem State.decFinish_congr (h : s.dec = s'.dec) :
    s.decFinish.dec = s'.decFinish.dec ∧ s.decFinish.response = s'.decFinish.response := by
  unfold State.decFinish
  rw [← h]
  split
  · exact State.takeFault_dec_congr h _
  · split
    · exact State.takeFault_dec_congr h _
    · exact ⟨rfl, rfl⟩

/-! ### Every instruction -/

theorem exec_encoder_congr {i : Instr} {t t' : State} (hi : i.isEncoder = true) (h : exec i s = .next t)
    (h' : exec i s' = .next t') (hcfg : s.cfg = s'.cfg) (henc : s.enc = s'.enc) :
    t.enc = t'.enc ∧ t.response = t'.response := by
  obtain rfl | rfl | ⟨f, hf⟩ := exec_encoder_cases hi
  · cases h; cases h'; exact ⟨congrArg Enc.start hcfg, rfl⟩
  · cases h; cases h'; exact State.encEnd_congr henc
  · rw [hf] at h h'; cases h; cases h'; exact State.encStep_congr henc f

theorem exec_decoder_congr {i : Instr} {t t' : State} (hi : i.isDecoder = true) (h : exec i s = .next t)
    (h' : exec i s' = .next t') (hcfg : s.cfg = s'.cfg) (hdec : s.dec = s'.dec) :
    t.dec = t'.dec ∧ t.response = t'.response := by
  obtain ⟨bytes, w, n, rfl⟩ | rfl | rfl | ⟨c, rfl⟩ := isDecoder_cases hi
  · cases h; cases h'; exact State.decStart_congr hcfg hdec bytes w n
  · cases h; cases h'; exact State.decStep_congr hdec
  · cases h; cases h'; exact State.decFinish_congr hdec
  · rw [exec_chunk] at h h'; cases h; cases h'; exact execChunk_congr hdec c

/-- Settles O17: every operation of a unit reads that unit's registers and the parameters alone. -/
theorem encoderAndDecoderShareNothing : Obligations.EncoderAndDecoderShareNothing := by
  intro i s s' t t' h h' hcfg
  refine ⟨fun hi henc => exec_encoder_congr hi h h' hcfg henc, fun hi hdec => ?_⟩
  obtain ⟨hd, hresponse⟩ := exec_decoder_congr hi h h' hcfg hdec
  obtain ⟨-, henc, -⟩ := exec_decoder_frame hi h
  exact ⟨hd, hresponse, henc⟩

end Sys2Proof.Machine
end

section
/-! When a step refuses the record at the head of the port for the length of a sequence it carries
(20_memory.md R67). -/

namespace Sys2Proof

/-- FILE.ENCODE is the only instruction with a pixel sequence. -/
theorem Instr.mem_pixelOperands {i : Instr} {ps : List Pixel} :
    some ps ∈ i.pixelOperands ↔
      ∃ w h channels colorspace, i = .fileEncode w h channels colorspace (some ps) := by
  constructor
  · intro hps
    cases i with
    | fileEncode w h channels colorspace pixels =>
      cases List.mem_singleton.1 hps
      exact ⟨w, h, channels, colorspace, rfl⟩
    | _ => cases hps
  · rintro ⟨w, h, channels, colorspace, rfl⟩
    exact List.mem_singleton_self _

/-- What it takes for an instruction not to fit: one sequence that is too long. -/
theorem Instr.not_operandsFit_iff {i : Instr} {n : Nat} : ¬i.OperandsFit n ↔
    (∃ bs, some bs ∈ i.byteOperands ∧ n < bs.length) ∨
      ∃ w h channels colorspace ps, i = .fileEncode w h channels colorspace (some ps) ∧ n < ps.length := by
  simp only [Instr.OperandsFit, not_and_or, not_forall, Nat.not_le, exists_prop]
  refine or_congr_right ⟨?_, ?_⟩
  · rintro ⟨ps, hps, hlen⟩
    obtain ⟨w, h, channels, colorspace, hi⟩ := Instr.mem_pixelOperands.1 hps
    exact ⟨w, h, channels, colorspace, ps, hi, hlen⟩
  · rintro ⟨w, h, channels, colorspace, ps, hi, hlen⟩
    exact ⟨ps, Instr.mem_pixelOperands.2 ⟨w, h, channels, colorspace, hi⟩, hlen⟩

namespace Machine

/-- The unassigned codes are all that `exec` refuses (60_exceptions.md R263). -/
theorem exec_refused {i : Instr} {s : State} {r : Refusal} (h : exec i s = .refused r) :
    ∃ code, r = .unassignedCommand code := by
  cases i with
  | unassigned code => cases h; exact ⟨code, rfl⟩
  | _ => cases h

/-- A refused outcome was refused by the command, or its results do not fit. -/
theorem carry_refused_cases {o : Host.Outcome State Fault Refusal} {r : Refusal} (h : carry o = .refused r) :
    o = .refused r ∨ r = .resultTooLong := by
  cases o with
  | next t =>
    rw [carry] at h
    split at h <;> cases h
    exact .inr rfl
  | fault => cases h
  | refused => cases h; exact .inl rfl

/-- Running a command never answers the refusal of an operand, which belongs to the port. -/
theorem carry_exec_ne_operandTooLong (i : Instr) (s : State) : carry (exec i s) ≠ .refused .operandTooLong := by
  intro h
  obtain hexec | hr := carry_refused_cases h
  · obtain ⟨code, hcode⟩ := exec_refused hexec
    cases hcode
  · cases hr

/-- A record is not fetched where a sequence of the command it decodes to does not fit. -/
theorem fetchCommand_of_not_fits {cfg : Config} {record : List Byte} {i : Instr}
    (hd : decodeRecord record = .ok i) (hf : ¬i.OperandsFit cfg.maxLen) :
    fetchCommand cfg record = .error .operandTooLong := by
  simp [fetchCommand, hd, mt (operandsWithin_iff _ _).1 hf]

/-- The step refuses a record as too long exactly where the command's sequences do not fit. -/
theorem step_operandTooLong_iff {s : State} {record : List Byte} {rest : List HostInput} {i : Instr}
    (hp : s.port = .command record :: rest) (hd : decodeRecord record = .ok i) :
    step s = .refused .operandTooLong ↔ ¬i.OperandsFit s.cfg.maxLen := by
  constructor
  · intro h hf
    rw [step_eq_carry_exec hp hd hf] at h
    exact carry_exec_ne_operandTooLong _ _ h
  · intro hf
    rw [step_record s record rest hp, fetchCommand_of_not_fits hd hf]

/-- Settles O8: the port's check is the only source of this refusal, and it asks whether every sequence fits. -/
theorem overlongOperandIsRefused : Obligations.OverlongOperandIsRefused :=
  fun _ _ _ _ hp hd => (step_operandTooLong_iff hp hd).trans Instr.not_operandsFit_iff

end Machine

end Sys2Proof
end

section
/-! Decoding the encoding of a well-formed instruction, space by space (30_encoding.md R81 to R95). -/

namespace Sys2Proof

/-! ### The operand readers that take a list -/

@[simp] theorem readIntList_append (xs : List Int) (rest : List Byte) (hn : countFits xs.length = true)
    (hx : xs.all intFits = true) : readList readInt (listBytes intBytes xs ++ rest) = .ok (xs, rest) :=
  readList_append _ _ _ _ (of_decide_eq_true hn) fun x hmem rest =>
    readInt_append x rest (List.all_eq_true.1 hx x hmem)

@[simp] theorem readOptPixels_append (ps : Option (List Pixel)) (rest : List Byte)
    (h : pixelsFit ps = true) :
    readOpt (readList readPixel) (optBytes (listBytes Pixel.flat) ps ++ rest) = .ok (ps, rest) := by
  refine readOpt_append _ _ _ _ fun qs hqs => ?_
  subst hqs
  exact readList_append _ _ _ _ (of_decide_eq_true h) fun p _ rest => readPixel_append p rest

/-- A decoder goes on with what its reader read. -/
@[simp] theorem ok_bind {ε α β : Type} (x : α) (f : α → Except ε β) : (Except.ok x >>= f) = f x := rfl

/-! ### The decoders of the spaces -/

/-- The chunk space (R81 to R86). -/
theorem decode_chunk_bytes (c : Chunk) (rest : List Byte) (h : c.toInstr.wellFormed = true) :
    decode .chunk (c.bytes ++ rest) = .ok (c.toInstr, rest) := by
  simp only [decode, decodeChunk_bytes c rest h]

/-- The HEADER record (R87). -/
theorem decodeHeader_headerBytes (magic : Vector Byte 4) (width height : Word)
    (channels colorspace : Byte) (rest : List Byte) :
    decodeHeader (headerBytes magic width height channels colorspace ++ rest) =
      .ok (.header magic width height channels colorspace, rest) := by
  have hfields : decodeHeader (headerBytes magic width height channels colorspace ++ rest) =
      .ok (.header magic (toUint32BE (fromUint32BE width)) (toUint32BE (fromUint32BE height))
        channels colorspace, rest) :=
    match magic with
    | ⟨⟨[_, _, _, _]⟩, _⟩ => rfl
  rw [hfields, toUint32BE_fromUint32BE, toUint32BE_fromUint32BE]

/-- The END_MARKER record (R88). -/
theorem decodeEndMarker_toList (bytes : Vector Byte 8) (rest : List Byte) :
    decodeEndMarker (bytes.toList ++ rest) = .ok (.endMarker bytes, rest) :=
  match bytes with
  | ⟨⟨[_, _, _, _, _, _, _, _]⟩, _⟩ => rfl

/-- The action space: a label, then a chunk or a pixel (log entry 11). -/
theorem decodeAction_encode (i : Instr) (rest : List Byte) (hs : i.space = .action)
    (h : i.wellFormed = true) : decodeAction (encode i ++ rest) = .ok (i, rest) := by
  cases i with
  | runExtend | runFlushFull | runFlushPending | finalFlush | cacheUpdate | prevAdvance | emitRgb
  | emitRgba => rfl
  | emitIndex slot =>
    have hc : decodeChunk (indexBytes slot ++ rest) = .ok (.index slot, rest) :=
      decodeChunk_bytes (.index slot) rest rfl
    simp [encode, decodeAction, hc]
  | emitDiff dr dg db =>
    have hc : decodeChunk (diffBytes dr dg db ++ rest) = .ok (.diff dr dg db, rest) :=
      decodeChunk_bytes (.diff dr dg db) rest h
    simp [encode, decodeAction, hc]
  | emitLuma dr dg db =>
    have hc : decodeChunk (lumaBytes dg (dr - dg) (db - dg) ++ rest) = .ok (.luma dg (dr - dg) (db - dg), rest) :=
      decodeChunk_bytes (.luma dg (dr - dg) (db - dg)) rest h
    simp [encode, decodeAction, hc]
  | _ => cases hs

/-- The command space: a code of R95, then the operand records in their order (log entry 3). -/
theorem decodeCommand_encode (i : Instr) (rest : List Byte) (hs : i.space = .command)
    (h : i.wellFormed = true) : decodeCommand (encode i ++ rest) = .ok (i, rest) := by
  cases i with
  | encStart | encEnd | decStep | decFinish | hdrBuild | hash | encPixel | encIndex | encDiff | encLuma
  | encRun => rfl
  | utilBe32Pack | encRgb | encRgba | decDiff => simp [encode, decodeCommand]
  | utilBe32Unpack | utilConcat | decRgb | decRgba | decLuma | decStart | hdrParse | fileEncode
  | fileDecode =>
    rw [Instr.wellFormed] at h
    simp [encode, decodeCommand, h]
  | utilEq a b =>
    obtain ⟨ha, hb⟩ := (Bool.and_eq_true _ _).mp h
    simp [encode, decodeCommand, ha, hb]
  | utilExtract input start length =>
    simp only [Instr.wellFormed, Bool.and_eq_true] at h
    obtain ⟨⟨hinput, hstart⟩, hlength⟩ := h
    simp [encode, decodeCommand, hinput, readInt_append, hstart, hlength]
  | utilPartition input sizes =>
    simp only [Instr.wellFormed, Bool.and_eq_true] at h
    obtain ⟨⟨hinput, hcount⟩, hsizes⟩ := h
    simp [encode, decodeCommand, hinput, hcount, hsizes]
  | decRun prev b pos =>
    simp [encode, decodeCommand, readNat_append _ _ (of_decide_eq_true h)]
  | unassigned code =>
    have hcode : ∀ c : BitVec 2, c = 0 ∨ c = 1 ∨ c = 2 ∨ c = 3 := by decide
    obtain rfl | rfl | rfl | rfl := hcode code <;> rfl
  | _ => cases hs

/-- Settles O1: the ten words run through the decoders. -/
theorem specWordsDecode : Obligations.SpecWordsDecode :=
  ⟨rfl, rfl, rfl, rfl, rfl, rfl, rfl, rfl, rfl, rfl⟩

/-- Settles O2: each space's decoder reads back what the encoder writes in that space. -/
theorem decodeInvertsEncode : Obligations.DecodeInvertsEncode := by
  intro i rest h
  cases hs : i.space with
  | chunk =>
    cases i with
    | index slot => exact decode_chunk_bytes (.index slot) rest h
    | diff dr dg db => exact decode_chunk_bytes (.diff dr dg db) rest h
    | luma dg drDg dbDg => exact decode_chunk_bytes (.luma dg drDg dbDg) rest h
    | run length => exact decode_chunk_bytes (.run length) rest h
    | rgb r g b => exact decode_chunk_bytes (.rgb r g b) rest h
    | rgba r g b a => exact decode_chunk_bytes (.rgba r g b a) rest h
    | _ => cases hs
  | fileHead =>
    cases i with
    | header => exact decodeHeader_headerBytes ..
    | _ => cases hs
  | fileTail =>
    cases i with
    | endMarker => exact decodeEndMarker_toList ..
    | _ => cases hs
  | action => exact decodeAction_encode i rest hs h
  | command => exact decodeCommand_encode i rest hs h

end Sys2Proof
end

section
/-! What the lead byte of a chunk settles: its type, its length and its pixels (30_encoding.md R89). -/

namespace Sys2Proof

/-- The lead bytes: below `0xFE` the 2-bit tags, then the two 8-bit tags. -/
theorem lead_cases (b : Byte) : (∃ n < 254, b = BitVec.ofNat 8 n) ∨ b = 0xFE ∨ b = 0xFF := by
  by_cases h : b.toNat < 254
  · exact .inl ⟨b.toNat, h, by simp⟩
  · exact .inr (by bv_omega)

/-- The ranges of the four 2-bit tags. -/
theorem tag_cases {n : Nat} (h : n < 254) :
    n < 64 ∨ (64 ≤ n ∧ n < 128) ∨ (128 ≤ n ∧ n < 192) ∨ (192 ≤ n ∧ n < 254) := by omega

/-! ### The chunk formats, from their fields back to their bytes -/

theorem indexBytes_ofNat {n : Nat} (h : n < 64) : indexBytes (BitVec.ofNat 6 n) = [BitVec.ofNat 8 n] := by
  simp [indexBytes, Nat.mod_eq_of_lt h]

theorem diffBytes_fields {n : Nat} (h : 64 ≤ n) (h' : n < 128) :
    diffBytes ((n / 16 % 4 : Nat) - 2) ((n / 4 % 4 : Nat) - 2) ((n % 4 : Nat) - 2) = [BitVec.ofNat 8 n] := by
  rw [diffBytes]
  congr 2
  omega

theorem lumaBytes_fields {n : Nat} (c : Byte) (h : 128 ≤ n) :
    lumaBytes ((n : Int) - 160) ((c.toNat / 16 : Nat) - 8) ((c.toNat % 16 : Nat) - 8) =
      [BitVec.ofNat 8 n, c] := by
  have hlead : 0x80 + ((n : Int) - 160 + 32).toNat = n := by omega
  have hlow : 16 * (((c.toNat / 16 : Nat) : Int) - 8 + 8).toNat +
      (((c.toNat % 16 : Nat) : Int) - 8 + 8).toNat = c.toNat := by omega
  rw [lumaBytes, hlead, hlow, BitVec.ofNat_toNat, BitVec.setWidth_eq]

theorem runBytes_sub {n : Nat} (h : 192 ≤ n) : runBytes (n - 191) = [BitVec.ofNat 8 n] := by
  rw [runBytes, show 0xC0 + (n - 191 - 1) = n by omega]

/-! ### The chunk a lead byte selects -/

/-- Where the lead byte's length of bytes is there, these bytes are one well-formed chunk's, whose pixels
the lead byte gives. -/
theorem exists_chunk_append (b : Byte) (rest : List Byte) (h : chunkLength b ≤ rest.length + 1) :
    ∃ (c : Chunk) (tail : List Byte), b :: rest = c.bytes ++ tail ∧ c.toInstr.wellFormed = true ∧
      c.size = chunkLength b ∧ c.pixels = chunkPixels b := by
  obtain ⟨n, hn, rfl⟩ | rfl | rfl := lead_cases b
  · rw [chunkLength_tagged n hn] at h ⊢
    rw [chunkPixels_tagged n hn]
    obtain h6 | ⟨h6, h7⟩ | ⟨h7, h8⟩ | ⟨h8, -⟩ := tag_cases hn
    · rw [if_neg (by omega), if_neg (by omega)]
      refine ⟨.index (BitVec.ofNat 6 n), rest, ?_, rfl, rfl, rfl⟩
      rw [Chunk.bytes, indexBytes_ofNat h6, List.singleton_append]
    · rw [if_neg (by omega), if_neg (by omega)]
      refine ⟨.diff ((n / 16 % 4 : Nat) - 2) ((n / 4 % 4 : Nat) - 2) ((n % 4 : Nat) - 2), rest, ?_, ?_,
        rfl, rfl⟩
      · rw [Chunk.bytes, diffBytes_fields h6 h7, List.singleton_append]
      · simp only [Chunk.toInstr, Instr.wellFormed, diffRange, inRange, Bool.and_eq_true, decide_eq_true_eq]
        omega
    · rw [if_pos ⟨h7, h8⟩] at h ⊢
      rw [if_neg (by omega)]
      obtain ⟨c, tail, rfl⟩ := List.exists_cons_of_length_pos (Nat.le_of_succ_le_succ h)
      have hc := c.isLt
      refine ⟨.luma ((n : Int) - 160) ((c.toNat / 16 : Nat) - 8) ((c.toNat % 16 : Nat) - 8), tail, ?_, ?_,
        rfl, rfl⟩
      · rw [Chunk.bytes, lumaBytes_fields c h7, List.cons_append, List.singleton_append]
      · simp only [Chunk.toInstr, Instr.wellFormed, lumaRange, inRange, Bool.and_eq_true, decide_eq_true_eq]
        omega
    · rw [if_neg (by omega), if_pos h8]
      refine ⟨.run (n - 191), rest, ?_, ?_, rfl, rfl⟩
      · rw [Chunk.bytes, runBytes_sub h8, List.singleton_append]
      · simp only [Chunk.toInstr, Instr.wellFormed, Bool.and_eq_true, decide_eq_true_eq]
        omega
  · match rest, h with
    | r :: g :: bl :: tail, _ => exact ⟨.rgb r g bl, tail, rfl, rfl, rfl, rfl⟩
  · match rest, h with
    | r :: g :: bl :: a :: tail, _ => exact ⟨.rgba r g bl a, tail, rfl, rfl, rfl, rfl⟩

/-- With fewer bytes than the lead byte asks for, no chunk is read. -/
theorem decodeChunk_truncated (b : Byte) (rest : List Byte) (h : rest.length + 1 < chunkLength b) :
    decodeChunk (b :: rest) = .error .truncated := by
  obtain ⟨n, hn, rfl⟩ | rfl | rfl := lead_cases b
  · rw [chunkLength_tagged n hn] at h
    split at h
    next h7 =>
      obtain rfl := List.eq_nil_of_length_eq_zero (show rest.length = 0 by omega)
      exact decodeChunk_luma_truncated n h7.1 h7.2
    next => omega
  · match rest, h with
    | [], _ | [_], _ | [_, _], _ => rfl
  · match rest, h with
    | [], _ | [_], _ | [_, _], _ | [_, _, _], _ => rfl

/-- The chunk read is well-formed, and its own bytes are the ones read. -/
theorem decodeChunk_complete (b : Byte) (rest : List Byte) (h : chunkLength b ≤ rest.length + 1) :
    ∃ c, decodeChunk (b :: rest) = .ok (c, (b :: rest).drop (chunkLength b)) ∧
      c.toInstr.wellFormed = true ∧ c.bytes = (b :: rest).take (chunkLength b) ∧
      c.size = chunkLength b ∧ c.pixels = chunkPixels b := by
  obtain ⟨c, tail, hbytes, hwf, hsize, hpix⟩ := exists_chunk_append b rest h
  have hlen : c.bytes.length = chunkLength b := c.bytes_length.trans hsize
  refine ⟨c, ?_, hwf, ?_, hsize, hpix⟩
  · rw [hbytes, ← hlen, List.drop_left, decodeChunk_bytes c tail hwf]
  · rw [hbytes, ← hlen, List.take_left]

/-! ### The table of R89, one theorem for each range of lead bytes -/

section
variable {b : Byte} {rest tail : List Byte} {c : Chunk}

/-- The lemmas on lead bytes write a byte as the number it holds. -/
theorem ofNat8_toNat (b : Byte) : BitVec.ofNat 8 b.toNat = b := by simp

theorem chunkLength_of_lt (h : b.toNat < 254) :
    chunkLength b = if 128 ≤ b.toNat ∧ b.toNat < 192 then 2 else 1 := by
  simpa using chunkLength_tagged b.toNat h

theorem chunkPixels_of_lt (h : b.toNat < 254) :
    chunkPixels b = if 192 ≤ b.toNat then b.toNat - 191 else 1 := by
  simpa using chunkPixels_tagged b.toNat h

/-- The low six bits of a byte. -/
theorem toNat_and_0x3F (b : Byte) : (b &&& 0x3F).toNat = b.toNat % 64 :=
  Nat.and_two_pow_sub_one_eq_mod b.toNat 6

theorem index_of_lead (hd : decodeChunk (b :: rest) = .ok (c, tail)) (h : b.toNat ≤ 0x3F) :
    (∃ slot, c = .index slot) ∧ chunkLength b = 1 ∧ chunkPixels b = 1 := by
  rw [chunkLength_of_lt (by omega), chunkPixels_of_lt (by omega), if_neg (by omega), if_neg (by omega)]
  rw [← ofNat8_toNat b, decodeChunk_index _ _ (by omega)] at hd
  cases hd
  exact ⟨⟨_, rfl⟩, rfl, rfl⟩

theorem diff_of_lead (hd : decodeChunk (b :: rest) = .ok (c, tail)) (h : 0x40 ≤ b.toNat)
    (h' : b.toNat ≤ 0x7F) :
    (∃ dr dg db, c = .diff dr dg db) ∧ chunkLength b = 1 ∧ chunkPixels b = 1 := by
  rw [chunkLength_of_lt (by omega), chunkPixels_of_lt (by omega), if_neg (by omega), if_neg (by omega)]
  rw [← ofNat8_toNat b, decodeChunk_diff _ _ (by omega) (by omega)] at hd
  cases hd
  exact ⟨⟨_, _, _, rfl⟩, rfl, rfl⟩

theorem luma_of_lead (hd : decodeChunk (b :: rest) = .ok (c, tail)) (h : 0x80 ≤ b.toNat)
    (h' : b.toNat ≤ 0xBF) :
    (∃ dg drDg dbDg, c = .luma dg drDg dbDg) ∧ chunkLength b = 2 ∧ chunkPixels b = 1 := by
  rw [chunkLength_of_lt (by omega), chunkPixels_of_lt (by omega), if_pos (by omega), if_neg (by omega)]
  rw [← ofNat8_toNat b] at hd
  cases rest with
  | nil => rw [decodeChunk_luma_truncated _ (by omega) (by omega)] at hd; cases hd
  | cons c1 rest =>
    rw [decodeChunk_luma _ _ _ (by omega) (by omega)] at hd
    cases hd
    exact ⟨⟨_, _, _, rfl⟩, rfl, rfl⟩

theorem run_of_lead (hd : decodeChunk (b :: rest) = .ok (c, tail)) (h : 0xC0 ≤ b.toNat)
    (h' : b.toNat ≤ 0xFD) :
    c = .run ((b &&& 0x3F).toNat + 1) ∧ chunkLength b = 1 ∧ chunkPixels b = (b &&& 0x3F).toNat + 1 := by
  have hlow : (b &&& 0x3F).toNat + 1 = b.toNat - 191 := by rw [toNat_and_0x3F]; omega
  rw [chunkLength_of_lt (by omega), chunkPixels_of_lt (by omega), if_neg (by omega), if_pos (by omega), hlow]
  rw [← ofNat8_toNat b, decodeChunk_run _ _ (by omega) (by omega)] at hd
  cases hd
  exact ⟨rfl, rfl, rfl⟩

theorem rgb_of_lead (hd : decodeChunk (b :: rest) = .ok (c, tail)) (h : b = 0xFE) :
    (∃ r g bl, c = .rgb r g bl) ∧ chunkLength b = 4 ∧ chunkPixels b = 1 := by
  subst h
  simp only [decodeChunk, reduceIte] at hd
  split at hd <;> cases hd
  exact ⟨⟨_, _, _, rfl⟩, rfl, rfl⟩

theorem rgba_of_lead (hd : decodeChunk (b :: rest) = .ok (c, tail)) (h : b = 0xFF) :
    (∃ r g bl a, c = .rgba r g bl a) ∧ chunkLength b = 5 ∧ chunkPixels b = 1 := by
  subst h
  simp only [decodeChunk, show (0xFF : Byte) ≠ 0xFE by decide, reduceIte] at hd
  split at hd <;> cases hd
  exact ⟨⟨_, _, _, _, rfl⟩, rfl, rfl⟩

end

/-- Settles O3: the chunk whose bytes are the ones at hand is read, and the range its lead byte lies in says
which it is. -/
theorem leadByteSelectsOneChunk : Obligations.LeadByteSelectsOneChunk := by
  intro b rest
  refine ⟨decodeChunk_truncated b rest, fun h => ?_⟩
  obtain ⟨c, hd, hwf, hbytes, hsize, hpix⟩ := decodeChunk_complete b rest h
  exact ⟨c, hd, hwf, hbytes, hsize, hpix, index_of_lead hd, diff_of_lead hd, luma_of_lead hd,
    run_of_lead hd, rgb_of_lead hd, rgba_of_lead hd⟩

end Sys2Proof
end

section
/-! The two file records as instructions (30_encoding.md R87, R88; 45_framing.md R231, R234). -/

namespace Sys2Proof.Machine

/-- HDR.PARSE of 14 bytes taken apart into their fields: the length is right, so the checks left are magic,
channels and color space, in that order (R231). -/
theorem parseHeader_append (cfg : Config) {m w h : List Byte} (channels colorspace : Byte)
    (hm : m.length = 4) (hw : w.length = 4) (hh : h.length = 4) :
    parseHeader cfg (some (m ++ w ++ h ++ [channels] ++ [colorspace])) =
      if m ≠ cfg.magic.toList then .error .badMagic
      else if channels ≠ 3 ∧ channels ≠ 4 then .error .badChannels
      else if colorspace ≠ 0 ∧ colorspace ≠ 1 then .error .badColorspace
      else .ok ⟨toUint32BE w, toUint32BE h, channels, colorspace⟩ := by
  have hm8 : m.drop 8 = [] := List.drop_eq_nil_of_le (by omega)
  simp [parseHeader, List.drop_append, hm, hw, hh, hm8]

/-- HDR.PARSE of a HEADER record (R87). -/
theorem parseHeader_headerBytes (cfg : Config) (m : Vector Byte 4) (w h : Word) (channels colorspace : Byte) :
    parseHeader cfg (some (headerBytes m w h channels colorspace)) =
      if m ≠ cfg.magic then .error .badMagic
      else if channels ≠ 3 ∧ channels ≠ 4 then .error .badChannels
      else if colorspace ≠ 0 ∧ colorspace ≠ 1 then .error .badColorspace
      else .ok ⟨w, h, channels, colorspace⟩ := by
  rw [headerBytes, parseHeader_append cfg channels colorspace m.length_toList (fromUint32BE_length w)
    (fromUint32BE_length h)]
  simp only [ne_eq, Vector.toList_inj, toUint32BE_fromUint32BE]

/-- The end marker's check of a record (R234). -/
theorem checkEndMarker_toList (cfg : Config) (e : Vector Byte 8) :
    checkEndMarker cfg e.toList = if e = cfg.endMarker then .ok () else .error .badEndMarker := by
  simp only [checkEndMarker, Vector.toList_inj]

/-- Where the header parses, its fields are in the header registers and in the response. -/
theorem State.hdrParse_ok {s : State} {bs : Seq} {hd : Hdr} (h : parseHeader s.cfg bs = .ok hd) :
    s.hdrParse bs = { s with hdr := hd, response := .header hd } := by
  rw [State.hdrParse, h]
  rfl

/-- Where the header does not parse, the fault is in `util.cause` (log entry 7). -/
theorem State.hdrParse_error {s : State} {bs : Seq} {c : Cause} (h : parseHeader s.cfg bs = .error c) :
    s.hdrParse bs = utilFault s c := by
  rw [State.hdrParse, h]
  rfl

/-- A HEADER record does what HDR.PARSE of its bytes does (log entry 13). -/
theorem exec_header (m : Vector Byte 4) (w h : Word) (channels colorspace : Byte) (s : State) :
    exec (.header m w h channels colorspace) s =
      .next (s.hdrParse (some (headerBytes m w h channels colorspace))) := rfl

/-- An END_MARKER record passes where it equals the parameter, and faults anywhere else. -/
theorem exec_endMarker (e : Vector Byte 8) (s : State) :
    exec (.endMarker e) s = .next
      (if e = s.cfg.endMarker then { s with response := .done } else utilFault s .badEndMarker) := by
  rw [exec, execEndMarker, checkEndMarker_toList]
  split <;> rfl

/-- Settles O55: a HEADER record is parsed as its 14 bytes are, and an END_MARKER record is compared. -/
theorem fileRecordsResult : Obligations.FileRecordsResult := by
  intro s m w h channels colorspace e
  simp only [exec_header]
  refine ⟨fun hch hcs => congrArg _ (State.hdrParse_ok ?_), fun hm => congrArg _ (State.hdrParse_error ?_),
    fun h3 h4 => congrArg _ (State.hdrParse_error ?_), fun hch h0 h1 => congrArg _ (State.hdrParse_error ?_),
    ?_, fun he => ?_⟩
  · rw [parseHeader_headerBytes, if_neg (not_not.2 rfl), if_neg (by tauto), if_neg (by tauto)]
  · rw [parseHeader_headerBytes, if_pos hm]
  · rw [parseHeader_headerBytes, if_neg (not_not.2 rfl), if_pos ⟨h3, h4⟩]
  · rw [parseHeader_headerBytes, if_neg (not_not.2 rfl), if_neg (by tauto), if_pos ⟨h0, h1⟩]
  · rw [exec_endMarker, if_pos rfl]
  · rw [exec_endMarker, if_neg he]

end Sys2Proof.Machine
end

section
/-! The stateless commands: one answer that the operands decide, and that of each command of UTIL
(40_byte_utilities.md). -/

namespace Sys2Proof.Machine

/-! ### What a stateless command leaves (R117) -/

/-- A fault of a stateless command is the fault entry of `util.cause`. -/
theorem State.answer_error_eq_utilFault (s : State) (c : Cause) : s.answer (.error c) = utilFault s c := rfl

/-- A command of UTIL, HASH or CODEC answers with one result or fault, whatever the state. -/
theorem exec_pure_eq_answer {i : Instr} (hi : i.isPure = true) :
    ∃ r, ∀ s, exec i s = .next (s.answer r) := by
  cases i with
  | utilEq | utilBe32Unpack | utilBe32Pack | utilConcat | utilExtract | utilPartition | hash | encRgb
  | encRgba | encIndex | encDiff | encLuma | encRun | decRgb | decRgba | decDiff | decLuma | decRun =>
    exact ⟨_, fun _ => rfl⟩
  | _ => cases hi

/-- Settles O14: the answer is fixed before the state is, and an answer writes the response and, for a
fault, `util.cause`. -/
theorem pureCommandsDependOnOperandsAlone : Obligations.PureCommandsDependOnOperandsAlone := by
  intro i hi
  obtain ⟨r, hr⟩ := exec_pure_eq_answer hi
  refine ⟨r, fun s => ?_⟩
  rw [hr]
  cases r with
  | ok r => rfl
  | error c => rw [State.answer_error_eq_utilFault]

section
variable {α : Type} {i : Instr} {s : State} {r : Except Cause α} {f : α → Response}

/-- A stateless command whose function succeeds answers the value and leaves the rest of the state. -/
theorem exec_of_answer_ok {x : α} (hi : exec i s = .next (s.answer (r.map f))) (hr : r = .ok x) :
    exec i s = .next { s with response := f x } := by
  rw [hi, hr]
  rfl

/-- A stateless command whose function fails takes the fault. -/
theorem exec_of_answer_error {c : Cause} (hi : exec i s = .next (s.answer (r.map f))) (hr : r = .error c) :
    exec i s = .next (utilFault s c) := by
  rw [hi, hr]
  rfl

end

/-! ### Each command of UTIL answers with its function -/

theorem exec_utilEq (a b : Seq) (s : State) :
    exec (.utilEq a b) s = .next (s.answer ((bytesEqual a b).map .bool)) := rfl

theorem exec_utilBe32Unpack (bs : Seq) (s : State) :
    exec (.utilBe32Unpack bs) s = .next (s.answer ((be32Unpack bs).map .word)) := rfl

theorem exec_utilBe32Pack (x : Word) (s : State) :
    exec (.utilBe32Pack x) s = .next { s with response := .bytes (fromUint32BE x) } := rfl

theorem exec_utilConcat (args : ConcatArgs) (s : State) :
    exec (.utilConcat args) s = .next (s.answer ((concat args).map .bytes)) := rfl

theorem exec_utilExtract (input : Seq) (start length : Int) (s : State) :
    exec (.utilExtract input start length) s =
      .next (s.answer ((extract input start length).map .bytes)) := rfl

theorem exec_utilPartition (input : Seq) (sizes : List Int) (s : State) :
    exec (.utilPartition input sizes) s = .next (s.answer ((partition input sizes).map .pieces)) := rfl

/-! ### UTIL.EQ (R110) -/

theorem bytesEqual_of_length_eq {a b : List Byte} (h : a.length = b.length) :
    bytesEqual (some a) (some b) = .ok (decide (a = b)) := if_pos h

theorem bytesEqual_of_length_ne {a b : List Byte} (h : a.length ≠ b.length) :
    bytesEqual (some a) (some b) = .error .lenMismatch := if_neg h

theorem bytesEqual_none_left (x : Seq) : bytesEqual none x = .error .nullOperand := rfl

theorem bytesEqual_none_right (x : Seq) : bytesEqual x none = .error .nullOperand := by
  cases x <;> rfl

/-- Settles O40: sequences of one length are equal exactly when they agree at every index. -/
theorem bytesEqualResult : Obligations.BytesEqualResult := by
  intro s a b x
  have hexec := fun a b => exec_utilEq a b s
  refine ⟨fun h => ⟨_, exec_of_answer_ok (hexec _ _) (bytesEqual_of_length_eq h), ?_⟩,
    fun h => exec_of_answer_error (hexec _ _) (bytesEqual_of_length_ne h),
    exec_of_answer_error (hexec _ _) (bytesEqual_none_left x),
    exec_of_answer_error (hexec _ _) (bytesEqual_none_right x)⟩
  rw [decide_eq_true_iff, List.ext_getElem?_iff', ← h, Nat.max_self]

/-! ### UTIL.BE32_UNPACK and UTIL.BE32_PACK (R111, R112, R113) -/

theorem be32Unpack_of_length {bs : List Byte} (h : bs.length = 4) :
    be32Unpack (some bs) = .ok (toUint32BE bs) := if_pos h

theorem be32Unpack_of_length_ne {bs : List Byte} (h : bs.length ≠ 4) :
    be32Unpack (some bs) = .error .badLength := if_neg h

theorem exec_utilBe32Unpack_of_length {bs : List Byte} (h : bs.length = 4) (s : State) :
    exec (.utilBe32Unpack (some bs)) s = .next { s with response := .word (toUint32BE bs) } :=
  exec_of_answer_ok (exec_utilBe32Unpack _ s) (be32Unpack_of_length h)

/-- The weighted sum of the four bytes' unsigned values. -/
theorem toUint32BE_four (b0 b1 b2 b3 : Byte) : toUint32BE [b0, b1, b2, b3] =
    BitVec.ofNat 32 (b0.toNat * 2 ^ 24 + b1.toNat * 2 ^ 16 + b2.toNat * 2 ^ 8 + b3.toNat) := by
  simp [toUint32BE, beNat_cons, Nat.add_assoc]

/-- The byte of a 32-bit pattern that starts at bit `n`, as a quotient and as a masked shift. -/
theorem ofNat8_div_two_pow (x : Word) (n : Nat) :
    BitVec.ofNat 8 (x.toNat / 2 ^ n) = ((x >>> n) &&& 0xFF).setWidth 8 := by
  have hmask (m : Nat) : m &&& 255 = m % 256 := Nat.and_two_pow_sub_one_eq_mod m 8
  apply BitVec.eq_of_toNat_eq
  simp [hmask, Nat.shiftRight_eq_div_pow]

/-- The four bytes, the most significant first. -/
theorem fromUint32BE_eq_shifts (x : Word) : fromUint32BE x =
    [((x >>> 24) &&& 0xFF).setWidth 8, ((x >>> 16) &&& 0xFF).setWidth 8,
      ((x >>> 8) &&& 0xFF).setWidth 8, (x &&& 0xFF).setWidth 8] := by
  rw [← ofNat8_div_two_pow, ← ofNat8_div_two_pow, ← ofNat8_div_two_pow, ← BitVec.ushiftRight_zero x,
    ← ofNat8_div_two_pow]
  rfl

/-- Settles O41: the bytes weigh 2^24, 2^16, 2^8 and 1, and packing shifts them out. -/
theorem be32Result : Obligations.Be32Result := by
  intro s b0 b1 b2 b3 bs x
  refine ⟨?_, fun h => exec_of_answer_error (exec_utilBe32Unpack _ s) (be32Unpack_of_length_ne h),
    exec_of_answer_error (exec_utilBe32Unpack none s) rfl, ?_⟩
  · rw [exec_utilBe32Unpack_of_length rfl, toUint32BE_four]
  · rw [exec_utilBe32Pack, fromUint32BE_eq_shifts]

/-- Settles O42: the two conversions are inverse on four bytes. -/
theorem be32RoundTrip : Obligations.Be32RoundTrip := by
  intro s
  constructor
  · intro x
    refine ⟨_, exec_utilBe32Pack x s, ?_⟩
    rw [exec_utilBe32Unpack_of_length (fromUint32BE_length x), toUint32BE_fromUint32BE]
  · intro bs h
    refine ⟨_, exec_utilBe32Unpack_of_length h s, ?_⟩
    rw [exec_utilBe32Pack, fromUint32BE_toUint32BE bs h]

/-! ### UTIL.CONCAT (R114, R118) -/

theorem presentAll_map_some (ss : List (List Byte)) : presentAll (ss.map some) = .ok ss := by
  induction ss with
  | nil => rfl
  | cons s ss ih => rw [List.map_cons, presentAll, ih]

theorem presentAll_of_none_mem {xs : List Seq} (h : none ∈ xs) : presentAll xs = .error .nullOperand := by
  induction xs with
  | nil => cases h
  | cons x xs ih =>
    cases x with
    | none => rfl
    | some s => rw [presentAll, ih (by simpa using h)]

theorem concat_map_some (ss : List (List Byte)) : concat (.seqs (ss.map some)) = .ok ss.flatten := by
  rw [concat, presentAll_map_some]

theorem concat_of_none_mem {xs : List Seq} (h : none ∈ xs) : concat (.seqs xs) = .error .nullOperand := by
  rw [concat, presentAll_of_none_mem h]

/-- Settles O43: the elements are taken in order, unless one is absent. -/
theorem concatResult : Obligations.ConcatResult := fun s bs ss _ =>
  ⟨exec_of_answer_ok (exec_utilConcat (.bytes bs) s) rfl,
    exec_of_answer_ok (exec_utilConcat _ s) (concat_map_some ss),
    fun h => exec_of_answer_error (exec_utilConcat _ s) (concat_of_none_mem h)⟩

/-! ### UTIL.EXTRACT (R115) -/

section
variable {input : List Byte} {start length : Int}

theorem extract_of_within (hs : 0 ≤ start) (hl : 0 ≤ length) (h : start + length ≤ input.length) :
    extract (some input) start length = .ok ((input.drop start.toNat).take length.toNat) :=
  if_pos ⟨hs, hl, h⟩

theorem extract_of_outside (h : start < 0 ∨ length < 0 ∨ (input.length : Int) < start + length) :
    extract (some input) start length = .error .sliceRange :=
  if_neg (by omega)

end

/-- Settles O44: what is dropped and what is taken, index by index. -/
theorem extractResult : Obligations.ExtractResult := by
  intro s input start length
  have hexec := fun input => exec_utilExtract input start length s
  refine ⟨fun hs hl h =>
      ⟨_, exec_of_answer_ok (hexec _) (extract_of_within hs hl h), ?_, fun k hk => ?_⟩,
    fun h => exec_of_answer_error (hexec _) (extract_of_outside h),
    exec_of_answer_error (hexec none) rfl⟩
  · rw [List.length_take, List.length_drop]
    omega
  · rw [List.getElem?_take_of_lt (hk.trans_le (List.length_take_le _ _)), List.getElem?_drop]

/-! ### UTIL.PARTITION (R116) -/

/-- Pieces whose sizes do not exceed the input have these sizes. -/
theorem splitSizes_map_length {ns : List Nat} {bs : List Byte} (h : ns.sum ≤ bs.length) :
    (splitSizes ns bs).map List.length = ns := by
  induction ns generalizing bs with
  | nil => rfl
  | cons n ns ih =>
    rw [List.sum_cons] at h
    rw [splitSizes, List.map_cons, ih (by rw [List.length_drop]; omega),
      List.length_take_of_le (by omega)]

/-- Consecutive pieces concatenate to the input's first bytes. -/
theorem splitSizes_flatten (ns : List Nat) (bs : List Byte) :
    (splitSizes ns bs).flatten = bs.take ns.sum := by
  induction ns generalizing bs with
  | nil => rfl
  | cons n ns ih => rw [splitSizes, List.flatten_cons, ih, List.sum_cons, List.take_add]

section
variable {input : List Byte} {sizes : List Int}

theorem partition_of_neg (h : ∃ n ∈ sizes, n < 0) : partition (some input) sizes = .error .sliceRange :=
  if_pos (by simpa using h)

theorem partition_of_sum_ne (h : ∀ n ∈ sizes, 0 ≤ n) (hsum : sizes.sum ≠ (input.length : Int)) :
    partition (some input) sizes = .error .partitionSum :=
  (if_neg (by simpa using h)).trans (if_neg hsum)

theorem partition_of_sum (h : ∀ n ∈ sizes, 0 ≤ n) (hsum : sizes.sum = (input.length : Int)) :
    partition (some input) sizes = .ok (splitSizes (sizes.map Int.toNat) input) :=
  (if_neg (by simpa using h)).trans (if_pos hsum)

/-- The natural sizes the pieces are cut by. -/
theorem exists_nat_sizes (h : ∀ n ∈ sizes, 0 ≤ n) (hsum : sizes.sum = (input.length : Int)) :
    ∃ ns : List Nat, sizes = ns.map Nat.cast ∧ sizes.map Int.toNat = ns ∧ ns.sum = input.length := by
  lift sizes to List Nat using h
  rw [← Nat.cast_list_sum, Nat.cast_inj] at hsum
  exact ⟨sizes, rfl, by simp [Function.comp_def], hsum⟩

end

/-- Settles O45: on sizes that are natural numbers, cutting off one piece after another gives pieces of
these sizes, and of the whole input where the sizes add up. -/
theorem partitionResult : Obligations.PartitionResult := by
  intro s input sizes
  have hexec := fun input => exec_utilPartition input sizes s
  refine ⟨fun h hsum => ⟨_, exec_of_answer_ok (hexec _) (partition_of_sum h hsum), ?_⟩,
    fun h => exec_of_answer_error (hexec _) (partition_of_neg h),
    fun h hsum => exec_of_answer_error (hexec _) (partition_of_sum_ne h hsum),
    exec_of_answer_error (hexec none) rfl⟩
  obtain ⟨ns, rfl, htoNat, hns⟩ := exists_nat_sizes h hsum
  rw [htoNat]
  constructor
  · have hlen := splitSizes_map_length hns.le
    conv_rhs => rw [← hlen, List.map_map]
    rfl
  · rw [splitSizes_flatten, hns, List.take_length]

end Sys2Proof.Machine
end

section
/-! What a chunk leaves of DEC: the input and the pixel count, the output outside its pixels, the color
cache outside the new pixel's slot (41_hash_and_cache.md R133; 44_decoder_fsm.md R203 to R209). -/

namespace Sys2Proof.Machine

/-- Every chunk is one COMMIT behind the checks of R202, of its own number of pixels and bytes. INDEX and
RUN write no cache slot, and RUN repeats the previous pixel. -/
theorem execChunk_eq_chunkStep (c : Chunk) (s : State) :
    ∃ cw px, execChunk c s = s.chunkStep cw px c.pixels c.size ∧
      ((∃ slot, c = .index slot) ∨ (∃ n, c = .run n) → cw = false) ∧
      ((∃ n, c = .run n) → px = s.dec.prev) := by
  cases c with
  | index | run => exact ⟨_, _, rfl, fun _ => rfl, by simp⟩
  | diff | luma | rgb | rgba => exact ⟨_, _, rfl, by simp, by simp⟩

/-- COMMIT writes no cache slot but its pixel's. -/
theorem Dec.commit_cache_read_other (d : Dec) (cw : Bool) (px : Pixel) (n len : Nat) {slot : BitVec 6}
    (h : slot ≠ hash px) : (d.commit cw px n len).cache.read slot = d.cache.read slot := by
  cases cw with
  | false => rfl
  | true => exact Cache.read_write_other d.cache _ slot px h

/-- What a chunk leaves of DEC's registers and memory: a commit writes the positions it covers and the new
pixel's slot, a fault only the mode and the cause. -/
theorem State.chunkStep_dec_frame (s : State) (cw : Bool) (px : Pixel) (n len : Nat) :
    (s.chunkStep cw px n len).dec.input = s.dec.input ∧
    (s.chunkStep cw px n len).dec.npix = s.dec.npix ∧
    (∀ addr, addr < 4 * s.dec.op ∨ 4 * (s.dec.op + n) ≤ addr →
      (s.chunkStep cw px n len).dec.out.read addr = s.dec.out.read addr) ∧
    (∀ slot, slot ≠ hash (s.chunkStep cw px n len).dec.prev →
      (s.chunkStep cw px n len).dec.cache.read slot = s.dec.cache.read slot) ∧
    (cw = false → (s.chunkStep cw px n len).dec.cache = s.dec.cache) ∧
    (px = s.dec.prev → (s.chunkStep cw px n len).dec.prev = s.dec.prev) := by
  obtain ⟨-, -, -, -, h⟩ | ⟨c, h⟩ := s.chunkStep_cases cw px n len <;> rw [h]
  · exact ⟨rfl, rfl, fun addr => Memory.read_writeCopies_other n _ _ px addr,
      fun slot => s.dec.commit_cache_read_other cw px n len, fun hcw => by subst hcw; rfl, id⟩
  · rw [State.takeFault_dec_dec]
    exact ⟨rfl, rfl, fun _ _ => rfl, fun _ _ => rfl, fun _ => rfl, fun _ => rfl⟩

/-- Settles O16: a chunk is one COMMIT or a fault of DEC, and the frame of that step says what is left. -/
theorem chunkFrame : Obligations.ChunkFrame := by
  intro c s t h
  rw [exec_chunk] at h
  cases h
  obtain ⟨hcfg, henc, hhdr, hutil, hport⟩ := execChunk_frame c s
  obtain ⟨cw, px, hstep, hcw, hpx⟩ := execChunk_eq_chunkStep c s
  obtain ⟨hin, hnpix, hout, hslot, hcache, hprev⟩ := s.chunkStep_dec_frame cw px c.pixels c.size
  rw [← hstep] at hin hnpix hout hslot hcache hprev
  exact ⟨hcfg, henc, hhdr, hutil, hport, hin, hnpix, hout, hslot, hcache ∘ hcw, hprev ∘ hpx⟩

end Sys2Proof.Machine
end

section
/-! HASH: the weighted channel sum mod 64, and the signed reading of the channels (00_scope.md R10;
41_hash_and_cache.md R130). -/

namespace Sys2Proof.Machine

theorem exec_hash (p : Pixel) (s : State) : exec (.hash p) s = .next { s with response := .slot (hash p) } :=
  rfl

theorem hash_toNat (p : Pixel) :
    (hash p).toNat = (3 * p.r.toNat + 5 * p.g.toNat + 7 * p.b.toNat + 11 * p.a.toNat) % 64 :=
  BitVec.toNat_ofNat _ 6

/-- The two readings of a byte differ by 0 or 256, a multiple of 64. -/
theorem toInt_modEq_toNat (x : Byte) : x.toInt ≡ x.toNat [ZMOD 64] := by
  have h : x.toInt ≡ x.toNat [ZMOD 256] := by
    rw [BitVec.toInt_eq_toNat_bmod]
    exact Int.bmod_emod
  exact h.of_dvd (by decide)

/-- The slot is also the weighted sum of the signed channels under the floor remainder. -/
theorem hash_toNat_signed (p : Pixel) : ((hash p).toNat : Int) =
    (3 * p.r.toInt + 5 * p.g.toInt + 7 * p.b.toInt + 11 * p.a.toInt) % 64 := by
  have hsum : 3 * p.r.toInt + 5 * p.g.toInt + 7 * p.b.toInt + 11 * p.a.toInt ≡
      3 * p.r.toNat + 5 * p.g.toNat + 7 * p.b.toNat + 11 * p.a.toNat [ZMOD 64] := by
    gcongr <;> exact toInt_modEq_toNat _
  rw [hsum.eq, hash_toNat]
  push_cast
  rfl

/-- Settles O46: one slot, by both readings of the channels, since they agree mod 64. -/
theorem hashResult : Obligations.HashResult := fun s p =>
  ⟨hash p, exec_hash p s, hash_toNat p, hash_toNat_signed p⟩

end Sys2Proof.Machine
end

section
/-! CODEC: each command answers with its function, and what the chunk encoders answer
(42_chunk_codecs.md R140 to R145). -/

namespace Sys2Proof.Machine

/-! ### Each command of CODEC answers with its function -/

section
variable (s : State) (px prev : Option Pixel) (dr dg db v b : Byte) (bytes : Seq) (pos : Nat)

theorem exec_encRgb : exec (.encRgb px) s = .next (s.answer ((encodeRGB px).map .bytes)) := rfl

theorem exec_encRgba : exec (.encRgba px) s = .next (s.answer ((encodeRGBA px).map .bytes)) := rfl

theorem exec_encIndex : exec (.encIndex v) s = .next (s.answer ((encodeIndex v.toNat).map .bytes)) := rfl

theorem exec_encDiff : exec (.encDiff dr dg db) s =
    .next (s.answer ((encodeDiff dr.toInt dg.toInt db.toInt).map .bytes)) := by
  simp only [← s8_toInt]
  rfl

theorem exec_encLuma : exec (.encLuma dr dg db) s =
    .next (s.answer ((encodeLuma dr.toInt dg.toInt db.toInt).map .bytes)) := by
  simp only [← s8_toInt]
  rfl

theorem exec_encRun : exec (.encRun v) s = .next (s.answer ((encodeRun v.toNat).map .bytes)) := rfl

theorem exec_decRgb : exec (.decRgb prev bytes) s =
    .next (s.answer ((decodeRGB prev bytes).map .pixel)) := rfl

theorem exec_decRgba : exec (.decRgba bytes) s = .next (s.answer ((decodeRGBA bytes).map .pixel)) := rfl

theorem exec_decDiff : exec (.decDiff prev b) s =
    .next (s.answer ((decodeDiff prev b).map .pixel)) := rfl

theorem exec_decLuma : exec (.decLuma prev bytes) s =
    .next (s.answer ((decodeLuma prev bytes).map .pixel)) := rfl

theorem exec_decRun : exec (.decRun prev b pos) s =
    .next (s.answer ((decodeRun prev b).map (.placed pos))) := rfl

end

/-! ### Index and Run (R142, R145) -/

/-- A slot's chunk is the slot's number as a byte. -/
theorem encodeIndex_of_le {v : Byte} (h : v.toNat ≤ 63) : encodeIndex v.toNat = .ok [v] := by
  rw [encodeIndex, if_pos h, indexBytes_ofNat (by omega), ofNat8_toNat]

theorem encodeIndex_of_lt {n : Nat} (h : 63 < n) : encodeIndex n = .error .paramRange :=
  if_neg (by omega)

theorem encodeRun_of_range {v : Byte} (h : 1 ≤ v.toNat) (h' : v.toNat ≤ 62) :
    encodeRun v.toNat = .ok [0xC0 ||| (v - 1)] := by
  have hv : BitVec.ofNat 8 (v.toNat - 1) = v - 1 := by bv_omega
  rw [encodeRun_ok _ h h', pendingBytes, if_pos (show 0 < v.toNat from h), hv]

theorem encodeRun_of_outside {n : Nat} (h : n = 0 ∨ 62 < n) : encodeRun n = .error .paramRange :=
  if_neg (by omega)

/-- Settles O47: each encoder's range holds or fails, and its answer is the tag with the operand's bits. -/
theorem plainChunkEncodersResult : Obligations.PlainChunkEncodersResult := fun s p v =>
  ⟨exec_of_answer_ok (exec_encRgb s (some p)) rfl,
    exec_of_answer_ok (exec_encRgba s (some p)) rfl,
    exec_of_answer_error (exec_encRgb s none) rfl,
    exec_of_answer_error (exec_encRgba s none) rfl,
    fun h => exec_of_answer_ok (exec_encIndex s v) (encodeIndex_of_le h),
    fun h => exec_of_answer_error (exec_encIndex s v) (encodeIndex_of_lt h),
    fun h h' => exec_of_answer_ok (exec_encRun s v) (encodeRun_of_range h h'),
    fun h => exec_of_answer_error (exec_encRun s v) (encodeRun_of_outside h)⟩

/-! ### Diff and Luma (R143, R144) -/

theorem inRange_iff {lo hi d : Int} : inRange lo hi d = true ↔ lo ≤ d ∧ d ≤ hi := by
  rw [inRange, Bool.and_eq_true, decide_eq_true_iff, decide_eq_true_iff]

theorem diffRange_iff {dr dg db : Int} : diffRange dr dg db = true ↔
    (-2 ≤ dr ∧ dr ≤ 1) ∧ (-2 ≤ dg ∧ dg ≤ 1) ∧ (-2 ≤ db ∧ db ≤ 1) := by
  simp only [diffRange, Bool.and_eq_true, inRange_iff, and_assoc]

theorem lumaRange_iff {dg drDg dbDg : Int} : lumaRange dg drDg dbDg = true ↔
    (-32 ≤ dg ∧ dg ≤ 31) ∧ (-8 ≤ drDg ∧ drDg ≤ 7) ∧ (-8 ≤ dbDg ∧ dbDg ≤ 7) := by
  simp only [lumaRange, Bool.and_eq_true, inRange_iff, and_assoc]

section
variable {dr dg db : Byte}

theorem encodeDiff_of_range (h : diffRange dr.toInt dg.toInt db.toInt = true) :
    encodeDiff dr.toInt dg.toInt db.toInt = .ok [diffByte dr dg db] := by
  rw [encodeDiff, if_pos h, diffBytes_eq dr dg db h]

theorem encodeLuma_of_range
    (h : lumaRange dg.toInt (dr.toInt - dg.toInt) (db.toInt - dg.toInt) = true) :
    encodeLuma dr.toInt dg.toInt db.toInt = .ok [lumaByte0 dg, lumaByte1 dr dg db] := by
  rw [encodeLuma, if_pos h, lumaBytes_eq dr dg db h]

end

/-- Settles O48: the deltas are in the chunk's range or they are not. -/
theorem deltaChunkEncodersResult : Obligations.DeltaChunkEncodersResult := fun s dr dg db =>
  ⟨fun h => exec_of_answer_ok (exec_encDiff s dr dg db) (encodeDiff_of_range (diffRange_iff.2 h)),
    fun h => exec_of_answer_error (exec_encDiff s dr dg db) (if_neg (mt diffRange_iff.1 h)),
    fun h => exec_of_answer_ok (exec_encLuma s dr dg db) (encodeLuma_of_range (lumaRange_iff.2 h)),
    fun h => exec_of_answer_error (exec_encLuma s dr dg db) (if_neg (mt lumaRange_iff.1 h))⟩

end Sys2Proof.Machine
end

section
/-! CODEC: what the chunk decoders answer, with the fields of a byte as masked shifts
(42_chunk_codecs.md R146 to R150). -/

namespace Sys2Proof.Machine

/-! ### RGB and RGBA (R146, R147) -/

theorem decodeRGB_of_length_ne (prev : Pixel) {bs : List Byte} (h : bs.length ≠ 3) :
    decodeRGB (some prev) (some bs) = .error .badLength :=
  match bs, h with
  | [], _ | [_], _ | [_, _], _ | _ :: _ :: _ :: _ :: _, _ => rfl
  | [_, _, _], h => absurd rfl h

theorem decodeRGB_none_right (prev : Option Pixel) : decodeRGB prev none = .error .nullOperand := by
  cases prev <;> rfl

theorem decodeRGBA_of_length_ne {bs : List Byte} (h : bs.length ≠ 4) :
    decodeRGBA (some bs) = .error .badLength :=
  match bs, h with
  | [], _ | [_], _ | [_, _], _ | [_, _, _], _ | _ :: _ :: _ :: _ :: _ :: _, _ => rfl
  | [_, _, _, _], h => absurd rfl h

/-- Settles O49: absence first, then the payload's length. -/
theorem rawChunkDecodersResult : Obligations.RawChunkDecodersResult := fun s prev r g b a bs x y =>
  ⟨exec_of_answer_ok (exec_decRgb s (some prev) (some [r, g, b])) rfl,
    fun h => exec_of_answer_error (exec_decRgb s (some prev) (some bs)) (decodeRGB_of_length_ne prev h),
    exec_of_answer_error (exec_decRgb s none x) rfl,
    exec_of_answer_error (exec_decRgb s y none) (decodeRGB_none_right y),
    exec_of_answer_ok (exec_decRgba s (some [r, g, b, a])) rfl,
    fun h => exec_of_answer_error (exec_decRgba s (some bs)) (decodeRGBA_of_length_ne h),
    exec_of_answer_error (exec_decRgba s none) rfl⟩

/-! ### The fields of a byte as 8-bit patterns (00_scope.md R6) -/

/-- A field that reaches bit 7 is a shift. -/
theorem field_eq_toNat_shift (b : Byte) {lo width : Nat} (h : 8 ≤ lo + width) :
    field b lo width = (b >>> lo).toNat := by
  have hlt : b.toNat / 2 ^ lo < 2 ^ width := by
    rw [Nat.div_lt_iff_lt_mul (Nat.two_pow_pos lo), ← Nat.pow_add, Nat.add_comm]
    exact b.isLt.trans_le (Nat.pow_le_pow_right (by omega) h)
  rw [field, Nat.mod_eq_of_lt hlt, BitVec.toNat_ushiftRight, Nat.shiftRight_eq_div_pow]

/-- Any field is a masked shift. -/
theorem field_eq_toNat_mask (b : Byte) (lo : Nat) {width : Nat} (h : width ≤ 8) :
    field b lo width = ((b >>> lo) &&& BitVec.ofNat 8 (2 ^ width - 1)).toNat := by
  have hpow : 2 ^ width ≤ 2 ^ 8 := Nat.pow_le_pow_right (by omega) h
  have hmask : 2 ^ width - 1 < 2 ^ 8 := by omega
  rw [field, BitVec.toNat_and, BitVec.toNat_ofNat, Nat.mod_eq_of_lt hmask,
    Nat.and_two_pow_sub_one_eq_mod, BitVec.toNat_ushiftRight, Nat.shiftRight_eq_div_pow]

/-- A field from bit 0 is a mask. -/
theorem field_zero_eq_toNat_mask (b : Byte) {width : Nat} (h : width ≤ 8) :
    field b 0 width = (b &&& BitVec.ofNat 8 (2 ^ width - 1)).toNat := by
  rw [field_eq_toNat_mask b 0 h, BitVec.ushiftRight_zero]

/-- The tag of a chunk's lead byte. -/
theorem field_tag_eq_iff (b : Byte) {k : Nat} (hk : k < 256) :
    field b 6 2 = k ↔ b >>> 6 = BitVec.ofNat 8 k := by
  rw [field_eq_toNat_shift b (by omega), ← BitVec.toNat_inj, BitVec.toNat_ofNat, Nat.mod_eq_of_lt hk]

/-- Taking off a field's bias, on integers and on 8-bit patterns. -/
theorem ofInt_toNat_sub (f : Byte) (bias : Int) :
    BitVec.ofInt 8 ((f.toNat : Int) - bias) = f - BitVec.ofInt 8 bias := by
  rw [Int.sub_eq_add_neg, BitVec.ofInt_add, BitVec.ofInt_neg, BitVec.ofInt_natCast, ofNat8_toNat,
    BitVec.sub_eq_add_neg]

/-! ### Diff, Luma and Run (R148, R149, R150) -/

section
variable (prev : Pixel) {b : Byte}

/-- Diff in the form R148 writes it. -/
theorem decodeDiff_of_tag (h : b >>> 6 = 1) : decodeDiff (some prev) b =
    .ok ⟨prev.r + (((b >>> 4) &&& 3) - 2), prev.g + (((b >>> 2) &&& 3) - 2), prev.b + ((b &&& 3) - 2),
      prev.a⟩ := by
  rw [decodeDiff, if_pos ((field_tag_eq_iff b (by decide)).2 h), field_eq_toNat_mask b 4 (by decide),
    field_eq_toNat_mask b 2 (by decide), field_zero_eq_toNat_mask b (by decide)]
  simp only [diffPixel, add8_ofInt, ofInt_toNat_sub]
  rfl

theorem decodeDiff_of_tag_ne (h : b >>> 6 ≠ 1) : decodeDiff (some prev) b = .error .badTag :=
  if_neg (mt (field_tag_eq_iff b (by decide)).1 h)

/-- Luma in the form R149 writes it. -/
theorem decodeLuma_of_tag (b1 : Byte) (h : b >>> 6 = 2) : decodeLuma (some prev) (some [b, b1]) =
    .ok ⟨prev.r + (((b &&& 0x3F) - 32) + ((b1 >>> 4) - 8)), prev.g + ((b &&& 0x3F) - 32),
      prev.b + (((b &&& 0x3F) - 32) + ((b1 &&& 0xF) - 8)), prev.a⟩ := by
  rw [decodeLuma, if_pos ((field_tag_eq_iff b (by decide)).2 h), field_zero_eq_toNat_mask b (by decide),
    field_eq_toNat_shift b1 (by decide), field_zero_eq_toNat_mask b1 (by decide)]
  simp only [lumaPixel, add8_ofInt, BitVec.ofInt_add, ofInt_toNat_sub]
  rfl

theorem decodeLuma_of_tag_ne (b1 : Byte) (h : b >>> 6 ≠ 2) :
    decodeLuma (some prev) (some [b, b1]) = .error .badTag :=
  if_neg (mt (field_tag_eq_iff b (by decide)).1 h)

theorem decodeLuma_of_length_ne {bs : List Byte} (h : bs.length ≠ 2) :
    decodeLuma (some prev) (some bs) = .error .badLength :=
  match bs, h with
  | [], _ | [_], _ | _ :: _ :: _ :: _, _ => rfl
  | [_, _], h => absurd rfl h

theorem decodeLuma_none_right (y : Option Pixel) : decodeLuma y none = .error .nullOperand := by
  cases y <;> rfl

theorem decodeRun_of_tag (h : b >>> 6 = 3) (hrgb : b ≠ 0xFE) (hrgba : b ≠ 0xFF) :
    decodeRun (some prev) b = .ok (List.replicate ((b &&& 0x3F).toNat + 1) prev) := by
  rw [decodeRun, if_pos ⟨(field_tag_eq_iff b (by decide)).2 h, hrgb, hrgba⟩,
    field_zero_eq_toNat_mask b (by decide)]
  rfl

theorem decodeRun_of_tag_ne (h : b >>> 6 ≠ 3 ∨ b = 0xFE ∨ b = 0xFF) :
    decodeRun (some prev) b = .error .badTag := by
  refine if_neg fun ⟨htag, hrgb, hrgba⟩ => ?_
  obtain h | h | h := h
  · exact h ((field_tag_eq_iff b (by decide)).1 htag)
  · exact hrgb h
  · exact hrgba h

end

/-- Settles O50: absence first, then Luma's length, then the tag; the model's integer fields are the rules'
masked shifts. -/
theorem taggedChunkDecodersResult : Obligations.TaggedChunkDecodersResult := by
  intro s prev b b1 bs pos x y
  have hdiff := fun p => exec_decDiff s p b
  have hluma := fun p bytes => exec_decLuma s p bytes
  have hrun := fun p => exec_decRun s p b pos
  exact ⟨exec_of_answer_error (hdiff none) rfl,
    exec_of_answer_error (hluma none x) rfl,
    exec_of_answer_error (hluma y none) (decodeLuma_none_right y),
    exec_of_answer_error (hrun none) rfl,
    fun h => exec_of_answer_ok (hdiff _) (decodeDiff_of_tag prev h),
    fun h => exec_of_answer_error (hdiff _) (decodeDiff_of_tag_ne prev h),
    fun h => exec_of_answer_ok (hluma _ _) (decodeLuma_of_tag prev b1 h),
    fun h => exec_of_answer_error (hluma _ _) (decodeLuma_of_tag_ne prev b1 h),
    fun h => exec_of_answer_error (hluma _ _) (decodeLuma_of_length_ne prev h),
    fun h hrgb hrgba => exec_of_answer_ok (hrun _) (decodeRun_of_tag prev h hrgb hrgba),
    fun h => exec_of_answer_error (hrun _) (decodeRun_of_tag_ne prev h)⟩

end Sys2Proof.Machine
end

section
/-! CODEC: each chunk decoder undoes its encoder (42_chunk_codecs.md R152). The chunk byte code's decoder
reads back what the encoders write, and the standalone decoders read a chunk as it does. -/

namespace Sys2Proof.Machine

/-! ### A standalone decoder gives the pixels of the chunk the byte code's decoder reads -/

section
variable (prev : Pixel) {b b1 : Byte}

theorem decodeDiff_of_decodeChunk {dr dg db : Int} (h : decodeChunk [b] = .ok (.diff dr dg db, [])) :
    decodeDiff (some prev) b = .ok (diffPixel prev dr dg db) := by
  simp only [decodeChunk] at h
  split_ifs at h with hrgb hrgba hindex hdiff <;> cases h
  exact if_pos hdiff

theorem decodeLuma_of_decodeChunk {dg drDg dbDg : Int}
    (h : decodeChunk [b, b1] = .ok (.luma dg drDg dbDg, [])) :
    decodeLuma (some prev) (some [b, b1]) = .ok (lumaPixel prev dg drDg dbDg) := by
  simp only [decodeChunk] at h
  split_ifs at h with hrgb hrgba hindex hdiff hluma <;> cases h
  exact if_pos hluma

theorem decodeRun_of_decodeChunk {n : Nat} (h : decodeChunk [b] = .ok (.run n, [])) :
    decodeRun (some prev) b = .ok (List.replicate n prev) := by
  simp only [decodeChunk] at h
  split_ifs at h with hrgb hrgba hindex hdiff hluma <;> cases h
  have htag : field b 6 2 < 4 := Nat.mod_lt _ (by decide)
  exact if_pos ⟨by omega, hrgb, hrgba⟩

end

/-! ### The pixels of the chunks of a pixel's deltas -/

section
variable {prev px : Pixel}

theorem diffPixel_delta (ha : px.a = prev.a) :
    diffPixel prev (delta px.r prev.r) (delta px.g prev.g) (delta px.b prev.b) = px := by
  simp only [diffPixel, add8_delta, ← ha]

/-- Luma's second-order deltas add up to the first-order ones. -/
theorem lumaPixel_delta (ha : px.a = prev.a) :
    lumaPixel prev (delta px.g prev.g) (delta px.r prev.r - delta px.g prev.g)
      (delta px.b prev.b - delta px.g prev.g) = px := by
  simp only [lumaPixel, add_sub_cancel, add8_delta, ← ha]

theorem rgbPixel_self (ha : px.a = prev.a) : rgbPixel prev px.r px.g px.b = px := by
  rw [rgbPixel, ← ha]

end

/-! ### One law of R152 for each chunk type -/

section
variable (s : State) {prev px : Pixel}

/-- The channels' differences, read as signed, are the deltas (00_scope.md R9). -/
theorem exec_encDiff_sub (px prev : Pixel) :
    exec (.encDiff (px.r - prev.r) (px.g - prev.g) (px.b - prev.b)) s = .next (s.answer
      ((encodeDiff (delta px.r prev.r) (delta px.g prev.g) (delta px.b prev.b)).map .bytes)) := rfl

theorem exec_encLuma_sub (px prev : Pixel) :
    exec (.encLuma (px.r - prev.r) (px.g - prev.g) (px.b - prev.b)) s = .next (s.answer
      ((encodeLuma (delta px.r prev.r) (delta px.g prev.g) (delta px.b prev.b)).map .bytes)) := rfl

theorem diff_roundTrip (ha : px.a = prev.a)
    (h : diffRange (delta px.r prev.r) (delta px.g prev.g) (delta px.b prev.b) = true) :
    ∃ b, exec (.encDiff (px.r - prev.r) (px.g - prev.g) (px.b - prev.b)) s =
        .next { s with response := .bytes [b] } ∧
      exec (.decDiff (some prev) b) s = .next { s with response := .pixel px } := by
  have hread := decodeChunk_bytes (.diff _ _ _) [] h
  have hdec := decodeDiff_of_decodeChunk prev hread
  rw [diffPixel_delta ha] at hdec
  exact ⟨_, exec_of_answer_ok (exec_encDiff_sub s px prev) (if_pos h),
    exec_of_answer_ok (exec_decDiff s _ _) hdec⟩

theorem luma_roundTrip (ha : px.a = prev.a)
    (h : lumaRange (delta px.g prev.g) (delta px.r prev.r - delta px.g prev.g)
      (delta px.b prev.b - delta px.g prev.g) = true) :
    ∃ b0 b1, exec (.encLuma (px.r - prev.r) (px.g - prev.g) (px.b - prev.b)) s =
        .next { s with response := .bytes [b0, b1] } ∧
      exec (.decLuma (some prev) (some [b0, b1])) s = .next { s with response := .pixel px } := by
  have hread := decodeChunk_bytes (.luma _ _ _) [] h
  have hdec := decodeLuma_of_decodeChunk prev hread
  rw [lumaPixel_delta ha] at hdec
  exact ⟨_, _, exec_of_answer_ok (exec_encLuma_sub s px prev) (if_pos h),
    exec_of_answer_ok (exec_decLuma s _ _) hdec⟩

theorem rgb_roundTrip (ha : px.a = prev.a) :
    ∃ t q, exec (.encRgb (some px)) s = .next { s with response := .bytes (t :: q) } ∧
      exec (.decRgb (some prev) (some q)) s = .next { s with response := .pixel px } :=
  ⟨_, _, exec_of_answer_ok (exec_encRgb s _) rfl,
    exec_of_answer_ok (exec_decRgb s _ _) (congrArg Except.ok (rgbPixel_self ha))⟩

theorem rgba_roundTrip (px : Pixel) :
    ∃ t q, exec (.encRgba (some px)) s = .next { s with response := .bytes (t :: q) } ∧
      exec (.decRgba (some q)) s = .next { s with response := .pixel px } :=
  ⟨_, _, exec_of_answer_ok (exec_encRgba s _) rfl, exec_of_answer_ok (exec_decRgba s _) rfl⟩

theorem run_roundTrip (px : Pixel) {count : Byte} (pos : Nat) (h : 1 ≤ count.toNat)
    (h' : count.toNat ≤ 62) :
    ∃ b, exec (.encRun count) s = .next { s with response := .bytes [b] } ∧
      exec (.decRun (some px) b pos) s =
        .next { s with response := .placed pos (List.replicate count.toNat px) } := by
  have hwf : (Chunk.run count.toNat).toInstr.wellFormed = true := by
    simp [Chunk.toInstr, Instr.wellFormed, h, h']
  have hdec := decodeRun_of_decodeChunk px (decodeChunk_bytes _ [] hwf)
  exact ⟨_, exec_of_answer_ok (exec_encRun s _) (if_pos ⟨h, h'⟩),
    exec_of_answer_ok (exec_decRun s _ _ _) hdec⟩

theorem index_roundTrip (slot : BitVec 6) :
    ∃ bs, exec (.encIndex (slot.setWidth 8)) s = .next { s with response := .bytes bs } ∧
      decodeChunk bs = .ok (.index slot, []) := by
  have hslot : (slot.setWidth 8).toNat = slot.toNat := BitVec.toNat_setWidth_of_le (by decide)
  have henc : encodeIndex (slot.setWidth 8).toNat = .ok (indexBytes slot) := by
    rw [hslot, encodeIndex, if_pos (by omega), BitVec.ofNat_toNat, BitVec.setWidth_eq]
  exact ⟨_, exec_of_answer_ok (exec_encIndex s _) henc, decodeChunk_bytes (.index slot) [] rfl⟩

end

/-- Settles O51, one law for each chunk type. -/
theorem chunkCodecsAreInverse : Obligations.ChunkCodecsAreInverse := fun s _ px =>
  ⟨diff_roundTrip s, luma_roundTrip s, rgb_roundTrip s, rgba_roundTrip s px,
    fun _ pos => run_roundTrip s px pos, index_roundTrip s⟩

end Sys2Proof.Machine
end

section
/-! ENC: each instruction as an encoder step, and what its commands and actions leave in a call
(43_encoder_fsm.md R170 to R183). -/

namespace Sys2Proof.Machine

/-! ### The outcomes of an encoder step (R170) -/

section
variable {i : Instr} {s : State} {f : Enc → Except Cause Enc}

/-- In a call, where the step's function succeeds, ENC takes its registers. -/
theorem exec_of_encStep_ok {e : Enc} (hi : exec i s = .next (s.encStep f)) (hm : s.enc.mode = .active)
    (hf : f s.enc = .ok e) : exec i s = .next { s with enc := e, response := .done } := by
  rw [hi, State.encStep_ok hm hf]
  rfl

/-- In a call, where the step's function fails, ENC takes the fault. -/
theorem exec_of_encStep_error {c : Cause} (hi : exec i s = .next (s.encStep f))
    (hm : s.enc.mode = .active) (hf : f s.enc = .error c) : exec i s = .next (encFault s c) := by
  rw [hi, State.encStep, if_pos hm, hf, encFault_eq]

theorem State.encStep_of_not_active (hm : s.enc.mode ≠ .active) :
    s.encStep f = encFault s .protocol := by
  rw [State.encStep, if_neg hm, encFault_eq]

end

section
variable (s : State) (px : Pixel) (slot : BitVec 6) (dr dg db : Int) (r g b : Byte)

theorem exec_encStart : exec .encStart s = .next s.encStart := rfl

theorem exec_encPixel : exec (.encPixel px) s = .next (s.encStep (Enc.pixel px)) := rfl

theorem exec_encEnd : exec .encEnd s = .next s.encEnd := rfl

theorem exec_runExtend : exec .runExtend s = .next (s.encStep Enc.runExtend) := rfl

theorem exec_runFlushFull : exec .runFlushFull s = .next (s.encStep Enc.runFlushFull) := rfl

theorem exec_runFlushPending : exec .runFlushPending s = .next (s.encStep Enc.runFlushPending) := rfl

theorem exec_finalFlush : exec .finalFlush s = .next (s.encStep Enc.finalFlush) := rfl

theorem exec_emitIndex : exec (.emitIndex slot) s = .next (s.encStep (·.emitIndex slot)) := rfl

theorem exec_emitDiff : exec (.emitDiff dr dg db) s = .next (s.encStep (·.emitDiff dr dg db)) := rfl

theorem exec_emitLuma : exec (.emitLuma dr dg db) s = .next (s.encStep (·.emitLuma dr dg db)) := rfl

theorem exec_emitRgb : exec (.emitRgb r g b) s = .next (s.encStep (fun e => .ok (e.emitRgb r g b))) := rfl

theorem exec_emitRgba : exec (.emitRgba px) s = .next (s.encStep (fun e => .ok (e.emitRgba px))) := rfl

theorem exec_cacheUpdate : exec (.cacheUpdate px) s =
    .next (s.encStep (fun e => .ok (e.cacheUpdate px))) := rfl

theorem exec_prevAdvance : exec (.prevAdvance px) s =
    .next (s.encStep (fun e => .ok (e.prevAdvance px))) := rfl

end

/-! ### ENC.START and ENC.END (R171, R183) -/

/-- Settles O28: ENC.START asks nothing of the state, and writes every register of ENC. -/
theorem encStartResult : Obligations.EncStartResult := exec_encStart

/-- In a call, ENC.END appends the pending run and answers the whole stream. -/
theorem State.encEnd_ok {s : State} (hm : s.enc.mode = .active) (hr : s.enc.run ≤ 61) :
    s.encEnd = { s with
      enc := { s.enc with mode := .done, run := 0, out := s.enc.out ++ pendingBytes s.enc.run }
      response := .bytes (s.enc.out ++ pendingBytes s.enc.run) } := by
  rw [State.encEnd, State.encStep_ok hm (Enc.finish_ok s.enc (by omega))]
  rfl

theorem State.encEnd_of_not_active {s : State} (hm : s.enc.mode ≠ .active) :
    s.encEnd = encFault s .protocol := by
  rw [State.encEnd, State.encStep_of_not_active hm]
  rfl

/-- Settles O35: ENC.END and ENC.PIXEL ask for mode ACTIVE; in a call the run fits one chunk. -/
theorem encEndResult : Obligations.EncEndResult := by
  refine fun s => ⟨fun hm hr => ?_, fun hm => ⟨?_, fun px => ?_⟩⟩
  · rw [exec_encEnd, State.encEnd_ok hm hr]
  · rw [exec_encEnd, State.encEnd_of_not_active hm]
  · rw [exec_encPixel, State.encStep_of_not_active hm]

/-! ### The run actions (R173, R174, R175, R183) -/

section
variable (e : Enc)

theorem Enc.runFlushFull_eq : e.runFlushFull = .ok { e with run := 0, out := e.out ++ [0xFD] } := by
  rw [Enc.runFlushFull, encodeRun_ok runMax (by decide) (by decide), pendingBytes_full]
  rfl

theorem Enc.runExtend_of_ne (h : e.run + 1 ≠ 62) : e.runExtend = .ok { e with run := e.run + 1 } :=
  if_neg h

theorem Enc.runExtend_of_eq (h : e.run + 1 = 62) :
    e.runExtend = .ok { e with run := 0, out := e.out ++ [0xFD] } := by
  rw [Enc.runExtend, if_pos h, Enc.runFlushFull_eq]

/-- RUN_FLUSH_PENDING and FINAL_FLUSH are this flush. -/
theorem Enc.flushRun_ok (h : 1 ≤ e.run) (h' : e.run ≤ 62) :
    Enc.emitChecked { e with run := 0 } (encodeRun e.run) =
      .ok { e with run := 0, out := e.out ++ pendingBytes e.run } := by
  rw [encodeRun_ok e.run h h']
  rfl

end

/-- Settles O36: the run reaches 62 or it does not, and a run of 1 to 62 is one chunk. -/
theorem runActionsResult : Obligations.RunActionsResult := fun s hm =>
  ⟨fun h => exec_of_encStep_ok (exec_runExtend s) hm (s.enc.runExtend_of_ne h),
    fun h => exec_of_encStep_ok (exec_runExtend s) hm (s.enc.runExtend_of_eq h),
    exec_of_encStep_ok (exec_runFlushFull s) hm s.enc.runFlushFull_eq,
    fun h h' => exec_of_encStep_ok (exec_runFlushPending s) hm (s.enc.flushRun_ok h h'),
    fun h h' => exec_of_encStep_ok (exec_finalFlush s) hm (s.enc.flushRun_ok h h')⟩

/-! ### The emitting actions (R176, R178 to R181) -/

theorem indexBytes_eq_setWidth (slot : BitVec 6) : indexBytes slot = [slot.setWidth 8] := by
  rw [indexBytes, BitVec.ofNat_toNat]

/-- Every slot is in Index's range. -/
theorem encodeIndex_slot (slot : BitVec 6) : encodeIndex slot.toNat = .ok [slot.setWidth 8] := by
  rw [encodeIndex, if_pos (by omega), BitVec.ofNat_toNat, BitVec.setWidth_eq, indexBytes_eq_setWidth]

/-- A number in a byte's signed range is the one its 8-bit pattern reads as. -/
theorem toInt_ofInt8 {d : Int} (h : -128 ≤ d) (h' : d ≤ 127) : (BitVec.ofInt 8 d).toInt = d :=
  BitVec.toInt_ofInt_eq_self (by decide) h (by omega)

section
variable {dr dg db : Int}

theorem encodeDiff_ofInt (h : diffRange dr dg db = true) : encodeDiff dr dg db =
    .ok [diffByte (BitVec.ofInt 8 dr) (BitVec.ofInt 8 dg) (BitVec.ofInt 8 db)] := by
  obtain ⟨hr, hg, hb⟩ := diffRange_iff.1 h
  have henc := encodeDiff_of_range (dr := .ofInt 8 dr) (dg := .ofInt 8 dg) (db := .ofInt 8 db)
  rw [toInt_ofInt8 (d := dr) (by omega) (by omega), toInt_ofInt8 (d := dg) (by omega) (by omega),
    toInt_ofInt8 (d := db) (by omega) (by omega)] at henc
  exact henc h

/-- Luma's ranges bound the first-order deltas of red and blue too, to -40..38. -/
theorem encodeLuma_ofInt (h : lumaRange dg (dr - dg) (db - dg) = true) : encodeLuma dr dg db =
    .ok [lumaByte0 (BitVec.ofInt 8 dg),
      lumaByte1 (BitVec.ofInt 8 dr) (BitVec.ofInt 8 dg) (BitVec.ofInt 8 db)] := by
  obtain ⟨hg, hr, hb⟩ := lumaRange_iff.1 h
  have henc := encodeLuma_of_range (dr := .ofInt 8 dr) (dg := .ofInt 8 dg) (db := .ofInt 8 db)
  rw [toInt_ofInt8 (d := dr) (by omega) (by omega), toInt_ofInt8 (d := dg) (by omega) (by omega),
    toInt_ofInt8 (d := db) (by omega) (by omega)] at henc
  exact henc h

theorem encodeDiff_of_not_range (h : diffRange dr dg db = false) :
    encodeDiff dr dg db = .error .paramRange := if_neg (by simp [h])

theorem encodeLuma_of_not_range (h : lumaRange dg (dr - dg) (db - dg) = false) :
    encodeLuma dr dg db = .error .paramRange := if_neg (by simp [h])

end

section
variable {i : Instr} {s : State} {r : Except Cause (List Byte)}

/-- An emitting action appends what its chunk encoder answers. -/
theorem exec_of_emit_ok {bs : List Byte} (hi : exec i s = .next (s.encStep (·.emitChecked r)))
    (hm : s.enc.mode = .active) (hr : r = .ok bs) :
    exec i s = .next { s with enc := { s.enc with out := s.enc.out ++ bs }, response := .done } :=
  exec_of_encStep_ok hi hm (by rw [hr]; rfl)

/-- An emitting action faults where its chunk encoder does. -/
theorem exec_of_emit_error {c : Cause} (hi : exec i s = .next (s.encStep (·.emitChecked r)))
    (hm : s.enc.mode = .active) (hr : r = .error c) : exec i s = .next (encFault s c) :=
  exec_of_encStep_error hi hm (by rw [hr]; rfl)

end

/-- Settles O37: an emitting action answers as its chunk encoder, the two register actions succeed always. -/
theorem chunkAndRegisterActionsResult : Obligations.ChunkAndRegisterActionsResult :=
  fun s slot dr dg db px hm =>
  ⟨exec_of_emit_ok (exec_emitIndex s slot) hm (encodeIndex_slot slot),
    fun h => exec_of_emit_ok (exec_emitDiff s dr dg db) hm (encodeDiff_ofInt h),
    fun h => exec_of_emit_error (exec_emitDiff s dr dg db) hm (encodeDiff_of_not_range h),
    fun h => exec_of_emit_ok (exec_emitLuma s dr dg db) hm (encodeLuma_ofInt h),
    fun h => exec_of_emit_error (exec_emitLuma s dr dg db) hm (encodeLuma_of_not_range h),
    exec_of_encStep_ok (exec_emitRgb s px.r px.g px.b) hm rfl,
    exec_of_encStep_ok (exec_emitRgba s px) hm rfl,
    ⟨_, exec_of_encStep_ok (exec_cacheUpdate s px) hm rfl, rfl, s.enc.cache.write_hash px⟩,
    exec_of_encStep_ok (exec_prevAdvance s px) hm rfl⟩

end Sys2Proof.Machine
end

section
/-! ENC.PIXEL: the chunk the selector chooses in each case of R172, and the registers it leaves
(43_encoder_fsm.md R172 to R182). -/

namespace Sys2Proof.Machine

/-! ### A pixel equal to the previous one (R173, R174) -/

/-- Settles O29: the action is RUN_EXTEND, counted. -/
theorem equalPixelExtendsTheRun : Obligations.EqualPixelExtendsTheRun := by
  refine fun s hm => ⟨fun h => ?_, fun h => ?_⟩
  · exact exec_of_encStep_ok (exec_encPixel s _) hm (by rw [Enc.pixel_run, if_neg (by omega)])
  · exact exec_of_encStep_ok (exec_encPixel s _) hm (by rw [Enc.pixel_run, if_pos h])

/-! ### The predicates of the selector (10_state.md R37) on 8-bit differences read as signed -/

section
variable {e : Enc} {px : Pixel}

theorem diffOk_iff : diffOk e px = true ↔
    -2 ≤ (px.r - e.prev.r).toInt ∧ (px.r - e.prev.r).toInt ≤ 1 ∧
      -2 ≤ (px.g - e.prev.g).toInt ∧ (px.g - e.prev.g).toInt ≤ 1 ∧
      -2 ≤ (px.b - e.prev.b).toInt ∧ (px.b - e.prev.b).toInt ≤ 1 := by
  simp only [diffOk, diffRange_iff, delta_toInt, and_assoc]

theorem lumaOk_iff : lumaOk e px = true ↔
    -32 ≤ (px.g - e.prev.g).toInt ∧ (px.g - e.prev.g).toInt ≤ 31 ∧
      -8 ≤ (px.r - e.prev.r).toInt - (px.g - e.prev.g).toInt ∧
      (px.r - e.prev.r).toInt - (px.g - e.prev.g).toInt ≤ 7 ∧
      -8 ≤ (px.b - e.prev.b).toInt - (px.g - e.prev.g).toInt ∧
      (px.b - e.prev.b).toInt - (px.g - e.prev.g).toInt ≤ 7 := by
  simp only [lumaOk, lumaRange_iff, delta_toInt, and_assoc]

theorem hit_iff : hit e px = true ↔ e.cache.read (hash px) = px := decide_eq_true_iff

theorem alphaSame_iff : alphaSame e px = true ↔ px.a = e.prev.a := decide_eq_true_iff

/-! ### The bytes of the chosen chunk, case by case (R176, R178 to R181) -/

theorem Enc.chosen_bytes_of_hit (h : e.cache.read (hash px) = px) :
    (e.chosen px).bytes = [(hash px).setWidth 8] := by
  rw [Enc.chosen, if_pos (hit_iff.2 h), Chunk.bytes, indexBytes_eq_setWidth]

theorem Enc.chosen_bytes_of_alpha_ne (hmiss : e.cache.read (hash px) ≠ px) (ha : px.a ≠ e.prev.a) :
    (e.chosen px).bytes = [0xFF, px.r, px.g, px.b, px.a] := by
  rw [Enc.chosen, if_neg (mt hit_iff.1 hmiss), if_neg (mt alphaSame_iff.1 ha)]
  rfl

/-- On a miss with unchanged alpha the deltas decide. -/
theorem Enc.chosen_of_alpha_eq (hmiss : e.cache.read (hash px) ≠ px) (ha : px.a = e.prev.a) :
    e.chosen px =
      if diffOk e px then .diff (px.r - e.prev.r).toInt (px.g - e.prev.g).toInt (px.b - e.prev.b).toInt
      else if lumaOk e px then
        .luma (px.g - e.prev.g).toInt ((px.r - e.prev.r).toInt - (px.g - e.prev.g).toInt)
          ((px.b - e.prev.b).toInt - (px.g - e.prev.g).toInt)
      else .rgb px.r px.g px.b := by
  rw [Enc.chosen, if_neg (mt hit_iff.1 hmiss), if_pos (alphaSame_iff.2 ha)]
  simp only [delta_toInt]

section
variable (hmiss : e.cache.read (hash px) ≠ px) (ha : px.a = e.prev.a)
include hmiss ha

theorem Enc.chosen_bytes_of_diffOk (h : diffOk e px = true) : (e.chosen px).bytes =
    [diffByte (px.r - e.prev.r) (px.g - e.prev.g) (px.b - e.prev.b)] := by
  rw [Enc.chosen_of_alpha_eq hmiss ha, if_pos h]
  simp only [diffOk, delta_toInt] at h
  exact diffBytes_eq _ _ _ h

theorem Enc.chosen_bytes_of_lumaOk (hd : ¬diffOk e px = true) (h : lumaOk e px = true) :
    (e.chosen px).bytes =
      [lumaByte0 (px.g - e.prev.g),
        lumaByte1 (px.r - e.prev.r) (px.g - e.prev.g) (px.b - e.prev.b)] := by
  rw [Enc.chosen_of_alpha_eq hmiss ha, if_neg hd, if_pos h]
  simp only [lumaOk, delta_toInt] at h
  exact lumaBytes_eq _ _ _ h

theorem Enc.chosen_bytes_of_not_ok (hd : ¬diffOk e px = true) (hl : ¬lumaOk e px = true) :
    (e.chosen px).bytes = [0xFE, px.r, px.g, px.b] := by
  rw [Enc.chosen_of_alpha_eq hmiss ha, if_neg hd, if_neg hl]
  rfl

end

end

/-! ### A pixel that differs from the previous one (R175 to R182) -/

section
variable {s : State} {px : Pixel} (hm : s.enc.mode = .active) (hr : s.enc.run ≤ 61)
  (hne : px ≠ s.enc.prev)
include hm hr hne

/-- On a hit the cache is left as it is. -/
theorem exec_encPixel_hit (hhit : s.enc.cache.read (hash px) = px) :
    exec (.encPixel px) s = .next { s with
      enc := { s.enc with
        prev := px, run := 0, pi := s.enc.pi + 1
        out := s.enc.out ++ pendingBytes s.enc.run ++ [(hash px).setWidth 8] }
      response := .done } := by
  have hpixel := s.enc.pixel_ne px hne (by omega)
  rw [if_pos (hit_iff.2 hhit), Enc.chosen_bytes_of_hit hhit] at hpixel
  exact exec_of_encStep_ok (exec_encPixel s px) hm hpixel

/-- On a miss the pixel is cached at its hash and the chosen chunk emitted. -/
theorem exec_encPixel_miss {bs : List Byte} (hmiss : s.enc.cache.read (hash px) ≠ px)
    (hbs : (s.enc.chosen px).bytes = bs) :
    exec (.encPixel px) s = .next { s with
      enc := { s.enc with
        prev := px, run := 0, pi := s.enc.pi + 1, cache := s.enc.cache.write (hash px) px
        out := s.enc.out ++ pendingBytes s.enc.run ++ bs }
      response := .done } := by
  have hpixel := s.enc.pixel_ne px hne (by omega)
  rw [if_neg (mt hit_iff.1 hmiss), hbs] at hpixel
  exact exec_of_encStep_ok (exec_encPixel s px) hm hpixel

end

/-- Settles O30, by the selector's choice on a hit. -/
theorem cacheHitEmitsIndex : Obligations.CacheHitEmitsIndex :=
  fun _ _ => exec_encPixel_hit

/-- Settles O31, by the selector's choice on deltas in Diff's range. -/
theorem smallDeltasEmitDiff : Obligations.SmallDeltasEmitDiff := by
  rintro s px _ _ _ hm hr hne hmiss ha rfl rfl rfl hd
  exact exec_encPixel_miss hm hr hne hmiss (Enc.chosen_bytes_of_diffOk hmiss ha (diffOk_iff.2 hd))

/-- Settles O32, by the selector's choice on deltas outside Diff's range and in Luma's. -/
theorem mediumDeltasEmitLuma : Obligations.MediumDeltasEmitLuma := by
  rintro s px _ _ _ hm hr hne hmiss ha rfl rfl rfl hd hl
  exact exec_encPixel_miss hm hr hne hmiss
    (Enc.chosen_bytes_of_lumaOk hmiss ha (mt diffOk_iff.1 hd) (lumaOk_iff.2 hl))

/-- Settles O33, by the selector's choice on deltas outside both ranges. -/
theorem largeDeltasEmitRgb : Obligations.LargeDeltasEmitRgb := by
  rintro s px _ _ _ hm hr hne hmiss ha rfl rfl rfl hd hl
  exact exec_encPixel_miss hm hr hne hmiss
    (Enc.chosen_bytes_of_not_ok hmiss ha (mt diffOk_iff.1 hd) (mt lumaOk_iff.1 hl))

/-- Settles O34, by the selector's choice on another alpha. -/
theorem alphaChangeEmitsRgba : Obligations.AlphaChangeEmitsRgba :=
  fun _ _ hm hr hne hmiss ha =>
    exec_encPixel_miss hm hr hne hmiss (Enc.chosen_bytes_of_alpha_ne hmiss ha)

end Sys2Proof.Machine
end

section
/-! A whole encode call: ENC.START, an ENC.PIXEL for each pixel, ENC.END (43_encoder_fsm.md R170, R174,
R185). -/

namespace Sys2Proof.Machine

/-! ### The call as one composition -/

theorem execSeq_encPixels_encEnd (ps : List Pixel) (s : State) :
    execSeq (ps.map .encPixel ++ [.encEnd]) s = .next (State.encPixels ps s).encEnd := by
  induction ps generalizing s with
  | nil => rfl
  | cons p ps ih => exact ih (s.encPixel p)

/-- An encode call is FILE.ENCODE's composition of the three commands. -/
theorem execSeq_encodeCall (ps : List Pixel) (s : State) :
    execSeq (encodeCall ps) s = .next (State.encPixels ps s.encStart).encEnd :=
  execSeq_encPixels_encEnd ps s.encStart

/-- Settles O38: the pixels keep the call active with its run in range, so ENC.END completes; the invariant,
which holds after ENC.START in whatever state, bounds the output. -/
theorem everyEncodeCallCompletes : Obligations.EveryEncodeCallCompletes := by
  intro s ps
  obtain ⟨hm, hr, hpi⟩ := State.encPixels_active ps s.encStart rfl (Nat.zero_le 61)
  have hsize := (State.encEnd_inv (State.encPixels_inv ps s.encStart_inv)).size_le
  refine ⟨_, execSeq_encodeCall ps s, ?_⟩
  rw [State.encEnd_ok hm hr] at hsize ⊢
  have hpi : (State.encPixels ps s.encStart).enc.pi = ps.length := hpi.trans (Nat.zero_add _)
  exact ⟨rfl, hpi, hpi ▸ hsize, rfl⟩

/-! ### Pixels equal to the previous one -/

/-- The run counter counts modulo 62, and each time it wraps the byte of a full run is emitted (R174). -/
theorem Enc.pixel_prev_eq_mod (e : Enc) (h : e.run ≤ 61) : Enc.pixel e.prev e = .ok { e with
    run := (e.run + 1) % 62, pi := e.pi + 1
    out := e.out ++ List.replicate ((e.run + 1) / 62) 0xFD } := by
  rw [Enc.pixel_run]
  split
  · rename_i hfull
    rw [hfull]
    rfl
  · rw [Nat.mod_eq_of_lt (by omega), Nat.div_eq_of_lt (by omega), List.replicate_zero, List.append_nil]

theorem State.encPixels_replicate_prev (n : Nat) : ∀ s : State,
    s.enc.mode = .active → s.enc.run ≤ 61 →
    (State.encPixels (List.replicate n s.enc.prev) s).enc = { s.enc with
      run := (n + s.enc.run) % 62, pi := n + s.enc.pi
      out := s.enc.out ++ List.replicate ((n + s.enc.run) / 62) 0xFD } := by
  induction n with
  | zero =>
    intro s _ hr
    simp only [Nat.zero_add, Nat.mod_eq_of_lt (Nat.lt_succ_of_le hr), Nat.div_eq_of_lt (Nat.lt_succ_of_le hr),
      List.replicate_zero, List.append_nil]
    rfl
  | succ n ih =>
    intro s hm hr
    have hstep := State.encStep_ok hm (s.enc.pixel_prev_eq_mod hr)
    have hrun : (n + (s.enc.run + 1) % 62) % 62 = (n + 1 + s.enc.run) % 62 := by omega
    have hfull : (s.enc.run + 1) / 62 + (n + (s.enc.run + 1) % 62) / 62 = (n + 1 + s.enc.run) / 62 := by
      omega
    have hpi : n + (s.enc.pi + 1) = n + 1 + s.enc.pi := by omega
    have ih := ih (s.encPixel s.enc.prev)
    rw [State.encPixel, hstep] at ih
    simp only [State.respond_enc, State.setEnc_enc, List.append_assoc, List.replicate_append_replicate,
      hrun, hfull, hpi] at ih
    rw [List.replicate_succ, State.encPixels, State.encPixel, hstep]
    exact ih hm (Nat.le_of_lt_succ (Nat.mod_lt _ (Nat.succ_pos 61)))

/-- ENC after `n` pixels equal to PREV_INIT. -/
theorem State.encPixels_encStart_replicate (s : State) (n : Nat) :
    (State.encPixels (List.replicate n s.cfg.prevInit) s.encStart).enc = { Enc.start s.cfg with
      run := n % 62, pi := n, out := List.replicate (n / 62) 0xFD } :=
  State.encPixels_replicate_prev n s.encStart rfl (Nat.zero_le 61)

/-- Settles O39: n pixels from a run of 0 wrap the counter n / 62 times and leave n mod 62 for ENC.END. -/
theorem longRunsAreSplit : Obligations.LongRunsAreSplit := by
  intro s n
  have henc := s.encPixels_encStart_replicate n
  have hr : n % 62 ≤ 61 := Nat.le_of_lt_succ (Nat.mod_lt n (Nat.succ_pos 61))
  refine ⟨_, execSeq_encodeCall _ s, ?_⟩
  rw [State.encEnd_ok (by rw [henc, Enc.start_mode]) (by rw [henc]; exact hr)]
  dsimp only
  rw [henc]

end Sys2Proof.Machine
end

section
/-! The chunks as DEC executes them: the pixel each stands for, and the one COMMIT each is behind the checks
of R202 (44_decoder_fsm.md R203 to R209). -/

namespace Sys2Proof

/-- The types whose COMMIT writes the color cache (44_decoder_fsm.md R209). -/
def Chunk.isCached : Chunk → Bool
  | .index _ | .run _ => false
  | .diff _ _ _ | .luma _ _ _ | .rgb _ _ _ | .rgba _ _ _ _ => true

namespace Machine

/-- What the pixel of a chunk depends on, and all that ENC and DEC must agree on between chunks: the previous
pixel and the color cache (41_hash_and_cache.md R134). -/
structure Context where
  prev : Pixel
  cache : Cache

/-- The pixel of a chunk (44_decoder_fsm.md R203 to R208). -/
def Context.pixel (x : Context) : Chunk → Pixel
  | .index slot => x.cache.read slot
  | .diff dr dg db => diffPixel x.prev dr dg db
  | .luma dg drDg dbDg => lumaPixel x.prev dg drDg dbDg
  | .run _ => x.prev
  | .rgb r g b => rgbPixel x.prev r g b
  | .rgba r g b a => ⟨r, g, b, a⟩

/-- DEC's part of what a chunk depends on. -/
def Dec.context (d : Dec) : Context := ⟨d.prev, d.cache⟩

/-- DEC's registers after a chunk that passes its checks. -/
def Dec.chunk (d : Dec) (c : Chunk) : Dec := d.commit c.isCached (d.context.pixel c) c.pixels c.size

theorem execChunk_eq (c : Chunk) (s : State) :
    execChunk c s = s.chunkStep c.isCached (s.dec.context.pixel c) c.pixels c.size := by
  cases c <;> rfl

/-! ### The outcomes of a chunk in a call -/

section
variable {s : State} {c : Chunk} (hm : s.dec.mode = .active)
  (hip : s.dec.ip + c.size ≤ s.dec.input.length)
include hm hip

theorem execChunk_ok (hop : s.dec.op + c.pixels ≤ s.dec.npix) :
    execChunk c s = { s with dec := s.dec.chunk c, response := .done } := by
  have hsize := c.size_pos
  rw [execChunk_eq, State.chunkStep_ok hm (by omega) hip hop]
  rfl

theorem execChunk_overflow (hop : s.dec.npix < s.dec.op + c.pixels) :
    execChunk c s = decFault s .pixelOverflow := by
  have hsize := c.size_pos
  rw [execChunk_eq, State.chunkStep, if_neg (not_not.2 ⟨hm, by omega⟩), if_neg (not_not.2 hip),
    if_pos (by omega), decFault_eq]

theorem exec_chunk_ok (hop : s.dec.op + c.pixels ≤ s.dec.npix) :
    exec c.toInstr s = .next { s with dec := s.dec.chunk c, response := .done } := by
  rw [exec_chunk, execChunk_ok hm hip hop]

end

/-! ### The pixels of Diff and Luma as sums of 8-bit patterns (R204, R205) -/

theorem diffPixel_eq (p : Pixel) (dr dg db : Int) : diffPixel p dr dg db =
    ⟨p.r + BitVec.ofInt 8 dr, p.g + BitVec.ofInt 8 dg, p.b + BitVec.ofInt 8 db, p.a⟩ := by
  simp only [diffPixel, add8_ofInt]

theorem lumaPixel_eq (p : Pixel) (dg drDg dbDg : Int) : lumaPixel p dg drDg dbDg =
    ⟨p.r + BitVec.ofInt 8 dg + BitVec.ofInt 8 drDg, p.g + BitVec.ofInt 8 dg,
      p.b + BitVec.ofInt 8 dg + BitVec.ofInt 8 dbDg, p.a⟩ := by
  simp only [lumaPixel, add8_ofInt, BitVec.ofInt_add, BitVec.add_assoc]

/-! ### Each chunk's result -/

/-- Settles O18: a COMMIT of the slot's pixel without a cache write. -/
theorem indexChunkResult : Obligations.IndexChunkResult :=
  fun _ slot hm hip hop => exec_chunk_ok (c := .index slot) hm hip hop

/-- Settles O19: a COMMIT, with a cache write, of the wrapping sums. -/
theorem diffChunkResult : Obligations.DiffChunkResult := by
  rintro s dr dg db px hm hip hop rfl
  rw [← diffPixel_eq]
  exact exec_chunk_ok (c := .diff dr dg db) hm hip hop

/-- Settles O20: a COMMIT, with a cache write, of the wrapping sums. -/
theorem lumaChunkResult : Obligations.LumaChunkResult := by
  rintro s dg drDg dbDg px hm hip hop rfl
  rw [← lumaPixel_eq]
  exact exec_chunk_ok (c := .luma dg drDg dbDg) hm hip hop

/-- Settles O22: a COMMIT, with a cache write, of the channels the chunk carries. -/
theorem rgbAndRgbaChunkResult : Obligations.RgbAndRgbaChunkResult := by
  refine fun s r g b a px hm hop => ⟨?_, ?_⟩
  · rintro hip rfl
    exact exec_chunk_ok (c := .rgb r g b) hm hip hop
  · rintro hip rfl
    exact exec_chunk_ok (c := .rgba r g b a) hm hip hop

/-- Settles O21: a COMMIT of copies of the previous pixel without a cache write. -/
theorem runChunkResult : Obligations.RunChunkResult := fun s length hm hip hop =>
  ⟨_, exec_chunk_ok (c := .run length) hm hip hop, rfl,
    fun k => Memory.readPixel_writeCopies_same length s.dec.out s.dec.op k s.dec.prev,
    Memory.read_writeCopies_other length s.dec.out s.dec.op s.dec.prev⟩

end Machine

end Sys2Proof
end

section
/-! The three commands of DEC: DEC.START, DEC.STEP and DEC.FINISH (44_decoder_fsm.md R201, R202, R210). -/

namespace Sys2Proof.Machine

theorem exec_decStart (bytes : Seq) (w h : Word) (s : State) :
    exec (.decStart bytes w h) s = .next (s.decStart bytes w h) := rfl

theorem exec_decStep (s : State) : exec .decStep s = .next s.decStep := rfl

theorem exec_decFinish (s : State) : exec .decFinish s = .next s.decFinish := rfl

/-! ### DEC.START (R201) -/

theorem State.decStart_none (s : State) (w h : Word) :
    s.decStart none w h = decFault s .nullOperand := (decFault_eq s _).symm

/-- Settles O23: DEC.START asks nothing of the state but a stream. -/
theorem decStartResult : Obligations.DecStartResult := by
  refine fun s bytes w h => ⟨exec_decStart (some bytes) w h s, fun _ => ?_⟩
  rw [exec_decStart, State.decStart_none]

/-! ### DEC.FINISH (R210) -/

section
variable {s : State}

theorem State.decFinish_ok (hm : s.dec.mode = .active) (hip : s.dec.ip = s.dec.input.length)
    (hop : s.dec.op = s.dec.npix) :
    s.decFinish = { s with dec := { s.dec with mode := .done }, response := .buffer s.dec.out } := by
  rw [State.decFinish, if_neg (not_not.2 ⟨hm, hip⟩), if_neg (not_not.2 hop)]
  rfl

theorem State.decFinish_underflow (hm : s.dec.mode = .active) (hip : s.dec.ip = s.dec.input.length)
    (hop : s.dec.op ≠ s.dec.npix) : s.decFinish = decFault s .pixelUnderflow := by
  rw [State.decFinish, if_neg (not_not.2 ⟨hm, hip⟩), if_pos hop, decFault_eq]

theorem State.decFinish_protocol (h : s.dec.mode ≠ .active ∨ s.dec.ip ≠ s.dec.input.length) :
    s.decFinish = decFault s .protocol := by
  rw [State.decFinish, if_pos (not_and_or.2 h), decFault_eq]

end

/-- Settles O25: the two checks of R210 in their order. -/
theorem decFinishResult : Obligations.DecFinishResult := by
  refine fun s => ⟨fun hm hip hop => ?_, fun hm hip hop => ?_, fun h => ?_⟩
  · rw [exec_decFinish, State.decFinish_ok hm hip hop]
  · rw [exec_decFinish, State.decFinish_underflow hm hip hop]
  · rw [exec_decFinish, State.decFinish_protocol h]

/-! ### DEC.STEP (R202) -/

section
variable {s : State}

theorem State.decStep_protocol (h : s.dec.mode ≠ .active ∨ s.dec.input.length ≤ s.dec.ip) :
    s.decStep = decFault s .protocol := by
  rw [State.decStep, if_pos (not_and_or.2 (h.imp_right Nat.not_lt.2)), decFault_eq]

variable (hm : s.dec.mode = .active) (hip : s.dec.ip < s.dec.input.length)
include hm hip

/-- Where a chunk is read at `dec.ip`, the step executes it. -/
theorem State.decStep_of_ok {c : Chunk} {rest : List Byte}
    (h : decodeChunk (s.dec.input.drop s.dec.ip) = .ok (c, rest)) : s.decStep = execChunk c s := by
  rw [State.decStep, if_neg (not_not.2 ⟨hm, hip⟩), h]

theorem State.decStep_of_error {e : DecodeError}
    (h : decodeChunk (s.dec.input.drop s.dec.ip) = .error e) : s.decStep = decFault s .truncatedChunk := by
  rw [State.decStep, if_neg (not_not.2 ⟨hm, hip⟩), h, decFault_eq]

end

/-- What the decoder of the chunk space answers is the instruction of the chunk read. -/
theorem decode_chunk_ok {bs rest : List Byte} {i : Instr} (h : decode .chunk bs = .ok (i, rest)) :
    ∃ c, decodeChunk bs = .ok (c, rest) ∧ i = c.toInstr := by
  rw [decode] at h
  split at h <;> cases h
  exact ⟨_, ‹_›, rfl⟩

/-- Settles O6: the chunk's instruction and DEC.STEP run the same operation. -/
theorem decStepRunsDecodedChunk : Obligations.DecStepRunsDecodedChunk := by
  intro s i rest hm hip h
  obtain ⟨c, hc, rfl⟩ := decode_chunk_ok h
  rw [exec_decStep, exec_chunk, State.decStep_of_ok hm hip hc]

/-- The byte at a position, with the bytes after it. -/
theorem drop_eq_cons_of_getElem? {α : Type} {l : List α} {n : Nat} {x : α} (h : l[n]? = some x) :
    ∃ rest, l.drop n = x :: rest ∧ n + (rest.length + 1) = l.length := by
  obtain ⟨hn, rfl⟩ := List.getElem?_eq_some_iff.1 h
  refine ⟨_, List.drop_eq_getElem_cons hn, ?_⟩
  rw [List.length_drop]
  omega

section
variable {s : State} {b : Byte} (hm : s.dec.mode = .active) (hb : s.dec.input[s.dec.ip]? = some b)
include hm hb

/-- With fewer bytes left than the lead byte asks for, the chunk is cut. -/
theorem State.decStep_truncated (h : s.dec.input.length < s.dec.ip + chunkLength b) :
    s.decStep = decFault s .truncatedChunk := by
  obtain ⟨rest, hdrop, hlen⟩ := drop_eq_cons_of_getElem? hb
  refine State.decStep_of_error (e := .truncated) hm (by omega) ?_
  rw [hdrop, decodeChunk_truncated b rest (by omega)]

/-- With the bytes the lead byte asks for, the step executes a chunk of that length and those pixels. -/
theorem State.decStep_complete (h : s.dec.ip + chunkLength b ≤ s.dec.input.length) :
    ∃ c, s.decStep = execChunk c s ∧ c.toInstr.wellFormed = true ∧ c.size = chunkLength b ∧
      c.pixels = chunkPixels b := by
  obtain ⟨rest, hdrop, hlen⟩ := drop_eq_cons_of_getElem? hb
  obtain ⟨c, hc, hwf, -, hsize, hpixels⟩ := decodeChunk_complete b rest (by omega)
  rw [← hdrop] at hc
  exact ⟨c, State.decStep_of_ok hm (by omega) hc, hwf, hsize, hpixels⟩

end

/-- Settles O24: the chunk at `dec.ip` is cut, or does not fit, or commits the pixels its lead byte gives. -/
theorem decStepResult : Obligations.DecStepResult := by
  refine fun s b => ⟨fun h => ?_, fun hm hb => ⟨fun h => ?_, fun hlen hop => ?_, fun hlen hop => ?_⟩⟩
  · rw [exec_decStep, State.decStep_protocol h]
  · rw [exec_decStep, State.decStep_truncated hm hb h]
  · obtain ⟨c, hstep, -, hsize, hpixels⟩ := State.decStep_complete hm hb hlen
    rw [← hsize] at hlen
    rw [← hpixels] at hop
    rw [exec_decStep, hstep, execChunk_overflow hm hlen hop]
  · obtain ⟨c, hstep, hwf, hsize, hpixels⟩ := State.decStep_complete hm hb hlen
    rw [← hsize] at hlen ⊢
    rw [← hpixels] at hop ⊢
    rw [exec_decStep, hstep, execChunk_ok hm hlen hop]
    exact ⟨_, rfl, rfl, hm, rfl, rfl, c.size_pos, c.pixels_pos hwf,
      fun k => Memory.readPixel_writeCopies_same c.pixels s.dec.out s.dec.op k _,
      Memory.read_writeCopies_other c.pixels s.dec.out s.dec.op _⟩

end Sys2Proof.Machine
end

section
/-! A buffer written pixel after pixel: what it holds, and what the host reads of it (10_state.md R34;
20_memory.md R53). -/

namespace Sys2Proof.Machine

/-- `PixWrite` of pixels one after another from a position. -/
def Memory.writePixels (m : Memory) (pos : Nat) : List Pixel → Memory
  | [] => m
  | p :: ps => Memory.writePixels (m.writePixel pos p) (pos + 1) ps

/-- Copies of a pixel followed by more pixels are pixels one after another. -/
theorem Memory.writePixels_replicate_append (n : Nat) (p : Pixel) (ps : List Pixel) :
    ∀ (m : Memory) (pos : Nat), m.writePixels pos (List.replicate n p ++ ps) =
      (m.writeCopies pos n p).writePixels (pos + n) ps := by
  induction n with
  | zero => exact fun _ _ => rfl
  | succ n ih =>
    intro m pos
    rw [List.replicate_succ, List.cons_append, Memory.writePixels, ih, Memory.writeCopies,
      Nat.add_assoc, Nat.add_comm 1 n]

theorem Memory.holds_nil : Memory.Holds [] [] :=
  ⟨fun addr => by simp, fun pos h => by simp at h⟩

/-- A pixel written where the buffer's pixels end. -/
theorem Memory.Holds.writePixel {m : Memory} {ps : List Pixel} (h : m.Holds ps) (p : Pixel) :
    (m.writePixel ps.length p).Holds (ps ++ [p]) := by
  obtain ⟨hsome, hread⟩ := h
  constructor
  · intro addr
    have hone := Memory.isSome_writeCopies 1 m ps.length p addr
    rw [Memory.writeCopies, Memory.writeCopies, hsome] at hone
    rw [hone, List.length_append, List.length_singleton]
    omega
  · intro pos hpos
    rw [List.length_append, List.length_singleton] at hpos
    obtain hlt | rfl := Nat.lt_succ_iff_lt_or_eq.1 hpos
    · rw [Memory.readPixel_writePixel_other _ _ _ _ (by omega), hread pos hlt, List.getElem_append_left]
    · rw [Memory.readPixel_writePixel_same, List.getElem_concat_length rfl]

theorem Memory.Holds.writePixels (ps : List Pixel) : ∀ {m : Memory} {qs : List Pixel}, m.Holds qs →
    (m.writePixels qs.length ps).Holds (qs ++ ps) := by
  induction ps with
  | nil => exact fun h => by simpa [Memory.writePixels] using h
  | cons p ps ih => exact fun h => by simpa [Memory.writePixels] using ih (h.writePixel p)

/-- In mode DONE the host reads what the buffer holds. -/
theorem readDecOut_of_holds {s : State} {ps : List Pixel} {pos : Nat} (hm : s.dec.mode = .done)
    (hout : s.dec.out.Holds ps) (hpos : pos < s.dec.npix) (hlen : pos < ps.length) :
    readDecOut s pos = .next ps[pos] := by
  obtain ⟨-, hread⟩ := hout
  rw [readDecOut, if_pos hm, if_pos hpos, hread pos hlen]

end Sys2Proof.Machine
end

section
/-! A whole decode call: DEC.START, a DEC.STEP for each chunk of the stream, DEC.FINISH
(44_decoder_fsm.md R200, R213). -/

namespace Sys2Proof.Machine

/-! ### The chunks of a stream on what their pixels depend on -/

/-- What both machines hold after START (43_encoder_fsm.md R171, 44_decoder_fsm.md R201). -/
def Context.start (cfg : Config) : Context := ⟨cfg.prevInit, Cache.clear⟩

/-- A chunk's pixel becomes the previous one, and is cached where its type says so (R209). -/
def Context.after (x : Context) (c : Chunk) : Context where
  prev := x.pixel c
  cache := if c.isCached then x.cache.write (hash (x.pixel c)) (x.pixel c) else x.cache

/-- The pixels of a stream. -/
def Context.pixels (x : Context) : List Chunk → List Pixel
  | [] => []
  | c :: cs => List.replicate c.pixels (x.pixel c) ++ (x.after c).pixels cs

theorem Context.pixels_length (cs : List Chunk) : ∀ x : Context,
    (x.pixels cs).length = (cs.map Chunk.pixels).sum := by
  induction cs with
  | nil => exact fun _ => rfl
  | cons c cs ih =>
    intro x
    rw [Context.pixels, List.length_append, List.length_replicate, ih, List.map_cons, List.sum_cons]

/-! ### DEC's registers after a stream -/

/-- DEC's registers after the chunks of a stream. -/
def Dec.chunks (d : Dec) (cs : List Chunk) : Dec :=
  { d with
    out := d.out.writePixels d.op (d.context.pixels cs)
    op := d.op + (cs.map Chunk.pixels).sum
    ip := d.ip + (cs.flatMap Chunk.bytes).length
    prev := (cs.foldl Context.after d.context).prev
    cache := (cs.foldl Context.after d.context).cache }

theorem Dec.chunk_context (d : Dec) (c : Chunk) : (d.chunk c).context = d.context.after c := rfl

theorem Dec.chunks_cons (d : Dec) (c : Chunk) (cs : List Chunk) :
    d.chunks (c :: cs) = (d.chunk c).chunks cs := by
  simp only [Dec.chunks, Dec.chunk_context, List.foldl_cons, Context.pixels,
    Memory.writePixels_replicate_append, List.map_cons, List.sum_cons, List.flatMap_cons,
    List.length_append, Chunk.bytes_length]
  simp only [Dec.chunk, Dec.commit, Nat.add_assoc]

/-- In a call, a DEC.STEP at the bytes of a well-formed chunk that fits commits this chunk. -/
theorem State.decStep_chunk {s : State} {c : Chunk} {rest : List Byte} (hm : s.dec.mode = .active)
    (hwf : c.toInstr.wellFormed = true) (hin : s.dec.input.drop s.dec.ip = c.bytes ++ rest)
    (hop : s.dec.op + c.pixels ≤ s.dec.npix) :
    s.decStep = { s with dec := s.dec.chunk c, response := .done } := by
  have hsize := c.size_pos
  have hlen := congrArg List.length hin
  rw [List.length_drop, List.length_append, c.bytes_length] at hlen
  have hread := decodeChunk_bytes c rest hwf
  rw [← hin] at hread
  rw [State.decStep_of_ok hm (by omega) hread, execChunk_ok hm (by omega) hop]

/-- As many DEC.STEPs as the stream at `dec.ip` has chunks commit these chunks, whatever follows them. -/
theorem State.decStep_iterate_chunks (cs : List Chunk) : ∀ {s : State} {rest : List Byte},
    s.dec.mode = .active → (∀ c ∈ cs, c.toInstr.wellFormed = true) →
    s.dec.input.drop s.dec.ip = cs.flatMap Chunk.bytes ++ rest →
    s.dec.op + (cs.map Chunk.pixels).sum ≤ s.dec.npix →
    (State.decStep^[cs.length] s).dec = s.dec.chunks cs := by
  induction cs with
  | nil => exact fun _ _ _ _ => rfl
  | cons c cs ih =>
    intro s rest hm hwf hin hop
    obtain ⟨hc, hcs⟩ := List.forall_mem_cons.1 hwf
    rw [List.map_cons, List.sum_cons] at hop
    rw [List.flatMap_cons, List.append_assoc] at hin
    have hnext : (s.dec.chunk c).input.drop (s.dec.chunk c).ip = cs.flatMap Chunk.bytes ++ rest := by
      rw [Dec.chunk, Dec.commit_input, Dec.commit_ip, ← List.drop_drop, hin, ← c.bytes_length,
        List.drop_left]
    have hfits : (s.dec.chunk c).op + (cs.map Chunk.pixels).sum ≤ (s.dec.chunk c).npix := by
      rw [Dec.chunk, Dec.commit_op, Dec.commit_npix]
      omega
    rw [List.length_cons, Function.iterate_succ_apply, State.decStep_chunk hm hc hin (by omega),
      Dec.chunks_cons]
    exact ih hm hcs hnext hfits

/-! ### The call -/

theorem execSeq_decSteps_decFinish (k : Nat) (s : State) :
    execSeq (List.replicate k .decStep ++ [.decFinish]) s = .next (State.decStep^[k] s).decFinish := by
  induction k generalizing s with
  | zero => rfl
  | succ k ih => exact ih s.decStep

/-- DEC's registers after DEC.START and the chunks of a stream. -/
def Dec.afterStream (cfg : Config) (cs : List Chunk) (w h : Word) : Dec :=
  (Dec.start cfg (cs.flatMap Chunk.bytes) w h).chunks cs

theorem Dec.afterStream_holds (cfg : Config) (cs : List Chunk) (w h : Word) :
    (Dec.afterStream cfg cs w h).out.Holds ((Context.start cfg).pixels cs) :=
  Memory.holds_nil.writePixels _

/-- The decode call of a valid stream completes, and its result is the buffer. -/
theorem execSeq_decodeCall_stream (s : State) {cs : List Chunk} {w h : Word}
    (hwf : ∀ c ∈ cs, c.toInstr.wellFormed = true)
    (hsum : (cs.map Chunk.pixels).sum = w.toNat * h.toNat) :
    ∃ t, execSeq (decodeCall (cs.flatMap Chunk.bytes) w h cs.length) s = .next t ∧
      t.dec = { Dec.afterStream s.cfg cs w h with mode := .done } ∧ t.response = .buffer t.dec.out := by
  have hsteps : (State.decStep^[cs.length] (s.decStart (some (cs.flatMap Chunk.bytes)) w h)).dec =
      Dec.afterStream s.cfg cs w h :=
    State.decStep_iterate_chunks cs rfl hwf (List.append_nil _).symm
      (((Nat.zero_add _).trans hsum).le)
  refine ⟨_, execSeq_decSteps_decFinish _ _, ?_⟩
  rw [State.decFinish_ok (by rw [hsteps]; rfl) (by rw [hsteps]; exact Nat.zero_add _)
    (by rw [hsteps]; exact (Nat.zero_add _).trans hsum)]
  exact ⟨by rw [hsteps], rfl⟩

/-- Settles O26: the call completes with the pixels of the stream in the buffer, and these are as many as the
positions the host may read. -/
theorem everyValidStreamDecodes : Obligations.EveryValidStreamDecodes := by
  intro s cs w h hwf hsum
  obtain ⟨t, hexec, hdec, hresponse⟩ := execSeq_decodeCall_stream s hwf hsum
  have hm : t.dec.mode = .done := by rw [hdec]
  have hout : t.dec.out.Holds ((Context.start s.cfg).pixels cs) := by
    rw [hdec]
    exact Dec.afterStream_holds s.cfg cs w h
  refine ⟨t, hexec, hm, ?_, hresponse, fun pos hpos => ?_⟩
  · rw [hdec]
    exact (Nat.zero_add _).trans hsum
  · refine ⟨_, readDecOut_of_holds hm hout ?_ ?_⟩
    · rw [hdec]
      exact hpos
    · rwa [Context.pixels_length, hsum]

end Sys2Proof.Machine
end

section
/-! The round trip of a stream: the chunks ENC has emitted, with the run it has pending, stand for the pixels
it was given, and leave in DEC what ENC holds (41_hash_and_cache.md R134; 44_decoder_fsm.md R212). -/

namespace Sys2Proof.Machine

/-! ### Streams one chunk longer -/

theorem Context.pixels_concat (cs : List Chunk) (c : Chunk) : ∀ x : Context,
    x.pixels (cs ++ [c]) =
      x.pixels cs ++ List.replicate c.pixels ((cs.foldl Context.after x).pixel c) := by
  induction cs with
  | nil => exact fun x => List.append_nil _
  | cons d cs ih =>
    intro x
    rw [List.cons_append, Context.pixels, ih, Context.pixels, List.append_assoc, List.foldl_cons]

/-! ### The chunk the selector chooses -/

/-- ENC's part of what a chunk depends on. -/
def Enc.context (e : Enc) : Context := ⟨e.prev, e.cache⟩

section
variable (e : Enc) (px : Pixel)

theorem Enc.chosen_wellFormed : (e.chosen px).toInstr.wellFormed = true := by
  unfold Enc.chosen
  split_ifs with _ _ hdiff hluma
  · rfl
  · exact hdiff
  · exact hluma
  · rfl
  · rfl

theorem Enc.chosen_pixels : (e.chosen px).pixels = 1 := by
  unfold Enc.chosen
  split_ifs <;> rfl

/-- The chosen chunk stands for the pixel: a hit is a slot that holds it, the deltas lead back to it. -/
theorem Enc.chosen_pixel : e.context.pixel (e.chosen px) = px := by
  unfold Enc.chosen
  split_ifs with hhit halpha
  · exact hit_iff.1 hhit
  · exact diffPixel_delta (alphaSame_iff.1 halpha)
  · exact lumaPixel_delta (alphaSame_iff.1 halpha)
  · exact rgbPixel_self (alphaSame_iff.1 halpha)
  · rfl

/-- DEC writes its cache after exactly the chunks of a miss (R133). -/
theorem Enc.chosen_isCached : (e.chosen px).isCached = !hit e px := by
  unfold Enc.chosen
  split_ifs with hhit <;> simp [hhit, Chunk.isCached]

theorem Enc.context_after_chosen : e.context.after (e.chosen px) =
    ⟨px, if hit e px then e.cache else e.cache.write (hash px) px⟩ := by
  rw [Context.after, e.chosen_pixel px, e.chosen_isCached px]
  cases hit e px <;> rfl

end

/-! ### The lock-step of ENC and a decoder of its stream -/

/-- ENC's output is a stream of well-formed chunks that leaves a decoder with ENC's previous pixel and cache,
and whose pixels, with the pending run, are the given ones. -/
def Enc.Encodes (cfg : Config) (e : Enc) (ps : List Pixel) : Prop :=
  ∃ cs : List Chunk, (∀ c ∈ cs, c.toInstr.wellFormed = true) ∧ e.out = cs.flatMap Chunk.bytes ∧
    cs.foldl Context.after (Context.start cfg) = e.context ∧
    (Context.start cfg).pixels cs ++ List.replicate e.run e.prev = ps

section
variable {cfg : Config} {e : Enc} {ps : List Pixel}

theorem Enc.encodes_start (cfg : Config) : (Enc.start cfg).Encodes cfg [] := ⟨[], nofun, rfl, rfl, rfl⟩

/-- The pending run grows by the previous pixel. -/
theorem Enc.Encodes.extend (h : e.Encodes cfg ps) :
    Enc.Encodes cfg { e with run := e.run + 1, pi := e.pi + 1 } (ps ++ [e.prev]) := by
  obtain ⟨cs, hwf, hout, hctx, rfl⟩ := h
  exact ⟨cs, hwf, hout, hctx, by rw [List.replicate_succ', List.append_assoc]⟩

/-- A chunk at the end of the stream takes a decoder of it one chunk further. -/
theorem Enc.encodes_of_chunk {e' : Enc} {cs : List Chunk} {c : Chunk}
    (hwf : ∀ c ∈ cs, c.toInstr.wellFormed = true) (hc : c.toInstr.wellFormed = true)
    (hout : e.out = cs.flatMap Chunk.bytes) (hctx : cs.foldl Context.after (Context.start cfg) = e.context)
    (hout' : e'.out = e.out ++ c.bytes) (hctx' : e.context.after c = e'.context) (hrun' : e'.run = 0) :
    e'.Encodes cfg ((Context.start cfg).pixels cs ++ List.replicate c.pixels (e.context.pixel c)) := by
  refine ⟨cs ++ [c], List.forall_mem_append.2 ⟨hwf, List.forall_mem_singleton.2 hc⟩, ?_, ?_, ?_⟩
  · rw [hout', hout, List.flatMap_append, List.flatMap_singleton]
  · rw [List.foldl_concat, hctx, hctx']
  · rw [Context.pixels_concat, hctx, hrun', List.replicate_zero, List.append_nil]

/-- The chunk of a pending run in the form R145 writes it. -/
theorem runBytes_eq_pendingBytes {n : Nat} (h : 1 ≤ n) (h' : n ≤ 62) : runBytes n = pendingBytes n := by
  have henc := encodeRun_ok n h h'
  rw [encodeRun, if_pos ⟨h, h'⟩] at henc
  exact Except.ok.inj henc

/-- Flushing the run, in whatever mode that leaves ENC, changes nothing of what is encoded: its chunk repeats
the previous pixel. -/
theorem Enc.Encodes.flush (h : e.Encodes cfg ps) (hr : e.run ≤ 62) (m : Mode) :
    Enc.Encodes cfg { e with run := 0, mode := m, out := e.out ++ pendingBytes e.run } ps := by
  obtain ⟨cs, hwf, hout, hctx, rfl⟩ := h
  obtain h0 | hpos := Nat.eq_zero_or_pos e.run
  · refine ⟨cs, hwf, ?_, hctx, ?_⟩
    · rw [h0, pendingBytes, if_neg (lt_irrefl 0), List.append_nil, hout]
    · rw [h0]
  · have hrun : (Chunk.run e.run).toInstr.wellFormed = true := by
      simp [Chunk.toInstr, Instr.wellFormed, Nat.one_le_iff_ne_zero, hpos.ne', hr]
    exact Enc.encodes_of_chunk hwf hrun hout hctx
      (congrArg (e.out ++ ·) (runBytes_eq_pendingBytes hpos hr).symm) rfl rfl

/-- With no run pending, the chosen chunk adds its pixel. -/
theorem Enc.Encodes.emit (h : e.Encodes cfg ps) (hr : e.run = 0) (px : Pixel) (n : Nat) :
    Enc.Encodes cfg { e with
      prev := px, pi := n, out := e.out ++ (e.chosen px).bytes
      cache := if hit e px then e.cache else e.cache.write (hash px) px } (ps ++ [px]) := by
  obtain ⟨cs, hwf, hout, hctx, rfl⟩ := h
  have hpx : [px] = List.replicate (e.chosen px).pixels (e.context.pixel (e.chosen px)) := by
    rw [e.chosen_pixels px, e.chosen_pixel px, List.replicate_one]
  rw [hr, List.replicate_zero, List.append_nil, hpx]
  exact Enc.encodes_of_chunk hwf (e.chosen_wellFormed px) hout hctx rfl (e.context_after_chosen px) rfl

/-- ENC.PIXEL keeps the lock-step. -/
theorem Enc.Encodes.pixel {e' : Enc} {px : Pixel} (h : e.Encodes cfg ps) (hr : e.run ≤ 61)
    (he : Enc.pixel px e = .ok e') : e'.Encodes cfg (ps ++ [px]) := by
  by_cases hpx : px = e.prev
  · subst hpx
    rw [Enc.pixel_run] at he
    split at he
    next hfull =>
      cases he
      have hflush := h.extend.flush (by dsimp only; omega) e.mode
      dsimp only at hflush
      rwa [hfull, pendingBytes_full] at hflush
    next =>
      cases he
      exact h.extend
  · rw [Enc.pixel_ne e px hpx (by omega)] at he
    cases he
    exact (h.flush (by omega) e.mode).emit rfl px (e.pi + 1)

end

theorem State.encPixels_encodes {cfg : Config} (ps : List Pixel) : ∀ {s : State} {qs : List Pixel},
    s.enc.mode = .active → s.enc.run ≤ 61 → s.enc.Encodes cfg qs →
    (State.encPixels ps s).enc.Encodes cfg (qs ++ ps) := by
  induction ps with
  | nil => exact fun _ _ h => by simpa [State.encPixels] using h
  | cons p ps ih =>
    intro s qs hm hr h
    obtain ⟨e, he, hstep, hm', hr', -⟩ := s.encPixel_ok p hm hr
    have hnext := ih (s := s.encPixel p) (qs := qs ++ [p])
    rw [List.append_assoc, List.singleton_append, hstep] at hnext
    rw [State.encPixels, hstep]
    exact hnext hm' hr' (h.pixel hr he)

/-- What an encode call leaves in ENC: the whole of its pixels encoded, and no run pending. -/
theorem execSeq_encodeCall_encodes (s : State) (ps : List Pixel) :
    ∃ t, execSeq (encodeCall ps) s = .next t ∧ t.cfg = s.cfg ∧ t.enc.mode = .done ∧ t.enc.run = 0 ∧
      t.enc.Encodes s.cfg ps := by
  obtain ⟨hm, hr, -⟩ := State.encPixels_active ps s.encStart rfl (Nat.zero_le 61)
  obtain ⟨hcfg, -⟩ := State.encPixels_frame ps s.encStart
  have henc := State.encPixels_encodes (s := s.encStart) ps rfl (Nat.zero_le 61) (Enc.encodes_start s.cfg)
  refine ⟨_, execSeq_encodeCall ps s, ?_⟩
  rw [State.encEnd_ok hm hr]
  exact ⟨hcfg, rfl, rfl, henc.flush (by omega) .done⟩

/-- Settles O59: ENC's output is a valid stream of the given pixels, so a decode call completes with them, and
the stream leaves in DEC what it left in ENC. -/
theorem streamRoundTrip : Obligations.StreamRoundTrip := by
  intro s ps w h hlen
  obtain ⟨t, hexec, hcfg, hm, hr, cs, hwf, hout, hctx, hps⟩ := execSeq_encodeCall_encodes s ps
  rw [hr, List.replicate_zero, List.append_nil] at hps
  have hsum : (cs.map Chunk.pixels).sum = w.toNat * h.toNat := by
    rw [← Context.pixels_length cs (Context.start s.cfg), hps, hlen]
  obtain ⟨u, hdecode, hdec, -⟩ := execSeq_decodeCall_stream t hwf hsum
  rw [hcfg] at hdec
  refine ⟨t, cs.length, u, hexec, hm, hout ▸ hdecode, ?_⟩
  rw [hdec]
  exact ⟨rfl, hps ▸ Dec.afterStream_holds s.cfg cs w h, congrArg Context.prev hctx,
    congrArg Context.cache hctx⟩

end Sys2Proof.Machine
end

section
/-! The header: HDR.BUILD and HDR.PARSE answer with their functions, and the two functions are inverse
(45_framing.md R230 to R232). -/

namespace Sys2Proof.Machine

theorem exec_hdrBuild (s : State) :
    exec .hdrBuild s = .next (s.answer ((buildHeader s.cfg s.hdr).map .bytes)) := rfl

theorem exec_hdrParse (bs : Seq) (s : State) : exec (.hdrParse bs) s = .next (s.hdrParse bs) := rfl

/-! ### HDR.BUILD (R230) -/

section
variable (cfg : Config) {h : Hdr}

theorem buildHeader_of_channels_ne (h3 : h.channels ≠ 3) (h4 : h.channels ≠ 4) :
    buildHeader cfg h = .error .badChannels := if_pos ⟨h3, h4⟩

theorem buildHeader_of_colorspace_ne (hch : h.channels = 3 ∨ h.channels = 4) (h0 : h.colorspace ≠ 0)
    (h1 : h.colorspace ≠ 1) : buildHeader cfg h = .error .badColorspace := by
  rw [buildHeader, if_neg (by tauto), if_pos ⟨h0, h1⟩]

theorem buildHeader_of_legal (hch : h.channels = 3 ∨ h.channels = 4)
    (hcs : h.colorspace = 0 ∨ h.colorspace = 1) :
    buildHeader cfg h = .ok (headerBytes cfg.magic h.width h.height h.channels h.colorspace) := by
  rw [buildHeader, if_neg (by tauto), if_neg (by tauto)]

end

/-- Settles O52: the two checks of R230 in their order. -/
theorem hdrBuildResult : Obligations.HdrBuildResult := fun s =>
  ⟨fun hch hcs => exec_of_answer_ok (exec_hdrBuild s) (buildHeader_of_legal s.cfg hch hcs),
    fun h3 h4 => exec_of_answer_error (exec_hdrBuild s) (buildHeader_of_channels_ne s.cfg h3 h4),
    fun hch h0 h1 => exec_of_answer_error (exec_hdrBuild s) (buildHeader_of_colorspace_ne s.cfg hch h0 h1)⟩

/-! ### HDR.PARSE (R231) -/

theorem parseHeader_of_length_ne (cfg : Config) {bs : List Byte} (h : bs.length ≠ 14) :
    parseHeader cfg (some bs) = .error .badHeaderLen := if_pos h

section
variable {s : State} {bs : Seq}

theorem exec_hdrParse_of_ok {hd : Hdr} (h : parseHeader s.cfg bs = .ok hd) :
    exec (.hdrParse bs) s = .next { s with hdr := hd, response := .header hd } :=
  congrArg _ (State.hdrParse_ok h)

theorem exec_hdrParse_of_error {c : Cause} (h : parseHeader s.cfg bs = .error c) :
    exec (.hdrParse bs) s = .next (utilFault s c) :=
  congrArg _ (State.hdrParse_error h)

end

/-- Settles O53: on 14 bytes the checks left are magic, channels and color space, in their order. -/
theorem hdrParseResult : Obligations.HdrParseResult := by
  intro s m w h channels colorspace bs hm hw hh
  have hparse := parseHeader_append s.cfg channels colorspace hm hw hh
  rw [List.append_assoc _ [channels], List.singleton_append] at hparse
  refine ⟨fun hmagic hch hcs => exec_hdrParse_of_ok ?_, fun hmagic => exec_hdrParse_of_error ?_,
    fun hmagic h3 h4 => exec_hdrParse_of_error ?_,
    fun hmagic hch h0 h1 => exec_hdrParse_of_error ?_,
    fun hlen => exec_hdrParse_of_error (parseHeader_of_length_ne s.cfg hlen),
    exec_hdrParse_of_error rfl⟩
  · rw [hparse, if_neg (not_not.2 hmagic), if_neg (by tauto), if_neg (by tauto)]
  · rw [hparse, if_pos hmagic]
  · rw [hparse, if_neg (not_not.2 hmagic), if_pos ⟨h3, h4⟩]
  · rw [hparse, if_neg (not_not.2 hmagic), if_neg (by tauto), if_pos ⟨h0, h1⟩]

/-! ### Building and parsing are inverse (R232) -/

@[simp] theorem headerBytes_length (m : Vector Byte 4) (w h : Word) (channels colorspace : Byte) :
    (headerBytes m w h channels colorspace).length = 14 := by simp [headerBytes]

/-- At least 14 bytes are a HEADER record, with whatever fields, and the bytes after it. -/
theorem exists_headerBytes_append {bs : List Byte} (h : 14 ≤ bs.length) :
    ∃ m w n channels colorspace rest, bs = headerBytes m w n channels colorspace ++ rest := by
  match bs, h with
  | m0 :: m1 :: m2 :: m3 :: w0 :: w1 :: w2 :: w3 :: n0 :: n1 :: n2 :: n3 :: channels :: colorspace :: rest, _ =>
    refine ⟨#v[m0, m1, m2, m3], toUint32BE [w0, w1, w2, w3], toUint32BE [n0, n1, n2, n3], channels,
      colorspace, rest, ?_⟩
    rw [headerBytes, fromUint32BE_toUint32BE _ rfl, fromUint32BE_toUint32BE _ rfl]
    rfl

/-- A header parses to the registers it is built from, and to no others. -/
theorem parseHeader_eq_ok_iff {cfg : Config} {bs : List Byte} {hd : Hdr} :
    parseHeader cfg (some bs) = .ok hd ↔ buildHeader cfg hd = .ok bs := by
  constructor
  · intro hparse
    by_cases hlen : bs.length = 14
    · obtain ⟨m, w, n, channels, colorspace, rest, rfl⟩ := exists_headerBytes_append hlen.ge
      obtain rfl : rest = [] := by simpa using hlen
      rw [List.append_nil] at hparse ⊢
      rw [parseHeader_headerBytes] at hparse
      split_ifs at hparse with hm hch hcs
      cases hparse
      rw [buildHeader, if_neg hch, if_neg hcs, not_not.1 hm]
    · rw [parseHeader_of_length_ne cfg hlen] at hparse
      cases hparse
  · intro hbuild
    rw [buildHeader] at hbuild
    split_ifs at hbuild with hch hcs
    cases hbuild
    rw [parseHeader_headerBytes, if_neg (not_not.2 rfl), if_neg hch, if_neg hcs]

/-- Only a header that builds is answered by HDR.BUILD. -/
theorem buildHeader_of_exec_hdrBuild {s : State} {bs : List Byte}
    (h : exec .hdrBuild s = .next { s with response := .bytes bs }) : buildHeader s.cfg s.hdr = .ok bs := by
  rw [exec_hdrBuild] at h
  cases hb : buildHeader s.cfg s.hdr with
  | ok bs' => rw [hb] at h; cases h; rfl
  | error c => rw [hb] at h; cases h

/-- Only a header that parses is answered by HDR.PARSE. -/
theorem parseHeader_of_exec_hdrParse {s u : State} {bs : Seq} {hd : Hdr}
    (h : exec (.hdrParse bs) s = .next u) (hr : u.response = .header hd) :
    parseHeader s.cfg bs = .ok hd ∧ u = { s with hdr := hd, response := .header hd } := by
  cases hp : parseHeader s.cfg bs with
  | ok hd' => rw [exec_hdrParse_of_ok hp] at h; cases h; cases hr; exact ⟨rfl, rfl⟩
  | error c => rw [exec_hdrParse_of_error hp] at h; cases h; cases hr

/-- Settles O54: one relation between bytes and registers, read in both directions. -/
theorem headerRoundTrip : Obligations.HeaderRoundTrip := by
  refine fun s t hcfg => ⟨fun bs h => ?_, fun bs u hd h hr => ?_⟩
  · have hbuild := buildHeader_of_exec_hdrBuild h
    rw [hcfg] at hbuild
    exact ⟨_, exec_hdrParse_of_ok (parseHeader_eq_ok_iff.2 hbuild), rfl, rfl⟩
  · obtain ⟨hparse, rfl⟩ := parseHeader_of_exec_hdrParse h hr
    exact exec_of_answer_ok (exec_hdrBuild _) (parseHeader_eq_ok_iff.1 hparse)

end Sys2Proof.Machine
end

section
/-! FILE.ENCODE: the header's checks, the pixel count, then the encode call between header and end marker
(45_framing.md R233). -/

namespace Sys2Proof.Machine

theorem exec_fileEncode (w h : Word) (channels colorspace : Byte) (pixels : Option (List Pixel)) (s : State) :
    exec (.fileEncode w h channels colorspace pixels) s =
      .next (s.fileEncode ⟨w, h, channels, colorspace⟩ pixels) := rfl

/-- What no encode call writes. -/
theorem execSeq_encodeCall_frame {s t : State} {ps : List Pixel} (h : execSeq (encodeCall ps) s = .next t) :
    t.cfg = s.cfg ∧ t.dec = s.dec ∧ t.hdr = s.hdr ∧ t.utilCause = s.utilCause ∧ t.port = s.port := by
  rw [execSeq_encodeCall] at h
  cases h
  obtain ⟨hcfg, hdec, hhdr, hutil, hport⟩ := State.encPixels_frame ps s.encStart
  obtain ⟨hcfg', hdec', hhdr', hutil', hport'⟩ := (State.encPixels ps s.encStart).encEnd_frame
  exact ⟨hcfg'.trans hcfg, hdec'.trans hdec, hhdr'.trans hhdr, hutil'.trans hutil, hport'.trans hport⟩

/-- A state that differs from another in ENC and the response only, once it answers. -/
theorem State.respond_of_enc_frame {s t : State} (h : t.cfg = s.cfg ∧ t.dec = s.dec ∧ t.hdr = s.hdr ∧
    t.utilCause = s.utilCause ∧ t.port = s.port) (r : Response) :
    t.respond r = { s with enc := t.enc, response := r } := by
  obtain ⟨hcfg, hdec, hhdr, hutil, hport⟩ := h
  rw [← hcfg, ← hdec, ← hhdr, ← hutil, ← hport]
  rfl

section
variable {s : State} {hd : Hdr} {ps : List Pixel}

theorem State.fileEncode_of_build_error {c : Cause} (h : buildHeader s.cfg hd = .error c) :
    s.fileEncode hd (some ps) = utilFault s c := by
  rw [State.fileEncode, h]
  rfl

variable {bs : List Byte} (hb : buildHeader s.cfg hd = .ok bs)
include hb

theorem State.fileEncode_of_count_ne (h : ps.length ≠ hd.width.toNat * hd.height.toNat) :
    s.fileEncode hd (some ps) = utilFault s .dimMismatchEnc := by
  rw [State.fileEncode, hb]
  exact if_pos h

/-- With a header that builds and the right number of pixels, the encode call runs to its end. -/
theorem State.fileEncode_ok {t : State} (hlen : ps.length = hd.width.toNat * hd.height.toNat)
    (ht : execSeq (encodeCall ps) s = .next t) (hm : t.enc.mode = .done) :
    s.fileEncode hd (some ps) = { s with
      enc := t.enc
      response := .bytes (bs ++ t.enc.out ++ s.cfg.endMarker.toList) } := by
  rw [← State.respond_of_enc_frame (execSeq_encodeCall_frame ht), State.fileEncode, hb]
  rw [execSeq_encodeCall] at ht
  cases ht
  exact (if_neg (not_not.2 hlen)).trans (if_pos hm)

end

/-- Settles O56: the header's two checks, then the pixel count; past them the encode call completes. -/
theorem fileEncodeResult : Obligations.FileEncodeResult := by
  intro s w h channels colorspace ps
  simp only [exec_fileEncode]
  refine ⟨fun hch hcs hlen => ?_, rfl,
    fun h3 h4 => congrArg _ (State.fileEncode_of_build_error (buildHeader_of_channels_ne s.cfg h3 h4)),
    fun hch h0 h1 =>
      congrArg _ (State.fileEncode_of_build_error (buildHeader_of_colorspace_ne s.cfg hch h0 h1)),
    fun hch hcs hlen => congrArg _ (State.fileEncode_of_count_ne (buildHeader_of_legal s.cfg hch hcs) hlen)⟩
  obtain ⟨t, ht, -, hm, -⟩ := execSeq_encodeCall_encodes s ps
  exact ⟨t, ht, congrArg _ (State.fileEncode_ok (buildHeader_of_legal s.cfg hch hcs) hlen ht hm)⟩

end Sys2Proof.Machine
end

section
/-! FILE.DECODE: the checks of the frame before the first chunk (45_framing.md R234). -/

namespace Sys2Proof.Machine

theorem exec_fileDecode (file : Seq) (s : State) : exec (.fileDecode file) s = .next (s.fileDecode file) := rfl

/-! ### Where a file is cut -/

section
variable {e : List Byte} (he : e.length = 8)
include he

theorem not_length_append_lt_endLen (body : List Byte) : ¬(body ++ e).length < endLen := by simp [he]

theorem length_append_sub_endLen (body : List Byte) : (body ++ e).length - endLen = body.length := by
  simp [he]

end

/-- The last 8 bytes of a file with this machine's end marker. -/
theorem checkEndMarker_drop (cfg : Config) (body : List Byte) :
    checkEndMarker cfg ((body ++ cfg.endMarker.toList).drop body.length) = .ok () := by
  rw [List.drop_left]
  exact if_pos rfl

section
variable {header : List Byte} (hlen : header.length = 14) (stream e : List Byte)
include hlen

theorem not_length_append_lt_headerLen : ¬(header ++ stream).length < headerLen := by simp [hlen]

theorem take_headerLen_append : (header ++ stream ++ e).take headerLen = header := by simp [← hlen]

theorem drop_headerLen_take_append :
    ((header ++ stream ++ e).drop headerLen).take ((header ++ stream).length - headerLen) = stream := by
  simp [← hlen]

end

/-! ### The checks in their order -/

/-- FILE.DECODE once the file's header stands in the header registers: the decode call on the bytes between
header and end marker, with the four fields beside its result. -/
def State.decodeImage (s : State) (stream : List Byte) : State :=
  let t := State.decLoop stream.length (s.decStart (some stream) s.hdr.width s.hdr.height)
  if t.dec.mode = .active then
    let u := t.decFinish
    if u.dec.mode = .done then u.respond (.image u.dec.out s.hdr) else u
  else t

section
variable {s : State}

theorem State.fileDecode_of_short {f : List Byte} (h : f.length < 8) :
    s.fileDecode (some f) = utilFault s .badEndMarker := if_pos h

theorem State.fileDecode_of_endMarker_ne (body : List Byte) {e : List Byte} (hlen : e.length = 8)
    (he : e ≠ s.cfg.endMarker.toList) : s.fileDecode (some (body ++ e)) = utilFault s .badEndMarker := by
  rw [State.fileDecode, if_neg (not_length_append_lt_endLen hlen body), length_append_sub_endLen hlen,
    List.drop_left, checkEndMarker, if_neg he]
  rfl

theorem State.fileDecode_of_body_short {body : List Byte} (h : body.length < 14) :
    s.fileDecode (some (body ++ s.cfg.endMarker.toList)) = utilFault s .badHeaderLen := by
  have hend := s.cfg.endMarker.length_toList
  rw [State.fileDecode, if_neg (not_length_append_lt_endLen hend body), length_append_sub_endLen hend,
    checkEndMarker_drop]
  exact if_pos h

variable {header : List Byte} (hlen : header.length = 14) (stream : List Byte)
include hlen

theorem State.fileDecode_of_parse_error {c : Cause} (h : parseHeader s.cfg (some header) = .error c) :
    s.fileDecode (some (header ++ stream ++ s.cfg.endMarker.toList)) = utilFault s c := by
  have hend := s.cfg.endMarker.length_toList
  rw [State.fileDecode, if_neg (not_length_append_lt_endLen hend _), length_append_sub_endLen hend,
    checkEndMarker_drop, take_headerLen_append hlen, h]
  exact if_neg (not_length_append_lt_headerLen hlen stream)

theorem State.fileDecode_of_parse_ok {hd : Hdr} (h : parseHeader s.cfg (some header) = .ok hd) :
    s.fileDecode (some (header ++ stream ++ s.cfg.endMarker.toList)) = (s.setHdr hd).decodeImage stream := by
  have hend := s.cfg.endMarker.length_toList
  rw [State.fileDecode, if_neg (not_length_append_lt_endLen hend _), length_append_sub_endLen hend,
    checkEndMarker_drop, take_headerLen_append hlen, h, drop_headerLen_take_append hlen]
  exact if_neg (not_length_append_lt_headerLen hlen stream)

end

section
variable (m : Vector Byte 4) (w h : Word) (channels colorspace : Byte) (rest : List Byte)

theorem take_four_headerBytes : (headerBytes m w h channels colorspace ++ rest).take 4 = m.toList := by
  simp [headerBytes]

theorem getElem?_headerBytes_channels :
    (headerBytes m w h channels colorspace ++ rest)[12]? = some channels := by
  simp [headerBytes, List.getElem?_append]

theorem getElem?_headerBytes_colorspace :
    (headerBytes m w h channels colorspace ++ rest)[13]? = some colorspace := by
  simp [headerBytes, List.getElem?_append]

end

/-- Settles O57: a file of 22 bytes or more with this machine's end marker is a header record, a stream and
the end marker, and the first three fields of the header are checked as HDR.PARSE checks them. -/
theorem fileDecodeChecksTheFrame : Obligations.FileDecodeChecksTheFrame := by
  intro s f body e
  simp only [exec_fileDecode]
  refine ⟨rfl, fun h => congrArg _ (State.fileDecode_of_short h),
    fun hlen he => congrArg _ (State.fileDecode_of_endMarker_ne body hlen he),
    fun h => congrArg _ (State.fileDecode_of_body_short h), ?_⟩
  by_cases hbody : 14 ≤ body.length
  · obtain ⟨m, w, n, channels, colorspace, stream, rfl⟩ := exists_headerBytes_append hbody
    have hparse := parseHeader_headerBytes s.cfg m w n channels colorspace
    simp only [take_four_headerBytes, getElem?_headerBytes_channels, getElem?_headerBytes_colorspace,
      ne_eq, Vector.toList_inj, Option.some_inj] at hparse ⊢
    refine ⟨fun _ hm => ?_, fun _ hm h3 h4 => ?_, fun _ hm hch h0 h1 => ?_⟩ <;>
      refine congrArg _ (State.fileDecode_of_parse_error (headerBytes_length m w n _ _) stream ?_)
    · rw [hparse, if_pos hm]
    · rw [hparse, if_neg (not_not.2 hm), if_pos ⟨h3, h4⟩]
    · rw [hparse, if_neg (not_not.2 hm), if_neg (by tauto), if_pos ⟨h0, h1⟩]
  · exact ⟨fun h => absurd h hbody, fun h => absurd h hbody, fun h => absurd h hbody⟩

end Sys2Proof.Machine
end

section
/-! FILE.DECODE's loop of DEC.STEPs over a stream: past the chunks that are whole and fit, to the end of the
stream or to the step that faults (44_decoder_fsm.md R200, R211). -/

namespace Sys2Proof.Machine

/-! ### Turns of the loop -/

theorem State.decLoop_succ {s : State} (n : Nat)
    (h : s.dec.mode = .active ∧ s.dec.ip < s.dec.input.length) :
    State.decLoop (n + 1) s = State.decLoop n s.decStep := if_pos h

theorem State.decLoop_of_stopped {s : State} (n : Nat)
    (h : ¬(s.dec.mode = .active ∧ s.dec.ip < s.dec.input.length)) : State.decLoop n s = s := by
  cases n with
  | zero => rfl
  | succ n => exact if_neg h

/-- While nothing stops the loop, each turn is a DEC.STEP. -/
theorem State.decLoop_add (k n : Nat) : ∀ {s : State},
    (∀ j < k, (State.decStep^[j] s).dec.mode = .active ∧
      (State.decStep^[j] s).dec.ip < (State.decStep^[j] s).dec.input.length) →
    State.decLoop (k + n) s = State.decLoop n (State.decStep^[k] s) := by
  induction k with
  | zero => exact fun _ => by rw [Nat.zero_add]; rfl
  | succ k ih =>
    intro s h
    rw [Nat.succ_add]
    exact (State.decLoop_succ _ (h 0 (Nat.zero_lt_succ k))).trans (ih fun j hj => h (j + 1) (by omega))

/-! ### A decode call past some chunks of its stream -/

/-- DEC in a call for `n` pixels, with the chunks `cs` committed and the bytes `rest` to come. -/
structure Dec.IsPast (d : Dec) (cs : List Chunk) (rest : List Byte) (n : Nat) : Prop where
  mode_eq : d.mode = .active
  input_eq : d.input = cs.flatMap Chunk.bytes ++ rest
  ip_eq : d.ip = (cs.flatMap Chunk.bytes).length
  op_eq : d.op = (cs.map Chunk.pixels).sum
  npix_eq : d.npix = n

section
variable {d : Dec} {cs : List Chunk} {rest : List Byte} {n : Nat}

theorem Dec.IsPast.drop_input (h : d.IsPast cs rest n) : d.input.drop d.ip = rest := by
  rw [h.input_eq, h.ip_eq, List.drop_left]

theorem Dec.IsPast.length_input (h : d.IsPast cs rest n) : d.input.length = d.ip + rest.length := by
  rw [h.input_eq, h.ip_eq, List.length_append]

theorem Dec.IsPast.running (h : d.IsPast cs rest n) (hrest : rest ≠ []) :
    d.mode = .active ∧ d.ip < d.input.length := by
  rw [h.length_input]
  exact ⟨h.mode_eq, Nat.lt_add_of_pos_right (List.length_pos_of_ne_nil hrest)⟩

theorem Dec.IsPast.ip_eq_length (h : d.IsPast cs [] n) : d.ip = d.input.length := h.length_input.symm

end

section
variable {u : State} {cs : List Chunk} {n : Nat}

/-- The next chunk has more pixels than are left. -/
theorem State.decStep_of_isPast_overflow {c : Chunk} {rest : List Byte}
    (h : u.dec.IsPast cs (c.bytes ++ rest) n) (hwf : c.toInstr.wellFormed = true)
    (hop : n < (cs.map Chunk.pixels).sum + c.pixels) : u.decStep = decFault u .pixelOverflow := by
  have hsize := c.size_pos
  have hlen := h.length_input
  have hread := decodeChunk_bytes c rest hwf
  rw [List.length_append, c.bytes_length] at hlen
  rw [← h.drop_input] at hread
  rw [State.decStep_of_ok h.mode_eq (by omega) hread]
  exact execChunk_overflow h.mode_eq (by omega) (by rwa [h.npix_eq, h.op_eq])

/-- The next chunk is cut. -/
theorem State.decStep_of_isPast_cut {b : Byte} {cut : List Byte} (h : u.dec.IsPast cs (b :: cut) n)
    (hcut : cut.length + 1 < chunkLength b) : u.decStep = decFault u .truncatedChunk := by
  obtain ⟨hm, hip⟩ := h.running (List.cons_ne_nil b cut)
  refine State.decStep_of_error (e := .truncated) hm hip ?_
  rw [h.drop_input, decodeChunk_truncated b cut hcut]

end

/-! ### DEC.START and the DEC.STEPs of a stream's chunks -/

/-- The state after DEC.START and `k` DEC.STEPs. -/
def State.decSteps (s : State) (stream : List Byte) (w h : Word) (k : Nat) : State :=
  State.decStep^[k] (s.decStart (some stream) w h)

theorem execSeq_replicate_decStep (k : Nat) (s : State) :
    execSeq (List.replicate k .decStep) s = .next (State.decStep^[k] s) := by
  induction k generalizing s with
  | zero => rfl
  | succ k ih => exact ih s.decStep

theorem execSeq_decStart_decSteps (s : State) (stream : List Byte) (w h : Word) (k : Nat) :
    execSeq (.decStart (some stream) w h :: List.replicate k .decStep) s = .next (s.decSteps stream w h k) :=
  execSeq_replicate_decStep k _

theorem length_le_length_flatMap_bytes (cs : List Chunk) : cs.length ≤ (cs.flatMap Chunk.bytes).length := by
  induction cs with
  | nil => exact Nat.le_refl 0
  | cons c cs ih =>
    have hsize := c.size_pos
    rw [List.flatMap_cons, List.length_append, c.bytes_length, List.length_cons]
    omega

section
variable (s : State) {cs : List Chunk} (rest : List Byte) {w h : Word}
  (hwf : ∀ c ∈ cs, c.toInstr.wellFormed = true) (hop : (cs.map Chunk.pixels).sum ≤ w.toNat * h.toNat)
include hwf hop

theorem State.decSteps_dec : (s.decSteps (cs.flatMap Chunk.bytes ++ rest) w h cs.length).dec =
    (Dec.start s.cfg (cs.flatMap Chunk.bytes ++ rest) w h).chunks cs :=
  State.decStep_iterate_chunks (s := s.decStart _ w h) cs rfl hwf rfl ((Nat.zero_add _).trans_le hop)

theorem State.decSteps_isPast : (s.decSteps (cs.flatMap Chunk.bytes ++ rest) w h cs.length).dec.IsPast
    cs rest (w.toNat * h.toNat) := by
  rw [State.decSteps_dec s rest hwf hop]
  exact ⟨rfl, rfl, Nat.zero_add _, Nat.zero_add _, rfl⟩

/-- The loop takes one turn for each chunk that is whole and fits, whatever follows the chunks. -/
theorem State.decLoop_decSteps (n : Nat) :
    State.decLoop (cs.length + n) (s.decStart (some (cs.flatMap Chunk.bytes ++ rest)) w h) =
      State.decLoop n (s.decSteps (cs.flatMap Chunk.bytes ++ rest) w h cs.length) := by
  refine State.decLoop_add _ n fun j hj => ?_
  obtain ⟨pre, c, post, rfl, rfl⟩ : ∃ pre c post, cs = pre ++ c :: post ∧ pre.length = j :=
    ⟨cs.take j, cs[j], cs.drop (j + 1), by simp, by simpa using hj.le⟩
  have hpre : (pre.map Chunk.pixels).sum ≤ w.toNat * h.toNat := by
    rw [List.map_append, List.sum_append] at hop
    omega
  rw [List.flatMap_append, List.append_assoc]
  refine (State.decSteps_isPast s _ (List.forall_mem_append.1 hwf).1 hpre).running fun hnil => ?_
  have hlen := length_le_length_flatMap_bytes (c :: post)
  rw [(List.append_eq_nil_iff.1 hnil).1] at hlen
  exact absurd hlen (Nat.not_succ_le_zero _)

/-- Where the step after the chunks faults, the loop ends with it. -/
theorem State.decLoop_of_fault {c : Cause} (hrest : rest ≠ [])
    (hstep : (s.decSteps (cs.flatMap Chunk.bytes ++ rest) w h cs.length).decStep =
      decFault (s.decSteps (cs.flatMap Chunk.bytes ++ rest) w h cs.length) c) :
    State.decLoop (cs.flatMap Chunk.bytes ++ rest).length
        (s.decStart (some (cs.flatMap Chunk.bytes ++ rest)) w h) =
      decFault (s.decSteps (cs.flatMap Chunk.bytes ++ rest) w h cs.length) c := by
  have hcs := length_le_length_flatMap_bytes cs
  have hpos := List.length_pos_of_ne_nil hrest
  obtain ⟨n, hn⟩ : ∃ n, (cs.flatMap Chunk.bytes ++ rest).length = cs.length + (n + 1) :=
    ⟨(cs.flatMap Chunk.bytes).length - cs.length + (rest.length - 1), by rw [List.length_append]; omega⟩
  rw [hn, State.decLoop_decSteps s rest hwf hop,
    State.decLoop_succ n ((State.decSteps_isPast s rest hwf hop).running hrest), hstep]
  exact State.decLoop_of_stopped n fun hrunning => absurd hrunning.1 nofun

/-- Where nothing follows the chunks, the loop ends with them. -/
theorem State.decLoop_of_end :
    State.decLoop (cs.flatMap Chunk.bytes).length (s.decStart (some (cs.flatMap Chunk.bytes)) w h) =
      s.decSteps (cs.flatMap Chunk.bytes) w h cs.length := by
  have hloop := State.decLoop_decSteps s [] hwf hop ((cs.flatMap Chunk.bytes).length - cs.length)
  have hpast := State.decSteps_isPast s [] hwf hop
  rw [List.append_nil] at hloop hpast
  rw [Nat.add_sub_cancel' (length_le_length_flatMap_bytes cs)] at hloop
  rw [hloop]
  exact State.decLoop_of_stopped _ fun hrunning => hrunning.2.ne hpast.ip_eq_length

end

end Sys2Proof.Machine
end

section
/-! FILE.DECODE past its header: the image, or the fault that ends the decode call (45_framing.md R234), and
the round trip of a file (R235). -/

namespace Sys2Proof.Machine

/-! ### The decode call of FILE.DECODE -/

/-- What the decode call of FILE.DECODE does not write. -/
theorem State.decodeImage_frame (s : State) (stream : List Byte) :
    (s.decodeImage stream).enc = s.enc ∧ (s.decodeImage stream).hdr = s.hdr ∧
      (s.decodeImage stream).utilCause = s.utilCause := by
  unfold State.decodeImage
  obtain ⟨-, henc, hhdr, hutil, -⟩ :=
    State.decLoop_frame stream.length (s.decStart (some stream) s.hdr.width s.hdr.height)
  generalize State.decLoop stream.length _ = t at *
  obtain ⟨-, henc', hhdr', hutil', -⟩ := t.decFinish_frame
  dsimp only
  split
  · split <;> exact ⟨henc'.trans henc, hhdr'.trans hhdr, hutil'.trans hutil⟩
  · exact ⟨henc, hhdr, hutil⟩

/-- The first chunk that does not fit into `n` pixels. -/
theorem exists_overflowing_chunk (cs : List Chunk) : ∀ {n : Nat}, n < (cs.map Chunk.pixels).sum →
    ∃ pre c post, cs = pre ++ c :: post ∧ (pre.map Chunk.pixels).sum ≤ n ∧
      n < (pre.map Chunk.pixels).sum + c.pixels := by
  induction cs with
  | nil => exact fun h => absurd h (Nat.not_lt_zero _)
  | cons c cs ih =>
    intro n h
    rw [List.map_cons, List.sum_cons] at h
    obtain hlt | hle := Nat.lt_or_ge n c.pixels
    · exact ⟨[], c, cs, rfl, Nat.zero_le n, by simpa using hlt⟩
    · obtain ⟨pre, d, post, rfl, hfits, hover⟩ := ih (n := n - c.pixels) (by omega)
      refine ⟨c :: pre, d, post, rfl, ?_⟩
      rw [List.map_cons, List.sum_cons]
      omega

/-- A fault of DEC in a call. -/
theorem decFault_dec_of_active {u : State} (hm : u.dec.mode = .active) (c : Cause) :
    (decFault u c).dec = { u.dec with mode := .fault, cause := c } := by
  simp [decFault, hm]

section
variable (s : State) {cs : List Chunk} (hwf : ∀ c ∈ cs, c.toInstr.wellFormed = true)
include hwf

/-- A step that faults after chunks that fit ends FILE.DECODE: these chunks are committed. -/
theorem State.decodeImage_of_fault {rest : List Byte} {c : Cause} (hrest : rest ≠ [])
    (hop : (cs.map Chunk.pixels).sum ≤ s.hdr.width.toNat * s.hdr.height.toNat)
    (hstep : ∀ u : State, u.dec.IsPast cs rest (s.hdr.width.toNat * s.hdr.height.toNat) →
      u.decStep = decFault u c) :
    (s.decodeImage (cs.flatMap Chunk.bytes ++ rest)).dec =
        { (Dec.start s.cfg (cs.flatMap Chunk.bytes ++ rest) s.hdr.width s.hdr.height).chunks cs with
          mode := .fault, cause := c } ∧
      (s.decodeImage (cs.flatMap Chunk.bytes ++ rest)).response = .fault c := by
  have hdec := State.decSteps_dec s rest hwf hop
  have hpast := State.decSteps_isPast s rest hwf hop
  rw [State.decodeImage, State.decLoop_of_fault s rest hwf hop hrest (hstep _ hpast), if_neg nofun,
    decFault_dec_of_active hpast.mode_eq, hdec]
  exact ⟨rfl, rfl⟩

/-- With as many pixels as the image has, the answer is the image. -/
theorem State.decodeImage_of_sum_eq
    (hsum : (cs.map Chunk.pixels).sum = s.hdr.width.toNat * s.hdr.height.toNat) :
    (s.decodeImage (cs.flatMap Chunk.bytes)).dec =
        { Dec.afterStream s.cfg cs s.hdr.width s.hdr.height with mode := .done } ∧
      (s.decodeImage (cs.flatMap Chunk.bytes)).response =
        .image (Dec.afterStream s.cfg cs s.hdr.width s.hdr.height).out s.hdr := by
  have hdec := State.decSteps_dec s [] hwf hsum.le
  have hpast := State.decSteps_isPast s [] hwf hsum.le
  rw [List.append_nil] at hdec hpast
  have hop := hpast.op_eq.trans (hsum.trans hpast.npix_eq.symm)
  rw [State.decodeImage, State.decLoop_of_end s hwf hsum.le, if_pos hpast.mode_eq,
    State.decFinish_ok hpast.mode_eq hpast.ip_eq_length hop, if_pos rfl, hdec]
  exact ⟨rfl, rfl⟩

/-- With fewer, DEC.FINISH faults. -/
theorem State.decodeImage_of_sum_lt
    (hsum : (cs.map Chunk.pixels).sum < s.hdr.width.toNat * s.hdr.height.toNat) :
    (s.decodeImage (cs.flatMap Chunk.bytes)).dec.mode = .fault ∧
      (s.decodeImage (cs.flatMap Chunk.bytes)).dec.cause = .pixelUnderflow ∧
      (s.decodeImage (cs.flatMap Chunk.bytes)).response = .fault .pixelUnderflow := by
  have hpast := State.decSteps_isPast s [] hwf hsum.le
  rw [List.append_nil] at hpast
  have hop := hpast.op_eq.trans_ne (hsum.ne.trans_eq hpast.npix_eq.symm)
  rw [State.decodeImage, State.decLoop_of_end s hwf hsum.le, if_pos hpast.mode_eq,
    State.decFinish_underflow hpast.mode_eq hpast.ip_eq_length hop, if_neg nofun,
    decFault_dec_of_active hpast.mode_eq]
  exact ⟨rfl, rfl, rfl⟩

/-- With more, the DEC.STEP of the first chunk that does not fit faults. -/
theorem State.decodeImage_of_lt_sum
    (hsum : s.hdr.width.toNat * s.hdr.height.toNat < (cs.map Chunk.pixels).sum) :
    (s.decodeImage (cs.flatMap Chunk.bytes)).dec.mode = .fault ∧
      (s.decodeImage (cs.flatMap Chunk.bytes)).dec.cause = .pixelOverflow ∧
      (s.decodeImage (cs.flatMap Chunk.bytes)).response = .fault .pixelOverflow := by
  obtain ⟨pre, c, post, rfl, hfits, hover⟩ := exists_overflowing_chunk cs hsum
  obtain ⟨hpre, hpost⟩ := List.forall_mem_append.1 hwf
  obtain ⟨hc, -⟩ := List.forall_mem_cons.1 hpost
  have hrest : c.bytes ++ post.flatMap Chunk.bytes ≠ [] := by
    have hsize := c.size_pos
    rw [← c.bytes_length] at hsize
    exact List.append_ne_nil_of_left_ne_nil (List.ne_nil_of_length_pos hsize) _
  obtain ⟨hdec, hresponse⟩ := s.decodeImage_of_fault hpre hrest hfits
    fun _ hu => State.decStep_of_isPast_overflow hu hc hover
  rw [List.flatMap_append, List.flatMap_cons, hdec]
  exact ⟨rfl, rfl, hresponse⟩

end

/-! ### A whole file -/

/-- A file with this machine's magic and end marker and legal header fields gets past the checks. -/
theorem exec_fileDecode_of_legal (s : State) (w h : Word) {channels colorspace : Byte} (stream : List Byte)
    (hch : channels = 3 ∨ channels = 4) (hcs : colorspace = 0 ∨ colorspace = 1) :
    exec (.fileDecode (some (headerBytes s.cfg.magic w h channels colorspace ++ stream ++
      s.cfg.endMarker.toList))) s = .next ((s.setHdr ⟨w, h, channels, colorspace⟩).decodeImage stream) :=
  congrArg _ (State.fileDecode_of_parse_ok (headerBytes_length _ w h channels colorspace) stream
    (parseHeader_eq_ok_iff.2 (buildHeader_of_legal s.cfg (h := ⟨w, h, channels, colorspace⟩) hch hcs)))

/-- In mode DONE after a stream, each position of the buffer can be read. -/
theorem readDecOut_of_afterStream {t : State} {cfg : Config} {cs : List Chunk} {w h : Word} {pos : Nat}
    (hdec : t.dec = { Dec.afterStream cfg cs w h with mode := .done })
    (hsum : (cs.map Chunk.pixels).sum = w.toNat * h.toNat) (hpos : pos < w.toNat * h.toNat) :
    ∃ p, readDecOut t pos = .next p := by
  have hout : t.dec.out.Holds ((Context.start cfg).pixels cs) := by
    rw [hdec]
    exact Dec.afterStream_holds cfg cs w h
  refine ⟨_, readDecOut_of_holds (by rw [hdec]) hout ?_ ?_⟩
  · rw [hdec]
    exact hpos
  · rwa [Context.pixels_length, hsum]

/-- Settles O58: the pixels of whole chunks are as many as the image's, fewer or more, or a cut chunk follows
chunks that fit; each case is one outcome of the decode call. -/
theorem fileDecodeResult : Obligations.FileDecodeResult := by
  intro s w h channels colorspace cs hch hcs hwf
  have hexec := fun stream => exec_fileDecode_of_legal s w h stream hch hcs
  have hframe := (s.setHdr ⟨w, h, channels, colorspace⟩).decodeImage_frame
  refine ⟨?_, fun b cut hcut hop => ?_⟩
  · obtain ⟨henc, hhdr, hutil⟩ := hframe (cs.flatMap Chunk.bytes)
    refine ⟨_, hexec _, hhdr, henc, hutil, fun hsum => ?_, fun hlt => State.decodeImage_of_sum_lt _ hwf hlt,
      fun hlt => State.decodeImage_of_lt_sum _ hwf hlt⟩
    obtain ⟨hdec, hresponse⟩ := State.decodeImage_of_sum_eq (s.setHdr ⟨w, h, channels, colorspace⟩) hwf hsum
    refine ⟨by rw [hdec], ?_, by rw [hresponse, hdec]; rfl,
      fun pos hpos => readDecOut_of_afterStream hdec hsum hpos⟩
    rw [hdec]
    exact (Nat.zero_add _).trans hsum
  · obtain ⟨henc, hhdr, hutil⟩ := hframe (cs.flatMap Chunk.bytes ++ b :: cut)
    have hpast := State.decSteps_isPast s (b :: cut) hwf hop
    obtain ⟨hdec, hresponse⟩ := State.decodeImage_of_fault (s.setHdr ⟨w, h, channels, colorspace⟩) hwf
      (List.cons_ne_nil b cut) hop fun _ hu => State.decStep_of_isPast_cut hu hcut
    refine ⟨_, _, execSeq_decStart_decSteps s _ w h cs.length, hpast.ip_eq, hpast.op_eq, hexec _, ?_,
      hresponse, hhdr, henc, hutil⟩
    rw [hdec, State.decSteps_dec s (b :: cut) hwf hop]
    rfl

/-- Settles O60: FILE.ENCODE puts a stream of the pixels between header and end marker, and FILE.DECODE finds
the header's fields and a stream of as many pixels as the image has. -/
theorem fileRoundTrip : Obligations.FileRoundTrip := by
  intro s w h channels colorspace ps hch hcs hlen
  obtain ⟨v, hv, -, hm, hr, cs, hwf, hout, -, hps⟩ := execSeq_encodeCall_encodes s ps
  rw [hr, List.replicate_zero, List.append_nil] at hps
  have hsum : (cs.map Chunk.pixels).sum = w.toNat * h.toNat := by
    rw [← Context.pixels_length cs (Context.start s.cfg), hps, hlen]
  have hencode := State.fileEncode_ok (hd := ⟨w, h, channels, colorspace⟩)
    (buildHeader_of_legal s.cfg hch hcs) hlen hv hm
  rw [hout] at hencode
  refine ⟨_, _, _, _, congrArg Host.Outcome.next hencode, rfl, exec_fileDecode_of_legal _ w h _ hch hcs,
    (State.decodeImage_of_sum_eq _ hwf hsum).2, ?_⟩
  exact hps ▸ Dec.afterStream_holds s.cfg cs w h

end Sys2Proof.Machine
end

section
/-! The codes that R95 does not assign are refused (60_exceptions.md R263). -/

namespace Sys2Proof

/-- A well-formed command's record is read back, with nothing left over. -/
theorem decodeRecord_encode {i : Instr} (hs : i.space = .command) (h : i.wellFormed = true) :
    decodeRecord (encode i) = .ok i := by
  have hd := decodeCommand_encode i [] hs h
  rw [List.append_nil] at hd
  rw [decodeRecord, hd]

theorem encode_unassigned : ∀ code : BitVec 2,
    encode (.unassigned code) = [0x1C + code.setWidth 8] := by decide

namespace Machine

theorem exec_unassigned (code : BitVec 2) (s : State) :
    exec (.unassigned code) s = .refused (.unassignedCommand code) := rfl

/-- Settles O4: the record decodes to the unassigned code, whose refusal passes through the step. -/
theorem unassignedCodesAreRefused : Obligations.UnassignedCodesAreRefused := by
  refine fun code s => ⟨exec_unassigned code s, fun rest hp => ?_⟩
  rw [← encode_unassigned] at hp
  rw [step_eq_carry_exec hp (decodeRecord_encode rfl rfl) ((operandsWithin_iff _ _).1 rfl),
    exec_unassigned, carry_refused]

end Machine

end Sys2Proof
end

section
/-! What a command leaves that answers with a fault: the fault entry of its unit (60_exceptions.md R254). -/

namespace Sys2Proof.Machine

section
variable {s : State} {c : Cause}

/-! ### ENC -/

theorem encFault_of_response_fault {d : Cause} (h : (encFault s d).response = .fault c) :
    encFault s d = encFault s c := by
  cases h
  rfl

theorem State.encStep_of_response_fault {f : Enc → Except Cause Enc}
    (h : (s.encStep f).response = .fault c) : s.encStep f = encFault s c := by
  obtain ⟨e, -, -, hstep⟩ | ⟨d, -, -, hstep⟩ | ⟨-, hstep⟩ := s.encStep_cases f
  · rw [hstep] at h
    cases h
  · rw [hstep, ← encFault_eq] at h ⊢
    exact encFault_of_response_fault h
  · rw [hstep, ← encFault_eq] at h ⊢
    exact encFault_of_response_fault h

/-- ENC.END changes its encoder step's answer only where the call is done, and there to the stream. -/
theorem State.encEnd_of_response_fault (h : s.encEnd.response = .fault c) : s.encEnd = encFault s c := by
  unfold State.encEnd at h ⊢
  dsimp only at h ⊢
  split at h
  · cases h
  · rw [if_neg ‹_›]
    exact State.encStep_of_response_fault h

theorem exec_encoder_of_response_fault {i : Instr} {t : State} (hi : i.isEncoder = true)
    (h : exec i s = .next t) (hc : t.response = .fault c) : t = encFault s c := by
  obtain rfl | rfl | ⟨f, hf⟩ := exec_encoder_cases hi
  · cases h; cases hc
  · cases h; exact State.encEnd_of_response_fault hc
  · rw [hf] at h; cases h; exact State.encStep_of_response_fault hc

/-! ### DEC -/

theorem decFault_of_response_fault {d : Cause} (h : (decFault s d).response = .fault c) :
    decFault s d = decFault s c := by
  cases h
  rfl

theorem execChunk_of_response_fault {k : Chunk} (h : (execChunk k s).response = .fault c) :
    execChunk k s = decFault s c := by
  rw [execChunk_eq] at h ⊢
  obtain ⟨-, -, -, -, hstep⟩ | ⟨d, hstep⟩ :=
    s.chunkStep_cases k.isCached (s.dec.context.pixel k) k.pixels k.size
  · rw [hstep] at h
    cases h
  · rw [hstep, ← decFault_eq] at h ⊢
    exact decFault_of_response_fault h

theorem State.decStart_of_response_fault {bytes : Seq} {w n : Word}
    (h : (s.decStart bytes w n).response = .fault c) : s.decStart bytes w n = decFault s c := by
  cases bytes with
  | none =>
    rw [State.decStart_none] at h ⊢
    exact decFault_of_response_fault h
  | some bs => cases h

theorem State.decStep_of_response_fault (h : s.decStep.response = .fault c) : s.decStep = decFault s c := by
  by_cases hrun : s.dec.mode = .active ∧ s.dec.ip < s.dec.input.length
  · obtain ⟨hm, hip⟩ := hrun
    cases hd : decodeChunk (s.dec.input.drop s.dec.ip) with
    | error e =>
      rw [State.decStep_of_error hm hip hd] at h ⊢
      exact decFault_of_response_fault h
    | ok p =>
      rw [State.decStep_of_ok hm hip hd] at h ⊢
      exact execChunk_of_response_fault h
  · rw [State.decStep_protocol ((not_and_or.1 hrun).imp_right Nat.not_lt.1)] at h ⊢
    exact decFault_of_response_fault h

theorem State.decFinish_of_response_fault (h : s.decFinish.response = .fault c) :
    s.decFinish = decFault s c := by
  by_cases hend : s.dec.mode = .active ∧ s.dec.ip = s.dec.input.length
  · obtain ⟨hm, hip⟩ := hend
    by_cases hop : s.dec.op = s.dec.npix
    · rw [State.decFinish_ok hm hip hop] at h
      cases h
    · rw [State.decFinish_underflow hm hip hop] at h ⊢
      exact decFault_of_response_fault h
  · rw [State.decFinish_protocol (not_and_or.1 hend)] at h ⊢
    exact decFault_of_response_fault h

theorem exec_decoder_of_response_fault {i : Instr} {t : State} (hi : i.isDecoder = true)
    (h : exec i s = .next t) (hc : t.response = .fault c) : t = decFault s c := by
  obtain ⟨bytes, w, n, rfl⟩ | rfl | rfl | ⟨k, rfl⟩ := isDecoder_cases hi
  · cases h; exact State.decStart_of_response_fault hc
  · cases h; exact State.decStep_of_response_fault hc
  · cases h; exact State.decFinish_of_response_fault hc
  · rw [exec_chunk] at h; cases h; exact execChunk_of_response_fault hc

/-! ### The stateless units -/

theorem utilFault_of_response_fault {d : Cause} (h : (utilFault s d).response = .fault c) :
    utilFault s d = utilFault s c := by
  cases h
  rfl

/-- A stateless command whose results are no fault answers one only by its fault entry. -/
theorem State.answer_of_response_fault {r : Except Cause Response} (hr : ∀ d, r ≠ .ok (.fault d))
    (h : (s.answer r).response = .fault c) : s.answer r = utilFault s c := by
  cases r with
  | ok x => cases h; exact absurd rfl (hr c)
  | error d => exact utilFault_of_response_fault h

/-- No kind of result is a fault. -/
theorem map_ne_ok_fault {α : Type} {f : α → Response} (hf : ∀ x d, f x ≠ .fault d)
    (r : Except Cause α) (d : Cause) : r.map f ≠ .ok (.fault d) := by
  cases r with
  | ok x => exact fun h => hf x d (Except.ok.inj h)
  | error e => nofun

theorem State.hdrParse_of_response_fault {bs : Seq} (h : (s.hdrParse bs).response = .fault c) :
    s.hdrParse bs = utilFault s c := by
  cases hp : parseHeader s.cfg bs with
  | ok hd =>
    rw [State.hdrParse_ok hp] at h
    cases h
  | error d =>
    rw [State.hdrParse_error hp] at h ⊢
    exact utilFault_of_response_fault h

/-- FILE.ENCODE faults before its encode call or not at all: every encode call completes. -/
theorem State.fileEncode_of_response_fault {hd : Hdr} {pixels : Option (List Pixel)}
    (h : (s.fileEncode hd pixels).response = .fault c) : s.fileEncode hd pixels = utilFault s c := by
  cases pixels with
  | none => exact utilFault_of_response_fault h
  | some ps =>
    cases hb : buildHeader s.cfg hd with
    | error d =>
      rw [State.fileEncode_of_build_error hb] at h ⊢
      exact utilFault_of_response_fault h
    | ok bs =>
      by_cases hlen : ps.length = hd.width.toNat * hd.height.toNat
      · obtain ⟨t, ht, hm, -⟩ := everyEncodeCallCompletes s ps
        rw [State.fileEncode_ok hb hlen ht hm] at h
        cases h
      · rw [State.fileEncode_of_count_ne hb hlen] at h ⊢
        exact utilFault_of_response_fault h

theorem exec_stateless_of_response_fault {i : Instr} {t : State} (he : i.isEncoder ≠ true)
    (hd : i.isDecoder ≠ true) (hf : ∀ f, i ≠ .fileDecode f) (h : exec i s = .next t)
    (hc : t.response = .fault c) : t = utilFault s c := by
  cases i with
  | utilEq | utilBe32Unpack | utilConcat | utilExtract | utilPartition | encRgb | encRgba | encIndex | encDiff
  | encLuma | encRun | decRgb | decRgba | decDiff | decLuma | decRun | hdrBuild | endMarker =>
    cases h
    exact State.answer_of_response_fault (map_ne_ok_fault nofun _) hc
  | utilBe32Pack | hash => cases h; cases hc
  | hdrParse | header => cases h; exact State.hdrParse_of_response_fault hc
  | fileEncode => cases h; exact State.fileEncode_of_response_fault hc
  | fileDecode f => exact absurd rfl (hf f)
  | unassigned => cases h
  | runExtend | runFlushFull | runFlushPending | emitIndex | cacheUpdate | emitDiff | emitLuma | emitRgb
  | emitRgba | prevAdvance | finalFlush | encStart | encPixel | encEnd => exact absurd rfl he
  | index | diff | luma | run | rgb | rgba | decStart | decStep | decFinish => exact absurd rfl hd

end

/-- Settles O12: an instruction of ENC, of DEC, or of the stateless units. -/
theorem faultEntryWritesNothingElse : Obligations.FaultEntryWritesNothingElse := by
  intro i s t c h hc hf
  split
  next he => exact exec_encoder_of_response_fault he h hc
  next he =>
    split
    next hd => exact exec_decoder_of_response_fault hd h hc
    next hd => exact exec_stateless_of_response_fault he hd hf h hc

end Sys2Proof.Machine
end

section
/-! Mode FAULT is left by START alone (60_exceptions.md R256). -/

namespace Sys2Proof.Machine

section
variable {s : State}

/-- The fault that every command but START takes in mode FAULT leaves ENC as it is. -/
theorem encFault_protocol_enc (hm : s.enc.mode = .fault) : (encFault s .protocol).enc = s.enc := by
  simp [encFault, hm.symm]

/-- The fault that every command but START takes in mode FAULT leaves DEC as it is. -/
theorem decFault_protocol_dec (hm : s.dec.mode = .fault) : (decFault s .protocol).dec = s.dec := by
  simp [decFault, hm.symm]

/-- A chunk asks for mode ACTIVE first. -/
theorem execChunk_of_not_active {c : Chunk} (hm : s.dec.mode ≠ .active) :
    execChunk c s = decFault s .protocol := by
  rw [execChunk_eq, State.chunkStep, if_pos (not_and_of_not_left _ hm), decFault_eq]

/-- Outside mode ACTIVE every instruction of ENC but ENC.START takes the PROTOCOL fault. -/
theorem exec_encoder_of_not_active {i : Instr} (hi : i.isEncoder = true) (hne : i ≠ .encStart)
    (hm : s.enc.mode ≠ .active) : exec i s = .next (encFault s .protocol) := by
  obtain rfl | rfl | ⟨f, hf⟩ := exec_encoder_cases hi
  · exact absurd rfl hne
  · rw [exec_encEnd, State.encEnd_of_not_active hm]
  · rw [hf, State.encStep_of_not_active hm]

/-- Outside mode ACTIVE every instruction of DEC but DEC.START takes the PROTOCOL fault. -/
theorem exec_decoder_of_not_active {i : Instr} (hi : i.isDecoder = true)
    (hne : ∀ bs w h, i ≠ .decStart bs w h) (hm : s.dec.mode ≠ .active) :
    exec i s = .next (decFault s .protocol) := by
  obtain ⟨bs, w, h, rfl⟩ | rfl | rfl | ⟨c, rfl⟩ := isDecoder_cases hi
  · exact absurd rfl (hne bs w h)
  · rw [exec_decStep, State.decStep_protocol (.inl hm)]
  · rw [exec_decFinish, State.decFinish_protocol (.inl hm)]
  · rw [exec_chunk, execChunk_of_not_active hm]

end

/-- Settles O13: in mode FAULT the unit's own instructions take the PROTOCOL fault, which is sticky, and the
others do not write its registers. -/
theorem onlyStartLeavesFault : Obligations.OnlyStartLeavesFault := by
  refine fun i s t h => ⟨fun hm hstart hfile => ?_, fun hm hstart hfile => ?_, ?_⟩
  · cases hi : i.isEncoder with
    | false => exact exec_enc_eq h hi hfile
    | true =>
      rw [exec_encoder_of_not_active hi hstart (by rw [hm]; nofun)] at h
      cases h
      exact encFault_protocol_enc hm
  · cases hi : i.isDecoder with
    | false => exact exec_dec_eq h hi hfile
    | true =>
      rw [exec_decoder_of_not_active hi hstart (by rw [hm]; nofun)] at h
      cases h
      exact decFault_protocol_dec hm
  · rintro - w n rfl
    rw [exec_decStart, State.decStart_none] at h
    cases h
    rfl

end Sys2Proof.Machine
end

section
/-! Outputs are results in mode DONE only (70_reset_and_hazards.md R289). -/

namespace Sys2Proof.Machine

/-- A position whose four bytes all hold a value reads a pixel. -/
theorem Memory.exists_readPixel {m : Memory} {pos : Nat}
    (h : ∀ addr, 4 * pos ≤ addr → addr < 4 * pos + 4 → (m.read addr).isSome = true) :
    ∃ p, m.readPixel pos = some p := by
  have hbyte (i : Nat) (hi : i < 4) : ∃ v, m.read (4 * pos + i) = some v :=
    Option.isSome_iff_exists.1 (h _ (by omega) (by omega))
  obtain ⟨a, ha⟩ := hbyte 0 (by omega)
  obtain ⟨r, hr⟩ := hbyte 1 (by omega)
  obtain ⟨g, hg⟩ := hbyte 2 (by omega)
  obtain ⟨b, hb⟩ := hbyte 3 (by omega)
  rw [Nat.add_zero] at ha
  exact ⟨⟨r, g, b, a⟩, by rw [Memory.readPixel, ha, hr, hg, hb]⟩

/-- A completed call has written every position of its buffer. -/
theorem Dec.Inv.exists_readPixel {d : Dec} (h : d.Inv) (hm : d.mode = .done) {pos : Nat}
    (hpos : pos < d.npix) : ∃ p, d.out.readPixel pos = some p := by
  obtain ⟨hop, -⟩ := h.done_complete hm
  exact Memory.exists_readPixel fun addr _ hlt => (h.out_written addr).2 (by omega)

section
variable {s : State}

theorem readEncOut_of_done (hm : s.enc.mode = .done) : readEncOut s = .next s.enc.out := if_pos hm

theorem readEncOut_of_not_done (hm : s.enc.mode ≠ .done) : readEncOut s = .refused .noResult := if_neg hm

theorem readDecOut_of_not_done (hm : s.dec.mode ≠ .done) (pos : Nat) :
    readDecOut s pos = .refused .noResult := if_neg hm

theorem readDecOut_of_readPixel {pos : Nat} {p : Pixel} (hm : s.dec.mode = .done)
    (hpos : pos < s.dec.npix) (hp : s.dec.out.readPixel pos = some p) : readDecOut s pos = .next p := by
  rw [readDecOut, if_pos hm, if_pos hpos, hp]

theorem readDecOut_of_npix_le {pos : Nat} (hm : s.dec.mode = .done) (hpos : s.dec.npix ≤ pos) :
    readDecOut s pos = .fault .outsideBuffer := by
  rw [readDecOut, if_pos hm, if_neg (Nat.not_lt.2 hpos)]

end

/-- Settles O27: the mode decides whether there is a result, and in DONE the invariant says that every
position of the buffer is written. -/
theorem resultsOnlyInDone : Obligations.ResultsOnlyInDone := by
  refine fun s => ⟨readEncOut_of_not_done, readEncOut_of_done, readDecOut_of_not_done,
    fun hm hinv pos => ⟨fun hpos => ?_, readDecOut_of_npix_le hm⟩⟩
  obtain ⟨p, hp⟩ := hinv.exists_readPixel hm hpos
  exact ⟨p, readDecOut_of_readPixel hm hpos hp⟩

end Sys2Proof.Machine
end
